-- ==== Sys2Proof/Word.lean ====
section
/-! DEFINITION. The one word type of the block: a byte (10_state.md R8: every data register, port, memory cell and bus
transfer is 8 bits wide). -/

namespace Sys2Proof

/-- `u8` of 00_scope.md R18: bit 0 is the least significant bit, arithmetic wraps modulo 256. -/
abbrev Byte := BitVec 8

end Sys2Proof
end

