-- ==== Sys2Proof/Config.lean ====
section
/-! DEFINITION. The construction-time parameters of 00_scope.md section 4, and the values the spec leaves open.
An `opaque` constant is an open value: it has no body, so nothing can be proved about which value it is. The parameters a
test bench chooses (VARIANT, UNDRIVEN_LEVEL, PB7_IRQ_MODE, ROM_SIZE, ROM_CONTENTS) stand in `Machine.State`, so that a statement about
every state is a statement about every choice of them. -/

namespace Sys2Proof

/-- R7: the two members of the family. `miot` is the 6530, `riot` the 6532. -/
inductive Variant where
  | miot
  | riot
deriving DecidableEq, Repr

/-- R17, R92, R159: the MIOT's use of Port B bit 7 as an interrupt output. `none` is the spec's default: bit 7 is an ordinary
port bit. `governed n` stands for any other rule; the source does not say what such a rule does, so its effect is given by the
open functions `Config.pb7…` below, applied to `n`. -/
inductive Pb7IrqMode where
  | none
  | governed (rule : Nat)
deriving DecidableEq, Repr

namespace Config

/-- R9: RAM_SIZE. -/
def ramSize : Variant → Nat
  | .miot => 64
  | .riot => 128

/-- R10, D19: the default of ROM_SIZE. The parameter itself is `Machine.Params.romSize` (log entry 11). -/
def defaultRomSize : Nat := 1024

/-- R12: IO_WINDOW_SIZE. -/
def ioWindowSize : Variant → Nat
  | .miot => 16
  | .riot => 32

/-- R14: TIMER_IDLE_VALUE, what a timer read returns after reset and before the first load. OPEN (log entry 9). -/
opaque timerIdleValue : Byte

/-- R15: RAM_INIT, the RAM contents at power-on, by offset. OPEN, a draw (log entry 10). -/
opaque ramInit : Nat → Byte

/-- R10: ROM_CONTENTS, by offset, for the bytes of which no image has been supplied. Supplied externally (log entry 11). -/
opaque romContents : Nat → Byte

/-- R11: CLOCK_HZ, the clock rate. No rule depends on its value (log entry 14). -/
opaque clockHz : Nat

/-- R175: a span of `ticks` ticks lasts `ticks / CLOCK_HZ` seconds. -/
def seconds (ticks : Nat) : Rat := (ticks : Rat) / (clockHz : Rat)

/-- R92: under `governed rule`, the level a Port B read gives in bit 7, from Port B's latch, direction and input registers and
the timer's interrupt enable and flag. Not given by the source (log entry 13). -/
opaque pb7Read (rule : Nat) (latch ddr input : Byte) (timerIe timerFlag : Bool) : Bool

/-- R92: under `governed rule`, whether the chip drives pin PB7. Not given by the source (log entry 13). -/
opaque pb7Enable (rule : Nat) (latch ddr input : Byte) (timerIe timerFlag : Bool) : Bool

/-- R92: under `governed rule`, the level the chip presents for pin PB7. Not given by the source (log entry 13). -/
opaque pb7Level (rule : Nat) (latch ddr input : Byte) (timerIe timerFlag : Bool) : Bool

/-- R92, R159: under `governed rule`, the dedicated interrupt line: the source does not say whether PB7 replaces or mirrors it
(log entry 13). -/
opaque pb7Line (rule : Nat) (latch ddr input : Byte) (timerIe timerFlag : Bool) : Bool

end Config

end Sys2Proof
end

