-- ==== Sys2Proof/Syntax.lean ====
section
/-! DEFINITION. The operations of a bus transaction: one constructor per row of spec/opcode_table.json. The rows of the two
variants are rows of their own in the table, so `riot…` and `miot…` are constructors of their own here. Operands are those of
30_encoding.md R67; an offset has exactly its window's width (20_memory.md R49). The data byte of an edge-control write is
ignored by the block (R122) and is no operand. ROM_SIZE is a parameter (R10), so the ROM's offset width is an argument of its
format and a part of its operations' offset; the opcode table is written for the default, width 10. -/

namespace Sys2Proof

/-- R61, R48: the three windows, selected by the host's decoder. -/
inductive Window where
  | io
  | ram
  | rom
deriving DecidableEq, Repr

/-- R62: the five formats of the access word, one per window and variant. `rom width` is the ROM window's with `width` offset
bits; `rom 10` is ROM1K. -/
inductive Format where
  | io32
  | io16
  | ram128
  | ram64
  | rom (width : Nat)
deriving DecidableEq, Repr

/-- R61: one bus transaction. Its access word has exactly its format's width (R62), so no offset outside a window can be
written down (R49) in a window of a power of two; a ROM whose size is none is the one window that can be smaller than its
offsets (log 26). `data` is the data byte of a write; a read has none (R61), so on a read the lane is ignored (log 24). -/
inductive Transaction where
  | io32 (word : BitVec 6) (data : Byte)
  | io16 (word : BitVec 5) (data : Byte)
  | ram128 (word : BitVec 8) (data : Byte)
  | ram64 (word : BitVec 7) (data : Byte)
  | rom (width : Nat) (word : BitVec (width + 1)) (data : Byte)
deriving DecidableEq, Repr

/-- R49, R62: an offset in the ROM window, of the window's width. -/
structure RomOffset where
  width : Nat
  bits : BitVec width
deriving DecidableEq, Repr

/-- One operation of the opcode table. -/
inductive Instr where
  /-- RIOT.RD_PA (R80): read Port A data. -/
  | riotRdPa
  /-- RIOT.RD_DDRA (R82): read the Port A data-direction register. -/
  | riotRdDdra
  /-- RIOT.RD_PB (R84): read Port B data. -/
  | riotRdPb
  /-- RIOT.RD_DDRB (R87): read the Port B data-direction register. -/
  | riotRdDdrb
  /-- RIOT.WR_PA (R81): write the Port A output latch. -/
  | riotWrPa (d : Byte)
  /-- RIOT.WR_DDRA (R83): write the Port A data-direction register. -/
  | riotWrDdra (d : Byte)
  /-- RIOT.WR_PB (R85): write the Port B output latch. -/
  | riotWrPb (d : Byte)
  /-- RIOT.WR_DDRB (R86): write the Port B data-direction register. -/
  | riotWrDdrb (d : Byte)
  /-- RIOT.RD_TIMER (R106): read the timer count. -/
  | riotRdTimer
  /-- RIOT.RD_IFR (R127): read and clear the interrupt-flag register. -/
  | riotRdIfr
  /-- RIOT.WR_T1 (R97): load the timer, divide by 1, timer interrupt disabled. -/
  | riotWrT1 (d : Byte)
  /-- RIOT.WR_T8 (R98): load the timer, divide by 8, timer interrupt disabled. -/
  | riotWrT8 (d : Byte)
  /-- RIOT.WR_T64 (R99): load the timer, divide by 64, timer interrupt disabled. -/
  | riotWrT64 (d : Byte)
  /-- RIOT.WR_T1024 (R100): load the timer, divide by 1024, timer interrupt disabled. -/
  | riotWrT1024 (d : Byte)
  /-- RIOT.WR_T1I (R101): load the timer, divide by 1, timer interrupt enabled. -/
  | riotWrT1I (d : Byte)
  /-- RIOT.WR_T8I (R102): load the timer, divide by 8, timer interrupt enabled. -/
  | riotWrT8I (d : Byte)
  /-- RIOT.WR_T64I (R103): load the timer, divide by 64, timer interrupt enabled. -/
  | riotWrT64I (d : Byte)
  /-- RIOT.WR_T1024I (R104): load the timer, divide by 1024, timer interrupt enabled. -/
  | riotWrT1024I (d : Byte)
  /-- RIOT.WR_EDGE_NEG (R123): watch falling edges of PA7, edge interrupt disabled. -/
  | riotWrEdgeNeg
  /-- RIOT.WR_EDGE_POS (R124): watch rising edges of PA7, edge interrupt disabled. -/
  | riotWrEdgePos
  /-- RIOT.WR_EDGE_NEG_IE (R125): watch falling edges of PA7, edge interrupt enabled. -/
  | riotWrEdgeNegIe
  /-- RIOT.WR_EDGE_POS_IE (R126): watch rising edges of PA7, edge interrupt enabled. -/
  | riotWrEdgePosIe
  /-- RIOT.RD_RAM (R133): read one RAM byte. -/
  | riotRdRam (off : BitVec 7)
  /-- RIOT.WR_RAM (R134): write one RAM byte. -/
  | riotWrRam (off : BitVec 7) (d : Byte)
  /-- MIOT.RD_PA (R80): read Port A data. -/
  | miotRdPa
  /-- MIOT.RD_DDRA (R82): read the Port A data-direction register. -/
  | miotRdDdra
  /-- MIOT.RD_PB (R84): read Port B data. -/
  | miotRdPb
  /-- MIOT.RD_DDRB (R87): read the Port B data-direction register. -/
  | miotRdDdrb
  /-- MIOT.WR_PA (R81): write the Port A output latch. -/
  | miotWrPa (d : Byte)
  /-- MIOT.WR_DDRA (R83): write the Port A data-direction register. -/
  | miotWrDdra (d : Byte)
  /-- MIOT.WR_PB (R85): write the Port B output latch. -/
  | miotWrPb (d : Byte)
  /-- MIOT.WR_DDRB (R86): write the Port B data-direction register. -/
  | miotWrDdrb (d : Byte)
  /-- MIOT.RD_TIMER (R106): read the timer count. -/
  | miotRdTimer
  /-- MIOT.RD_IFR (R127): read and clear the interrupt-flag register. -/
  | miotRdIfr
  /-- MIOT.WR_T1 (R97): load the timer, divide by 1, timer interrupt disabled. -/
  | miotWrT1 (d : Byte)
  /-- MIOT.WR_T8 (R98): load the timer, divide by 8, timer interrupt disabled. -/
  | miotWrT8 (d : Byte)
  /-- MIOT.WR_T64 (R99): load the timer, divide by 64, timer interrupt disabled. -/
  | miotWrT64 (d : Byte)
  /-- MIOT.WR_T1024 (R100): load the timer, divide by 1024, timer interrupt disabled. -/
  | miotWrT1024 (d : Byte)
  /-- MIOT.WR_T1I (R101): load the timer, divide by 1, timer interrupt enabled. -/
  | miotWrT1I (d : Byte)
  /-- MIOT.WR_T8I (R102): load the timer, divide by 8, timer interrupt enabled. -/
  | miotWrT8I (d : Byte)
  /-- MIOT.WR_T64I (R103): load the timer, divide by 64, timer interrupt enabled. -/
  | miotWrT64I (d : Byte)
  /-- MIOT.WR_T1024I (R104): load the timer, divide by 1024, timer interrupt enabled. -/
  | miotWrT1024I (d : Byte)
  /-- MIOT.RD_RAM (R133): read one RAM byte. -/
  | miotRdRam (off : BitVec 6)
  /-- MIOT.WR_RAM (R134): write one RAM byte. -/
  | miotWrRam (off : BitVec 6) (d : Byte)
  /-- MIOT.RD_ROM (R135): read one ROM byte, at an offset of the ROM window's width. -/
  | miotRdRom (off : RomOffset)
  /-- MIOT.WR_ROM (R136): write to the ROM window, which has no effect. -/
  | miotWrRom (off : RomOffset) (d : Byte)
deriving DecidableEq, Repr

end Sys2Proof
end

