-- ==== Sys2Proof/WellFormed.lean ====
section
/-! DEFINITION. Which operations and which transactions are well formed for a chip: those of its own variant (R137: variant
selection changes which operations are reachable), with the ROM offset inside the chip's ROM window (R49). Every other check is
a type: operands and access words have exact widths. -/

namespace Sys2Proof

/-- R62: the variant a format belongs to. -/
def Format.variant : Format → Variant
  | .io32 => .riot
  | .io16 => .miot
  | .ram128 => .riot
  | .ram64 => .miot
  | .rom _ => .miot

/-- R62: the window a format addresses. -/
def Format.window : Format → Window
  | .io32 => .io
  | .io16 => .io
  | .ram128 => .ram
  | .ram64 => .ram
  | .rom _ => .rom

/-- The format of a transaction. -/
def Transaction.format : Transaction → Format
  | .io32 _ _ => .io32
  | .io16 _ _ => .io16
  | .ram128 _ _ => .ram128
  | .ram64 _ _ => .ram64
  | .rom width _ _ => .rom width

/-- The format whose access words select an operation (the `format` column of the opcode table). -/
def Instr.format : Instr → Format
  | .riotRdPa => .io32
  | .riotRdDdra => .io32
  | .riotRdPb => .io32
  | .riotRdDdrb => .io32
  | .riotWrPa _ => .io32
  | .riotWrDdra _ => .io32
  | .riotWrPb _ => .io32
  | .riotWrDdrb _ => .io32
  | .riotRdTimer => .io32
  | .riotRdIfr => .io32
  | .riotWrT1 _ => .io32
  | .riotWrT8 _ => .io32
  | .riotWrT64 _ => .io32
  | .riotWrT1024 _ => .io32
  | .riotWrT1I _ => .io32
  | .riotWrT8I _ => .io32
  | .riotWrT64I _ => .io32
  | .riotWrT1024I _ => .io32
  | .riotWrEdgeNeg => .io32
  | .riotWrEdgePos => .io32
  | .riotWrEdgeNegIe => .io32
  | .riotWrEdgePosIe => .io32
  | .riotRdRam _ => .ram128
  | .riotWrRam _ _ => .ram128
  | .miotRdPa => .io16
  | .miotRdDdra => .io16
  | .miotRdPb => .io16
  | .miotRdDdrb => .io16
  | .miotWrPa _ => .io16
  | .miotWrDdra _ => .io16
  | .miotWrPb _ => .io16
  | .miotWrDdrb _ => .io16
  | .miotRdTimer => .io16
  | .miotRdIfr => .io16
  | .miotWrT1 _ => .io16
  | .miotWrT8 _ => .io16
  | .miotWrT64 _ => .io16
  | .miotWrT1024 _ => .io16
  | .miotWrT1I _ => .io16
  | .miotWrT8I _ => .io16
  | .miotWrT64I _ => .io16
  | .miotWrT1024I _ => .io16
  | .miotRdRam _ => .ram64
  | .miotWrRam _ _ => .ram64
  | .miotRdRom off => .rom off.width
  | .miotWrRom off _ => .rom off.width

/-- R137: the variant an operation exists on. -/
def Instr.variant (i : Instr) : Variant := i.format.variant

/-- R62: the offset width of the ROM window, `ceil(log2(ROM_SIZE))`. -/
def romOffsetWidth (romSize : Nat) : Nat := if romSize ≤ 1 then 0 else Nat.log2 (romSize - 1) + 1

/-- R48, R49, R62: whether an offset is one of a ROM window of `romSize` bytes. -/
def romWindowHas (romSize : Nat) (off : RomOffset) : Bool :=
  decide (off.width = romOffsetWidth romSize) && decide (off.bits.toNat < romSize)

/-- R49: whether an operation's offset lies in a ROM window of `romSize` bytes. Only the ROM operations have such an offset. -/
def Instr.inRomWindow (romSize : Nat) : Instr → Bool
  | .miotRdRom off => romWindowHas romSize off
  | .miotWrRom off _ => romWindowHas romSize off
  | _ => true

/-- R49: whether a transaction's offset lies in a ROM window of `romSize` bytes. -/
def Transaction.inRomWindow (romSize : Nat) : Transaction → Bool
  | .rom width word _ => romWindowHas romSize ⟨width, word.setWidth width⟩
  | _ => true

/-- An operation is well formed for a chip when the chip's variant has it and its offset lies in the chip's window. -/
def Instr.wellFormedFor (v : Variant) (romSize : Nat) (i : Instr) : Bool :=
  decide (i.variant = v) && i.inRomWindow romSize

/-- A transaction is well formed for a chip when the chip's decoder has its format and its offset lies in the chip's window. -/
def Transaction.wellFormedFor (v : Variant) (romSize : Nat) (t : Transaction) : Bool :=
  decide (t.format.variant = v) && t.inRomWindow romSize

end Sys2Proof
end

