-- ==== Sys2Proof/Decode.lean ====
section
/-! DEFINITION. Decoding a bus transaction (30_encoding.md), with the decode tables kept as data (91_not_in_source.md N1: "A
model should keep the decode table as data so that a corrected table can replace it"), and after it the encoder. -/

namespace Sys2Proof

/-- R63: one row of a decode table over n-bit access words. An access word `w` selects the row when `(w & mask) = pattern`.
`make` takes the operands from the access word and the data byte (R67). -/
structure DecodeRow (n : Nat) where
  mask : BitVec n
  pattern : BitVec n
  make : BitVec n → Byte → Instr

/-- Why a decoder gives no operation. -/
inductive Reject where
  /-- No row of the table selects the word. R68 says every word selects one, so no transaction is rejected so. -/
  | noRow
  /-- The bytes end before the access word does. -/
  | noWord
  /-- A bit above the format's width is set: such an offset is outside the window (R49). -/
  | wordTooWide
  /-- A write's data byte is missing (R61). -/
  | noData
deriving DecidableEq, Repr

/-- R63: whether an access word selects a row. -/
def selects {n : Nat} (w : BitVec n) (r : DecodeRow n) : Bool := (w &&& r.mask) == r.pattern

/-- R64: the RIOT register window (format IO32). -/
def io32Rows : List (DecodeRow 6) := [
  ⟨0x27#6, 0x20#6, fun _ _ => .riotRdPa⟩,
  ⟨0x27#6, 0x21#6, fun _ _ => .riotRdDdra⟩,
  ⟨0x27#6, 0x22#6, fun _ _ => .riotRdPb⟩,
  ⟨0x27#6, 0x23#6, fun _ _ => .riotRdDdrb⟩,
  ⟨0x27#6, 0x0#6, fun _ d => .riotWrPa d⟩,
  ⟨0x27#6, 0x1#6, fun _ d => .riotWrDdra d⟩,
  ⟨0x27#6, 0x2#6, fun _ d => .riotWrPb d⟩,
  ⟨0x27#6, 0x3#6, fun _ d => .riotWrDdrb d⟩,
  ⟨0x25#6, 0x24#6, fun _ _ => .riotRdTimer⟩,
  ⟨0x25#6, 0x25#6, fun _ _ => .riotRdIfr⟩,
  ⟨0x3f#6, 0x14#6, fun _ d => .riotWrT1 d⟩,
  ⟨0x3f#6, 0x15#6, fun _ d => .riotWrT8 d⟩,
  ⟨0x3f#6, 0x16#6, fun _ d => .riotWrT64 d⟩,
  ⟨0x3f#6, 0x17#6, fun _ d => .riotWrT1024 d⟩,
  ⟨0x3f#6, 0x1c#6, fun _ d => .riotWrT1I d⟩,
  ⟨0x3f#6, 0x1d#6, fun _ d => .riotWrT8I d⟩,
  ⟨0x3f#6, 0x1e#6, fun _ d => .riotWrT64I d⟩,
  ⟨0x3f#6, 0x1f#6, fun _ d => .riotWrT1024I d⟩,
  ⟨0x37#6, 0x4#6, fun _ _ => .riotWrEdgeNeg⟩,
  ⟨0x37#6, 0x5#6, fun _ _ => .riotWrEdgePos⟩,
  ⟨0x37#6, 0x6#6, fun _ _ => .riotWrEdgeNegIe⟩,
  ⟨0x37#6, 0x7#6, fun _ _ => .riotWrEdgePosIe⟩
]

/-- R65: the MIOT register window (format IO16). -/
def io16Rows : List (DecodeRow 5) := [
  ⟨0x17#5, 0x10#5, fun _ _ => .miotRdPa⟩,
  ⟨0x17#5, 0x11#5, fun _ _ => .miotRdDdra⟩,
  ⟨0x17#5, 0x12#5, fun _ _ => .miotRdPb⟩,
  ⟨0x17#5, 0x13#5, fun _ _ => .miotRdDdrb⟩,
  ⟨0x17#5, 0x0#5, fun _ d => .miotWrPa d⟩,
  ⟨0x17#5, 0x1#5, fun _ d => .miotWrDdra d⟩,
  ⟨0x17#5, 0x2#5, fun _ d => .miotWrPb d⟩,
  ⟨0x17#5, 0x3#5, fun _ d => .miotWrDdrb d⟩,
  ⟨0x15#5, 0x14#5, fun _ _ => .miotRdTimer⟩,
  ⟨0x15#5, 0x15#5, fun _ _ => .miotRdIfr⟩,
  ⟨0x1f#5, 0x4#5, fun _ d => .miotWrT1 d⟩,
  ⟨0x1f#5, 0x5#5, fun _ d => .miotWrT8 d⟩,
  ⟨0x1f#5, 0x6#5, fun _ d => .miotWrT64 d⟩,
  ⟨0x1f#5, 0x7#5, fun _ d => .miotWrT1024 d⟩,
  ⟨0x1f#5, 0xc#5, fun _ d => .miotWrT1I d⟩,
  ⟨0x1f#5, 0xd#5, fun _ d => .miotWrT8I d⟩,
  ⟨0x1f#5, 0xe#5, fun _ d => .miotWrT64I d⟩,
  ⟨0x1f#5, 0xf#5, fun _ d => .miotWrT1024I d⟩
]

/-- R133, R134: the RIOT RAM window (format RAM128). -/
def ram128Rows : List (DecodeRow 8) := [
  ⟨0x80#8, 0x80#8, fun w _ => .riotRdRam (w.setWidth 7)⟩,
  ⟨0x80#8, 0x0#8, fun w d => .riotWrRam (w.setWidth 7) d⟩
]

/-- R133, R134: the MIOT RAM window (format RAM64). -/
def ram64Rows : List (DecodeRow 7) := [
  ⟨0x40#7, 0x40#7, fun w _ => .miotRdRam (w.setWidth 6)⟩,
  ⟨0x40#7, 0x0#7, fun w d => .miotWrRam (w.setWidth 6) d⟩
]

/-- R135, R136, R62: the MIOT ROM window with `n` offset bits; `n = 10` is the format ROM1K of the opcode table. -/
def romRows (n : Nat) : List (DecodeRow (n + 1)) := [
  ⟨BitVec.twoPow (n + 1) n, BitVec.twoPow (n + 1) n, fun w _ => .miotRdRom ⟨n, w.setWidth n⟩⟩,
  ⟨BitVec.twoPow (n + 1) n, 0#(n + 1), fun w d => .miotWrRom ⟨n, w.setWidth n⟩ d⟩
]

/-- The operation an access word selects in a table: the first row it selects. -/
def decodeWord {n : Nat} (rows : List (DecodeRow n)) (w : BitVec n) (data : Byte) : Except Reject Instr :=
  match rows.find? (selects w) with
  | some r => .ok (r.make w data)
  | none => .error .noRow

/-- R68: the operation of a bus transaction. -/
def decode : Transaction → Except Reject Instr
  | .io32 w d => decodeWord io32Rows w d
  | .io16 w d => decodeWord io16Rows w d
  | .ram128 w d => decodeWord ram128Rows w d
  | .ram64 w d => decodeWord ram64Rows w d
  | .rom n w d => decodeWord (romRows n) w d

/-- R62: the width of a format's access word. -/
def formatWidth : Format → Nat
  | .io32 => 6
  | .io16 => 5
  | .ram128 => 8
  | .ram64 => 7
  | .rom n => n + 1

/-- R61: an access word, given as a number of at most its format's width, is a read's when its top bit is 1. -/
def wordIsRead (f : Format) (word : Nat) : Bool := decide (2 ^ (formatWidth f - 1) ≤ word)

/-- The transaction of a format with a given access word. -/
def transactionOf (f : Format) (word : Nat) (data : Byte) : Transaction :=
  match f with
  | .io32 => .io32 (BitVec.ofNat 6 word) data
  | .io16 => .io16 (BitVec.ofNat 5 word) data
  | .ram128 => .ram128 (BitVec.ofNat 8 word) data
  | .ram64 => .ram64 (BitVec.ofNat 7 word) data
  | .rom n => .rom n (BitVec.ofNat (n + 1) word) data

/-- How many bytes hold a format's access word. -/
def formatBytes (f : Format) : Nat := (formatWidth f + 7) / 8

/-- A number as `n` bytes, low byte first (log 25). -/
def wordBytes : Nat → Nat → List Byte
  | 0, _ => []
  | n + 1, w => BitVec.ofNat 8 w :: wordBytes n (w / 256)

/-- The number in the first `n` bytes of a listing, low byte first (log 25), and the bytes after it. -/
def takeWord : Nat → List Byte → Except Reject (Nat × List Byte)
  | 0, bytes => .ok (0, bytes)
  | _ + 1, [] => .error .noWord
  | n + 1, b :: bytes =>
    match takeWord n bytes with
    | .ok (w, rest) => .ok (b.toNat + 256 * w, rest)
    | .error r => .error r

/-- R70, R74: the transaction at the head of a listing in a known format: the access word and, for a write, one data byte;
with the bytes after it. -/
def takeTransaction (f : Format) (bytes : List Byte) : Except Reject (Transaction × List Byte) :=
  match takeWord (formatBytes f) bytes with
  | .error r => .error r
  | .ok (word, rest) =>
    if 2 ^ formatWidth f ≤ word then .error .wordTooWide
    else if wordIsRead f word then .ok (transactionOf f word 0, rest)
    else
      match rest with
      | d :: rest' => .ok (transactionOf f word d, rest')
      | [] => .error .noData

/-- The operation at the head of a listing, and the bytes after it. Total on any bytes; a rejection has a name. -/
def decodeBytes (f : Format) (bytes : List Byte) : Except Reject (Instr × List Byte) :=
  match takeTransaction f bytes with
  | .error r => .error r
  | .ok (t, rest) =>
    match decode t with
    | .ok i => .ok (i, rest)
    | .error r => .error r

/-- The access word of a RAM or ROM access: `(r << W) | offset` (R61). -/
def accessWord {w : Nat} (isRead : Bool) (off : BitVec w) : BitVec (w + 1) :=
  (BitVec.ofBool isRead ++ off).cast (Nat.add_comm 1 w)

/-- The transaction of an operation, at its canonical offset (R73). The data byte of an edge-control write is 0x00 (R73), and so
is the unused lane of a read. -/
def encode : Instr → Transaction
  | .riotRdPa => .io32 0x20#6 0
  | .riotRdDdra => .io32 0x21#6 0
  | .riotRdPb => .io32 0x22#6 0
  | .riotRdDdrb => .io32 0x23#6 0
  | .riotWrPa d => .io32 0x00#6 d
  | .riotWrDdra d => .io32 0x01#6 d
  | .riotWrPb d => .io32 0x02#6 d
  | .riotWrDdrb d => .io32 0x03#6 d
  | .riotRdTimer => .io32 0x24#6 0
  | .riotRdIfr => .io32 0x25#6 0
  | .riotWrT1 d => .io32 0x14#6 d
  | .riotWrT8 d => .io32 0x15#6 d
  | .riotWrT64 d => .io32 0x16#6 d
  | .riotWrT1024 d => .io32 0x17#6 d
  | .riotWrT1I d => .io32 0x1c#6 d
  | .riotWrT8I d => .io32 0x1d#6 d
  | .riotWrT64I d => .io32 0x1e#6 d
  | .riotWrT1024I d => .io32 0x1f#6 d
  | .riotWrEdgeNeg => .io32 0x04#6 0
  | .riotWrEdgePos => .io32 0x05#6 0
  | .riotWrEdgeNegIe => .io32 0x06#6 0
  | .riotWrEdgePosIe => .io32 0x07#6 0
  | .riotRdRam off => .ram128 (accessWord true off) 0
  | .riotWrRam off d => .ram128 (accessWord false off) d
  | .miotRdPa => .io16 0x10#5 0
  | .miotRdDdra => .io16 0x11#5 0
  | .miotRdPb => .io16 0x12#5 0
  | .miotRdDdrb => .io16 0x13#5 0
  | .miotWrPa d => .io16 0x00#5 d
  | .miotWrDdra d => .io16 0x01#5 d
  | .miotWrPb d => .io16 0x02#5 d
  | .miotWrDdrb d => .io16 0x03#5 d
  | .miotRdTimer => .io16 0x14#5 0
  | .miotRdIfr => .io16 0x15#5 0
  | .miotWrT1 d => .io16 0x04#5 d
  | .miotWrT8 d => .io16 0x05#5 d
  | .miotWrT64 d => .io16 0x06#5 d
  | .miotWrT1024 d => .io16 0x07#5 d
  | .miotWrT1I d => .io16 0x0c#5 d
  | .miotWrT8I d => .io16 0x0d#5 d
  | .miotWrT64I d => .io16 0x0e#5 d
  | .miotWrT1024I d => .io16 0x0f#5 d
  | .miotRdRam off => .ram64 (accessWord true off) 0
  | .miotWrRam off d => .ram64 (accessWord false off) d
  | .miotRdRom off => .rom off.width (accessWord true off.bits) 0
  | .miotWrRom off d => .rom off.width (accessWord false off.bits) d

/-- The access word of a transaction as a number. -/
def transactionWord : Transaction → Nat
  | .io32 w _ => w.toNat
  | .io16 w _ => w.toNat
  | .ram128 w _ => w.toNat
  | .ram64 w _ => w.toNat
  | .rom _ w _ => w.toNat

/-- The data lane of a transaction. -/
def transactionData : Transaction → Byte
  | .io32 _ d => d
  | .io16 _ d => d
  | .ram128 _ d => d
  | .ram64 _ d => d
  | .rom _ _ d => d

/-- R61: whether a transaction is a read. -/
def transactionIsRead : Transaction → Bool
  | .io32 w _ => w.msb
  | .io16 w _ => w.msb
  | .ram128 w _ => w.msb
  | .ram64 w _ => w.msb
  | .rom _ w _ => w.msb

/-- The listing of a transaction (R74): its access word and, for a write, its data byte. -/
def transactionBytes (t : Transaction) : List Byte :=
  let bytes := wordBytes (formatBytes t.format) (transactionWord t)
  if transactionIsRead t then bytes else bytes ++ [transactionData t]

/-- The listing of an operation. -/
def encodeBytes (i : Instr) : List Byte := transactionBytes (encode i)

/-- The format meant by a word of the opcode table given as `nbits` bits, where the number alone says which table row's word it
is (log 18). A width in bits names its format; in whole bytes, 16 bits are ROM1K, and an 8-bit number is read as the format in
which it is a row's own match word, RIOT first. -/
def tableFormat (nbits w : Nat) : Option Format :=
  match nbits with
  | 5 => some .io16
  | 6 => some .io32
  | 7 => some .ram64
  | 11 => some (.rom 10)
  | 16 => some (.rom 10)
  | 8 =>
    if 0x80 ≤ w then some .ram128
    else if 0x40 ≤ w then some .ram64
    else if 0x08 ≤ w ∧ w < 0x14 then some .io16
    else some .io32
  | _ => none

/-- The bytes of a table word, low byte first, with zeros after it up to the longest listing of the table (three bytes). -/
def tableBytes (w : Nat) : List Byte := wordBytes 3 w

/-- The transaction meant by a table word. -/
def tableTransaction (nbits w : Nat) : Option Transaction :=
  match tableFormat nbits w with
  | none => none
  | some f =>
    match takeTransaction f (tableBytes w) with
    | .ok (t, _) => some t
    | .error _ => none

/-- The operation this decoder reads from a table word. -/
def decodeTableWord (nbits w : Nat) : Option Instr :=
  match tableTransaction nbits w with
  | none => none
  | some t =>
    match decode t with
    | .ok i => some i
    | .error _ => none

end Sys2Proof
end

