-- ==== Sys2Proof/Machine/State.lean ====
section
/-! DEFINITION. The state of one chip (10_state.md), the host's events, the reasons a step can stop, and the state after reset.
Plain data throughout. -/

namespace Sys2Proof.Machine

/-- R23: the two ports. -/
inductive PortName where
  | a
  | b
deriving DecidableEq, Repr

/-- R23: one PortUnit. Bit i of each field belongs to pin i. -/
structure Port where
  /-- `st.P.latch`: the output latch. -/
  latch : Byte
  /-- `st.P.ddr`: the data-direction register, 1 = output. -/
  ddr : Byte
  /-- `st.P.in`: the last observed external level per pin. -/
  input : Byte
deriving DecidableEq, Repr

/-- R36: what the environment presents on a port's pins: a pin with its `driven` bit 0 is driven by nothing and has the level
UNDRIVEN_LEVEL, a driven pin has its `level` bit. Not chip state (log 5). -/
structure Pins where
  driven : Byte
  level : Byte
deriving DecidableEq, Repr

/-- R25: `st.T.state`. -/
inductive TimerState where
  | idle
  | counting
  | spinning
deriving DecidableEq, Repr

/-- R16: `st.T.shift`, by its divisor: 1, 8, 64 or 1024. -/
inductive Prescale where
  | div1
  | div8
  | div64
  | div1024
deriving DecidableEq, Repr

/-- R25: the TimerUnit. -/
structure Timer where
  /-- `st.T.state`. -/
  state : TimerState
  /-- `st.T.value`: the count written by the last load. -/
  value : Byte
  /-- `st.T.shift`: the prescale of the last load. -/
  prescale : Prescale
  /-- `st.T.t_load`: `now` at the last load. -/
  tLoad : Nat
  /-- `st.T.ie`: the timer interrupt enable. -/
  ie : Bool
  /-- `st.T.flag`: the timer interrupt flag. -/
  flag : Bool
deriving DecidableEq, Repr

/-- R28: `st.E.pol`. -/
inductive Polarity where
  | falling
  | rising
deriving DecidableEq, Repr

/-- R28: the EdgeDetector. -/
structure EdgeDetector where
  /-- `st.E.pol`: the watched transition direction. -/
  pol : Polarity
  /-- `st.E.ie`: the edge interrupt enable. -/
  ie : Bool
  /-- `st.E.flag`: the edge flag. -/
  flag : Bool
  /-- `st.E.last`: the last observed level of Port A bit 7. -/
  last : Bool
deriving DecidableEq, Repr

/-- R7, R30: the variant, with the edge detector that only the RIOT has. -/
inductive Chip where
  | miot
  | riot (edge : EdgeDetector)
deriving DecidableEq, Repr

/-- A memory as a list of (offset, byte) pairs, offsets strictly rising (`Memory.wf`). An unlisted offset has no byte of its own
in the list: nothing has stored to it (log 10). -/
abbrev Memory := List Host.Cell

/-- Construction-time parameters, fixed while the chip exists. -/
structure Params where
  /-- R13: UNDRIVEN_LEVEL. -/
  undrivenLevel : Bool
  /-- R17: PB7_IRQ_MODE. -/
  pb7IrqMode : Pb7IrqMode
  /-- R10: ROM_SIZE, in bytes. Read on MIOT only (log 11). -/
  romSize : Nat
  /-- R10, R31: ROM_CONTENTS, as far as it has been supplied. Read on MIOT only (log 11). -/
  rom : Memory
deriving DecidableEq, Repr

/-- R37: the chip's whole state as the host reads and restores it: the fields of R23, R25, R28, R29 and R31. `edge` is the
record of R28, present on RIOT only (R30). -/
structure Snapshot where
  pa : Port
  pb : Port
  timer : Timer
  edge : Option EdgeDetector
  now : Nat
  ram : Memory
deriving DecidableEq, Repr

/-- R19: the events the host delivers. -/
inductive Event where
  /-- A bus read or bus write (R61). -/
  | bus (t : Transaction)
  /-- R108: one clock tick passes. -/
  | tick
  /-- R88: the environment changes pin `i` of port `p` to `level`, and the host reports it. -/
  | setInput (p : PortName) (i : Fin 8) (level : Bool)
  /-- R89: the environment changes all eight pins of port `p`, and the host reports it. -/
  | setInputByte (p : PortName) (v : Byte)
  /-- R161: the chip's reset input is applied. -/
  | reset
  /-- R37, R176: the host restores a snapshot. -/
  | restore (snap : Snapshot)
  /-- R36: the environment presents other levels on port `p`, without reporting it: no chip state changes (log 5). -/
  | envChange (p : PortName) (pins : Pins)
deriving DecidableEq, Repr

/-- The state a step reads and writes. -/
structure State where
  /-- Construction-time parameters. -/
  params : Params
  /-- R7, R28: the variant and, on RIOT, the edge detector. -/
  chip : Chip
  /-- R23: Port A. -/
  pa : Port
  /-- R23: Port B. -/
  pb : Port
  /-- R36: the environment's levels on Port A's pins. -/
  envA : Pins
  /-- R36: the environment's levels on Port B's pins. -/
  envB : Pins
  /-- R25: the timer. -/
  timer : Timer
  /-- R31: the RAM. -/
  ram : Memory
  /-- R29: the host's tick reference. -/
  now : Nat
  /-- R61, R176: the byte the last event gave back, if it was a bus read. The model's own field (log 4). -/
  dataOut : Option Byte
  /-- R19, R52: the events the host has still to deliver, the next one first. The model's own field (log 2). -/
  schedule : List Event
deriving DecidableEq, Repr

/-- Why the machine stops with a fault. The block itself raises none (R141). -/
inductive Fault where
  /-- Raised by the meaning of an operation of the other variant's table: the host cannot address it on this chip (R137, R49).
  Safe: the model stops where the hardware has no such access (log 15). -/
  | notOnThisVariant
  /-- Raised by the meaning of a ROM operation whose offset is not one of the chip's ROM window: it has another width than the
  chip's ROM_SIZE gives, or lies at or above ROM_SIZE. Such an offset cannot reach the block (R49, R62). Safe: the model stops
  where the hardware has no such access (log 26). -/
  | outsideRomWindow
deriving DecidableEq, Repr

/-- Why an event has no meaning. -/
inductive Refusal where
  /-- Raised by `exec` for an operation that has no meaning yet. Safe. -/
  | notModelled (mnemonic : String)
  /-- Raised by `deliver` for a transaction the decoder rejects. R68 says there is none. Safe. -/
  | undecoded
  /-- Raised by `execRestore` for a snapshot no run could reach: the host must not restore one (R176). Safe (log 16). -/
  | unreachableSnapshot
deriving DecidableEq, Repr

/-- R7: the variant of a chip. -/
def Chip.variant : Chip → Variant
  | .miot => .miot
  | .riot _ => .riot

/-- R7: the chip's variant. -/
def State.variant (s : State) : Variant := s.chip.variant

/-- `s` with another variant record. -/
def State.setChip (s : State) (c : Chip) : State := { s with chip := c }

/-- `s` with another ROM_SIZE: another chip, since no event changes it. -/
def State.setRomSize (s : State) (n : Nat) : State := { s with params := { s.params with romSize := n } }

/-- `s` with Port A's fields replaced. -/
def State.setPa (s : State) (p : Port) : State := { s with pa := p }

/-- `s` with Port B's fields replaced. -/
def State.setPb (s : State) (p : Port) : State := { s with pb := p }

/-- `s` with the environment of Port A replaced. -/
def State.setEnvA (s : State) (e : Pins) : State := { s with envA := e }

/-- `s` with the environment of Port B replaced. -/
def State.setEnvB (s : State) (e : Pins) : State := { s with envB := e }

/-- `s` with the timer's fields replaced. -/
def State.setTimer (s : State) (t : Timer) : State := { s with timer := t }

/-- `s` with the RAM replaced. -/
def State.setRam (s : State) (m : Memory) : State := { s with ram := m }

/-- `s` at another tick. -/
def State.setNow (s : State) (n : Nat) : State := { s with now := n }

/-- `s` with another byte given back to the host. -/
def State.setDataOut (s : State) (b : Option Byte) : State := { s with dataOut := b }

/-- `s` with another schedule. -/
def State.setSchedule (s : State) (es : List Event) : State := { s with schedule := es }

/-- R38: a port after reset: all inputs, latch 0x00. RESET does not change the input levels; 0xFF is the level of undriven pins
(R13, 95_test_vectors.md), the value the model names (log 6). -/
def Port.afterReset : Port := { latch := 0x00, ddr := 0x00, input := 0xFF }

/-- R38: the timer after reset. `value`, `prescale` and `tLoad` are unspecified and unread in IDLE (log 7). -/
def Timer.afterReset : Timer :=
  { state := .idle, value := 0x00, prescale := .div1, tLoad := 0, ie := false, flag := false }

/-- R38: the edge detector after reset, with PA7 an input at level 1 (`Port.afterReset`). -/
def EdgeDetector.afterReset : EdgeDetector := { pol := .falling, ie := false, flag := false, last := true }

/-- R30: the variant record after reset. -/
def Chip.afterReset : Variant → Chip
  | .miot => .miot
  | .riot => .riot EdgeDetector.afterReset

/-- R38: a chip of the given variant right after its first RESET, with the spec's default parameters, nothing driving its pins
and no event scheduled. -/
def State.resetOf (v : Variant) : State :=
  { params := { undrivenLevel := true, pb7IrqMode := .none, romSize := Config.defaultRomSize, rom := [] }
    chip := Chip.afterReset v
    pa := Port.afterReset
    pb := Port.afterReset
    envA := { driven := 0x00, level := 0x00 }
    envB := { driven := 0x00, level := 0x00 }
    timer := Timer.afterReset
    ram := []
    now := 0
    dataOut := none
    schedule := [] }

/-- The machine right after reset: a RIOT (log 1). -/
def State.reset : State := State.resetOf .riot

end Sys2Proof.Machine
end

