-- ==== Sys2Proof/Machine/Operands.lean ====
section
/-! DEFINITION. Operand assembly (30_encoding.md R67), bit access, the prescale table, and the levels the environment presents. -/

namespace Sys2Proof.Machine

/-- R16, R95: the prescale a 2-bit selector names. -/
def prescaleOf (sel : BitVec 2) : Prescale :=
  if sel = 0b00#2 then .div1
  else if sel = 0b01#2 then .div8
  else if sel = 0b10#2 then .div64
  else .div1024

/-- R16: `prescale_shift`. -/
def prescaleShift : Prescale → Nat
  | .div1 => 0
  | .div8 => 3
  | .div64 => 6
  | .div1024 => 10

/-- R25: the divisor, `2^shift`. -/
def divisor (p : Prescale) : Nat := 2 ^ prescaleShift p

/-- Bit `i` of a byte (R18). -/
def bitOf (v : Byte) (i : Fin 8) : Bool := v.getLsbD i.val

/-- A byte with bit `i` replaced. -/
def withBit (v : Byte) (i : Fin 8) (b : Bool) : Byte :=
  if b then v ||| (1#8 <<< i.val) else v &&& ~~~(1#8 <<< i.val)

/-- R18: the per-bit choice `mask[i] ? one[i] : zero[i]`. -/
def pick (mask one zero : Byte) : Byte := (one &&& mask) ||| (zero &&& ~~~mask)

/-- R35: FILL, 0xFF or 0x00 by UNDRIVEN_LEVEL. -/
def fill (level : Bool) : Byte := if level then 0xFF else 0x00

/-- R36: `Env.level(P, ·)` as a byte. -/
def pinLevels (undriven : Bool) (pins : Pins) : Byte := pick pins.driven pins.level (fill undriven)

/-- The fields of a port by name. -/
def portOf (p : PortName) (s : State) : Port :=
  match p with
  | .a => s.pa
  | .b => s.pb

/-- The state with a port's fields replaced. -/
def setPortOf (p : PortName) (v : Port) (s : State) : State :=
  match p with
  | .a => s.setPa v
  | .b => s.setPb v

/-- The environment of a port by name. -/
def envOf (p : PortName) (s : State) : Pins :=
  match p with
  | .a => s.envA
  | .b => s.envB

/-- The state with a port's environment replaced. -/
def setEnvOf (p : PortName) (v : Pins) (s : State) : State :=
  match p with
  | .a => s.setEnvA v
  | .b => s.setEnvB v

/-- R36: the levels the environment presents on a port at this moment. -/
def envLevels (p : PortName) (s : State) : Byte := pinLevels s.params.undrivenLevel (envOf p s)

end Sys2Proof.Machine
end

