-- ==== Sys2Proof/Machine/Flags.lean ====
section
/-! DEFINITION. The interrupt flags, the byte an IFR read gives, and the interrupt output (42_edge_and_flags.md,
60_exceptions.md). -/

namespace Sys2Proof.Machine

/-- R32, R30: the edge flag, 0 on MIOT. -/
def edgeFlag : Chip → Bool
  | .miot => false
  | .riot e => e.flag

/-- R144: the edge detector's contribution to the interrupt output, 0 on MIOT. -/
def edgeRequest : Chip → Bool
  | .miot => false
  | .riot e => e.flag && e.ie

/-- R144: the timer's contribution to the interrupt output. -/
def timerRequest (t : Timer) : Bool := t.flag && t.ie

/-- R128: the byte an IFR read returns: bit 7 TIMER, bit 6 EDGE, the rest 0. -/
def ifrValue (s : State) : Byte :=
  (if s.timer.flag then 0x80#8 else 0x00#8) ||| (if edgeFlag s.chip then 0x40#8 else 0x00#8)

/-- R144: the interrupt output, 1 = asserted. -/
def irq (s : State) : Bool := timerRequest s.timer || edgeRequest s.chip

end Sys2Proof.Machine
end

