-- ==== Sys2Proof/Machine/Ops.lean ====
section
/-! DEFINITION. The named operations the meanings are built from: memory cells, the procedures of the port, timer and edge
rules, reset, snapshot and restore. The block takes no exception (R141), so there is no exception entry here; what it has in
its place is `expire`, which latches the timer's interrupt flag, and `irq` in Flags.lean, the line a host CPU sees (R150). -/

namespace Sys2Proof.Machine

/-! ## Memory cells -/

/-- The byte stored at an offset, or none where nothing has stored. -/
def Memory.read : Memory → Nat → Option Byte
  | [], _ => none
  | (a, b) :: rest, k => if k = a then some b else Memory.read rest k

/-- Store a byte, keeping the offsets strictly rising. -/
def Memory.write : Memory → Nat → Byte → Memory
  | [], k, v => [(k, v)]
  | (a, b) :: rest, k, v =>
    if k < a then (k, v) :: (a, b) :: rest
    else if k = a then (k, v) :: rest
    else (a, b) :: Memory.write rest k v

/-- Whether every offset is above `lo` and the offsets rise strictly. -/
def Memory.rising : Nat → Memory → Bool
  | _, [] => true
  | lo, (a, _) :: rest => decide (lo ≤ a) && Memory.rising (a + 1) rest

/-- The canonical form: offsets strictly rising. -/
def Memory.wf (m : Memory) : Bool := Memory.rising 0 m

/-- Whether every listed offset is below a size. -/
def Memory.within (size : Nat) (m : Memory) : Bool := m.all (fun c => decide (c.1 < size))

/-- R133: `st.RAM[off]`. A byte nothing has stored to since power-on is RAM_INIT's (R15). -/
def ramByte (s : State) (off : Nat) : Byte := (Memory.read s.ram off).getD (Config.ramInit off)

/-- R135: `ROM_CONTENTS[off]`, the supplied byte, or the open one where none was supplied. -/
def romByte (s : State) (off : Nat) : Byte := (Memory.read s.params.rom off).getD (Config.romContents off)

/-! ## The bus -/

/-- A bus read gives one byte back. -/
def answer (b : Byte) (s : State) : State := s.setDataOut (some b)

/-- A bus write, and every other event, gives nothing back. -/
def silent (s : State) : State := s.setDataOut none

/-- R137: an operation of one variant's table, on a chip of that variant. -/
def onVariant (v : Variant) (f : State → State) (s : State) : Host.Outcome State Fault Refusal :=
  if s.variant = v then .next (f s) else .fault .notOnThisVariant

/-- R48, R49, R137: a ROM operation, on a MIOT whose ROM window has the offset. -/
def onRomWindow (off : RomOffset) (f : State → State) (s : State) : Host.Outcome State Fault Refusal :=
  if s.variant = .riot then .fault .notOnThisVariant
  else if romWindowHas s.params.romSize off then .next (f s)
  else .fault .outsideRomWindow

/-! ## Edge detector (42_edge_and_flags.md) -/

/-- A change of the edge detector's record, on a chip that has one (R30). -/
def mapChip (f : EdgeDetector → EdgeDetector) : Chip → Chip
  | .miot => .miot
  | .riot e => .riot (f e)

/-- A change of the edge detector. Nothing on MIOT. -/
def mapEdge (f : EdgeDetector → EdgeDetector) (s : State) : State := s.setChip (mapChip f s.chip)

/-- R119: the resolved level of Port A bit 7. -/
def pa7Level (s : State) : Bool :=
  if bitOf s.pa.ddr 7 then bitOf s.pa.latch 7 else bitOf s.pa.input 7

/-- R120: whether a change to `level` is one the polarity watches. -/
def watches (pol : Polarity) (level : Bool) : Bool :=
  match pol with
  | .rising => level
  | .falling => !level

/-- R120: the edge comparison of a new level. -/
def compareEdge (level : Bool) (e : EdgeDetector) : EdgeDetector :=
  { e with
    flag := if level ≠ e.last ∧ watches e.pol level = true then true else e.flag
    last := level }

/-- R120: `Observe()`. Nothing on MIOT. -/
def observe (s : State) : State := mapEdge (compareEdge (pa7Level s)) s

/-- R122: `Configure(pol, ie)`. -/
def configureEdge (pol : Polarity) (ie : Bool) (s : State) : State :=
  mapEdge (fun e => { e with pol := pol, ie := ie }) s

/-! ## Ports (40_ports.md) -/

/-- R79: `Resolved(P)`. -/
def resolved (p : Port) : Byte := pick p.ddr p.latch p.input

/-- R79: `Sample(P)` on the port's fields: input-configured pins take the environment's levels. -/
def samplePort (levels : Byte) (p : Port) : Port := { p with input := pick p.ddr p.input levels }

/-- R79: `Sample(P)`. -/
def sample (p : PortName) (s : State) : State :=
  setPortOf p (samplePort (envLevels p s) (portOf p s)) s

/-- A write of the output latch. -/
def setLatch (p : PortName) (d : Byte) (s : State) : State :=
  setPortOf p { portOf p s with latch := d } s

/-- A write of the data-direction register. -/
def setDdr (p : PortName) (d : Byte) (s : State) : State :=
  setPortOf p { portOf p s with ddr := d } s

/-- R92: the byte a Port B read gives: the resolved byte, but for bit 7 of a MIOT whose PB7_IRQ_MODE is not NONE. -/
def portBByte (s : State) : Byte :=
  match s.chip, s.params.pb7IrqMode with
  | .miot, .governed rule =>
    withBit (resolved s.pb) 7 (Config.pb7Read rule s.pb.latch s.pb.ddr s.pb.input s.timer.ie s.timer.flag)
  | _, _ => resolved s.pb

/-- R80: a Port A read. -/
def readPortA (s : State) : State :=
  let s := sample .a s
  observe (answer (resolved s.pa) s)

/-- R84: a Port B read. -/
def readPortB (s : State) : State :=
  let s := sample .b s
  answer (portBByte s) s

/-- R81: a Port A latch write. -/
def writePortA (d : Byte) (s : State) : State := observe (silent (setLatch .a d s))

/-- R83: a Port A direction write. -/
def writeDdrA (d : Byte) (s : State) : State := observe (silent (setDdr .a d s))

/-- R85: a Port B latch write. -/
def writePortB (d : Byte) (s : State) : State := silent (setLatch .b d s)

/-- R86: a Port B direction write. -/
def writeDdrB (d : Byte) (s : State) : State := silent (setDdr .b d s)

/-- R82, R87: a direction read. -/
def readDdr (p : PortName) (s : State) : State := answer (portOf p s).ddr s

/-! ## Timer (41_timer.md) -/

/-- R27: `span`, the ticks from the load to the zero crossing. -/
def timerSpan (t : Timer) : Nat := t.value.toNat <<< prescaleShift t.prescale

/-- R27: `t_exp`, the tick of the zero crossing. -/
def timerExpiry (t : Timer) : Nat := t.tLoad + timerSpan t

/-- R27: `elapsed`, the ticks since the load. -/
def timerElapsed (s : State) : Nat := s.now - s.timer.tLoad

/-- R105: `TimerValue(st)`. While COUNTING the difference is cut off at 0 as the source's `max(0, value - elapsed)` is; within
R105's range it never is (log 21). -/
def timerValue (s : State) : Byte :=
  match s.timer.state with
  | .idle => Config.timerIdleValue
  | .counting => BitVec.ofNat 8 (s.timer.value.toNat - timerElapsed s >>> prescaleShift s.timer.prescale)
  | .spinning => BitVec.ofInt 8 ((timerSpan s.timer : Int) - (timerElapsed s : Int))

/-- R109: `Expire()`. -/
def expire (t : Timer) : Timer :=
  { t with state := .spinning, flag := if t.ie then true else t.flag }

/-- R96: the timer's fields after a load, before the count-0 case. -/
def loadedTimer (sel : BitVec 2) (ie : Bool) (d : Byte) (now : Nat) : Timer :=
  { state := .counting, value := d, prescale := prescaleOf sel, tLoad := now, ie := ie, flag := false }

/-- R96: `Load(sel, ie, d)`. A count of 0 expires at the load itself (R107). -/
def loadTimer (sel : BitVec 2) (ie : Bool) (d : Byte) (s : State) : State :=
  let t := loadedTimer sel ie d s.now
  silent (s.setTimer (if d = 0 then expire t else t))

/-- R106: a timer read. -/
def readTimer (s : State) : State := answer (timerValue s) s

/-- R108: the timer at the tick `now`. -/
def tickTimer (now : Nat) (t : Timer) : Timer :=
  if t.state = .counting ∧ now = timerExpiry t then expire t else t

/-- R108: `TICK`. -/
def tick (s : State) : State :=
  silent ((s.setNow (s.now + 1)).setTimer (tickTimer (s.now + 1) s.timer))

/-! ## Interrupt-flag register -/

/-- R127: an IFR read: the byte of R128, then both flags are cleared. -/
def readIfr (s : State) : State :=
  let s' := answer (ifrValue s) s
  mapEdge (fun e => { e with flag := false }) (s'.setTimer { s'.timer with flag := false })

/-! ## RAM and ROM -/

/-- R133: a RAM read. -/
def readRam (off : Nat) (s : State) : State := answer (ramByte s off) s

/-- R134: a RAM write. -/
def writeRam (off : Nat) (d : Byte) (s : State) : State := silent (s.setRam (Memory.write s.ram off d))

/-- R135: a ROM read. -/
def readRom (off : Nat) (s : State) : State := answer (romByte s off) s

/-- R136: a ROM write: no effect. -/
def writeRom (s : State) : State := silent s

/-! ## Input events, reset, snapshot -/

/-- R36: the environment's pins after pin `i` is driven to a level. -/
def drivePin (i : Fin 8) (level : Bool) (pins : Pins) : Pins :=
  { driven := withBit pins.driven i true, level := withBit pins.level i level }

/-- R88: `SET_INPUT(P, i, level)`. -/
def setInput (p : PortName) (i : Fin 8) (level : Bool) (s : State) : State :=
  let s := silent (setEnvOf p (drivePin i level (envOf p s)) s)
  let s := setPortOf p { portOf p s with input := withBit (portOf p s).input i level } s
  if p = .a ∧ i = 7 then observe s else s

/-- R89: `SET_INPUT_BYTE(P, v)`. -/
def setInputByte (p : PortName) (v : Byte) (s : State) : State :=
  let s := silent (setEnvOf p { driven := 0xFF, level := v } s)
  let s := setPortOf p { portOf p s with input := v } s
  if p = .a then observe s else s

/-- R161: a port at RESET. -/
def resetPort (p : Port) : Port := { p with latch := 0x00, ddr := 0x00 }

/-- R161: the timer at RESET. -/
def resetTimer (t : Timer) : Timer := { t with state := .idle, ie := false, flag := false }

/-- R161, R163: the edge detector at RESET, with the resolved PA7 level after it. -/
def resetEdge (level : Bool) (_ : EdgeDetector) : EdgeDetector :=
  { pol := .falling, ie := false, flag := false, last := level }

/-- R161: `RESET`. -/
def resetChip (s : State) : State :=
  let s := silent (((s.setPa (resetPort s.pa)).setPb (resetPort s.pb)).setTimer (resetTimer s.timer))
  mapEdge (resetEdge (pa7Level s)) s

/-- R28: the edge detector's record, on a chip that has one. -/
def edgeRecord : Chip → Option EdgeDetector
  | .miot => none
  | .riot e => some e

/-- R37: the chip's whole state as the host reads it. -/
def snapshot (s : State) : Snapshot :=
  { pa := s.pa, pb := s.pb, timer := s.timer, edge := edgeRecord s.chip, now := s.now, ram := s.ram }

/-- The variant record a snapshot's edge record belongs to. -/
def chipOf : Option EdgeDetector → Chip
  | none => .miot
  | some e => .riot e

/-- R37: a restore replaces every field of R23, R25, R28, R29 and R31. -/
def restoreFields (snap : Snapshot) (s : State) : State :=
  silent ((((((s.setPa snap.pa).setPb snap.pb).setTimer snap.timer).setChip (chipOf snap.edge)).setNow snap.now).setRam snap.ram)

/-- R25, R105, R108: what holds of the timer in every state a run reaches: IDLE has nothing pending, COUNTING is before the
crossing with no flag, SPINNING is at or after it with a flag only if enabled. -/
def timerReachable (t : Timer) (now : Nat) : Bool :=
  match t.state with
  | .idle => !t.ie && !t.flag
  | .counting => decide (t.tLoad ≤ now) && decide (now < timerExpiry t) && !t.flag
  | .spinning => decide (timerExpiry t ≤ now) && (!t.flag || t.ie)

/-- R120, R121: what holds of the edge detector in every state a run reaches: it has observed the resolved PA7 level. -/
def edgeReachable (s : State) : Bool :=
  match s.chip with
  | .miot => true
  | .riot e => e.last == pa7Level s

/-- The RAM is in canonical form and inside its window. -/
def ramReachable (s : State) : Bool := Memory.wf s.ram && Memory.within (Config.ramSize s.variant) s.ram

/-- What holds of every state a run reaches. -/
def reachableShape (s : State) : Bool :=
  timerReachable s.timer s.now && edgeReachable s && ramReachable s

/-- R176: whether the host may restore a snapshot: it is of this variant, and of the shape every reached state has. -/
def mayRestore (snap : Snapshot) (s : State) : Bool :=
  decide ((chipOf snap.edge).variant = s.variant) && reachableShape (restoreFields snap s)

end Sys2Proof.Machine
end

