-- ==== Sys2Proof/Machine/Edge.lean ====
section
/-! DEFINITION. The meanings of the edge-control writes and the interrupt-flag read (42_edge_and_flags.md R123-R127), one definition per row of the opcode table. -/

namespace Sys2Proof.Machine

/-- RIOT.RD_IFR (R127). -/
def execRiotRdIfr (s : State) : Host.Outcome State Fault Refusal :=
  onVariant .riot readIfr s

/-- RIOT.WR_EDGE_NEG (R123). -/
def execRiotWrEdgeNeg (s : State) : Host.Outcome State Fault Refusal :=
  onVariant .riot (fun s => silent (configureEdge .falling false s)) s

/-- RIOT.WR_EDGE_POS (R124). -/
def execRiotWrEdgePos (s : State) : Host.Outcome State Fault Refusal :=
  onVariant .riot (fun s => silent (configureEdge .rising false s)) s

/-- RIOT.WR_EDGE_NEG_IE (R125). -/
def execRiotWrEdgeNegIe (s : State) : Host.Outcome State Fault Refusal :=
  onVariant .riot (fun s => silent (configureEdge .falling true s)) s

/-- RIOT.WR_EDGE_POS_IE (R126). -/
def execRiotWrEdgePosIe (s : State) : Host.Outcome State Fault Refusal :=
  onVariant .riot (fun s => silent (configureEdge .rising true s)) s

/-- MIOT.RD_IFR (R127). -/
def execMiotRdIfr (s : State) : Host.Outcome State Fault Refusal :=
  onVariant .miot readIfr s

end Sys2Proof.Machine
end

