-- ==== Sys2Proof/Machine/Ports.lean ====
section
/-! DEFINITION. The meanings of the port operations (40_ports.md R80-R87), one definition per row of the opcode table. -/

namespace Sys2Proof.Machine

/-- RIOT.RD_PA (R80). -/
def execRiotRdPa (s : State) : Host.Outcome State Fault Refusal :=
  onVariant .riot readPortA s

/-- RIOT.RD_DDRA (R82). -/
def execRiotRdDdra (s : State) : Host.Outcome State Fault Refusal :=
  onVariant .riot (readDdr .a) s

/-- RIOT.RD_PB (R84). -/
def execRiotRdPb (s : State) : Host.Outcome State Fault Refusal :=
  onVariant .riot readPortB s

/-- RIOT.RD_DDRB (R87). -/
def execRiotRdDdrb (s : State) : Host.Outcome State Fault Refusal :=
  onVariant .riot (readDdr .b) s

/-- RIOT.WR_PA (R81). -/
def execRiotWrPa (d : Byte) (s : State) : Host.Outcome State Fault Refusal :=
  onVariant .riot (writePortA d) s

/-- RIOT.WR_DDRA (R83). -/
def execRiotWrDdra (d : Byte) (s : State) : Host.Outcome State Fault Refusal :=
  onVariant .riot (writeDdrA d) s

/-- RIOT.WR_PB (R85). -/
def execRiotWrPb (d : Byte) (s : State) : Host.Outcome State Fault Refusal :=
  onVariant .riot (writePortB d) s

/-- RIOT.WR_DDRB (R86). -/
def execRiotWrDdrb (d : Byte) (s : State) : Host.Outcome State Fault Refusal :=
  onVariant .riot (writeDdrB d) s

/-- MIOT.RD_PA (R80). -/
def execMiotRdPa (s : State) : Host.Outcome State Fault Refusal :=
  onVariant .miot readPortA s

/-- MIOT.RD_DDRA (R82). -/
def execMiotRdDdra (s : State) : Host.Outcome State Fault Refusal :=
  onVariant .miot (readDdr .a) s

/-- MIOT.RD_PB (R84). -/
def execMiotRdPb (s : State) : Host.Outcome State Fault Refusal :=
  onVariant .miot readPortB s

/-- MIOT.RD_DDRB (R87). -/
def execMiotRdDdrb (s : State) : Host.Outcome State Fault Refusal :=
  onVariant .miot (readDdr .b) s

/-- MIOT.WR_PA (R81). -/
def execMiotWrPa (d : Byte) (s : State) : Host.Outcome State Fault Refusal :=
  onVariant .miot (writePortA d) s

/-- MIOT.WR_DDRA (R83). -/
def execMiotWrDdra (d : Byte) (s : State) : Host.Outcome State Fault Refusal :=
  onVariant .miot (writeDdrA d) s

/-- MIOT.WR_PB (R85). -/
def execMiotWrPb (d : Byte) (s : State) : Host.Outcome State Fault Refusal :=
  onVariant .miot (writePortB d) s

/-- MIOT.WR_DDRB (R86). -/
def execMiotWrDdrb (d : Byte) (s : State) : Host.Outcome State Fault Refusal :=
  onVariant .miot (writeDdrB d) s

end Sys2Proof.Machine
end

