-- ==== Sys2Proof/Machine/RamRom.lean ====
section
/-! DEFINITION. The meanings of the RAM and ROM operations (43_ram_rom.md R133-R136), one definition per row of the opcode table. -/

namespace Sys2Proof.Machine

/-- RIOT.RD_RAM (R133). -/
def execRiotRdRam (off : BitVec 7) (s : State) : Host.Outcome State Fault Refusal :=
  onVariant .riot (readRam off.toNat) s

/-- RIOT.WR_RAM (R134). -/
def execRiotWrRam (off : BitVec 7) (d : Byte) (s : State) : Host.Outcome State Fault Refusal :=
  onVariant .riot (writeRam off.toNat d) s

/-- MIOT.RD_RAM (R133). -/
def execMiotRdRam (off : BitVec 6) (s : State) : Host.Outcome State Fault Refusal :=
  onVariant .miot (readRam off.toNat) s

/-- MIOT.WR_RAM (R134). -/
def execMiotWrRam (off : BitVec 6) (d : Byte) (s : State) : Host.Outcome State Fault Refusal :=
  onVariant .miot (writeRam off.toNat d) s

/-- MIOT.RD_ROM (R135). -/
def execMiotRdRom (off : RomOffset) (s : State) : Host.Outcome State Fault Refusal :=
  onRomWindow off (readRom off.bits.toNat) s

/-- MIOT.WR_ROM (R136). -/
def execMiotWrRom (off : RomOffset) (_d : Byte) (s : State) : Host.Outcome State Fault Refusal :=
  onRomWindow off writeRom s

end Sys2Proof.Machine
end

