-- ==== Sys2Proof/Machine/Timer.lean ====
section
/-! DEFINITION. The meanings of the timer operations (41_timer.md R97-R106), one definition per row of the opcode table. -/

namespace Sys2Proof.Machine

/-- RIOT.RD_TIMER (R106). -/
def execRiotRdTimer (s : State) : Host.Outcome State Fault Refusal :=
  onVariant .riot readTimer s

/-- RIOT.WR_T1 (R97). -/
def execRiotWrT1 (d : Byte) (s : State) : Host.Outcome State Fault Refusal :=
  onVariant .riot (loadTimer 0b00#2 false d) s

/-- RIOT.WR_T8 (R98). -/
def execRiotWrT8 (d : Byte) (s : State) : Host.Outcome State Fault Refusal :=
  onVariant .riot (loadTimer 0b01#2 false d) s

/-- RIOT.WR_T64 (R99). -/
def execRiotWrT64 (d : Byte) (s : State) : Host.Outcome State Fault Refusal :=
  onVariant .riot (loadTimer 0b10#2 false d) s

/-- RIOT.WR_T1024 (R100). -/
def execRiotWrT1024 (d : Byte) (s : State) : Host.Outcome State Fault Refusal :=
  onVariant .riot (loadTimer 0b11#2 false d) s

/-- RIOT.WR_T1I (R101). -/
def execRiotWrT1I (d : Byte) (s : State) : Host.Outcome State Fault Refusal :=
  onVariant .riot (loadTimer 0b00#2 true d) s

/-- RIOT.WR_T8I (R102). -/
def execRiotWrT8I (d : Byte) (s : State) : Host.Outcome State Fault Refusal :=
  onVariant .riot (loadTimer 0b01#2 true d) s

/-- RIOT.WR_T64I (R103). -/
def execRiotWrT64I (d : Byte) (s : State) : Host.Outcome State Fault Refusal :=
  onVariant .riot (loadTimer 0b10#2 true d) s

/-- RIOT.WR_T1024I (R104). -/
def execRiotWrT1024I (d : Byte) (s : State) : Host.Outcome State Fault Refusal :=
  onVariant .riot (loadTimer 0b11#2 true d) s

/-- MIOT.RD_TIMER (R106). -/
def execMiotRdTimer (s : State) : Host.Outcome State Fault Refusal :=
  onVariant .miot readTimer s

/-- MIOT.WR_T1 (R97). -/
def execMiotWrT1 (d : Byte) (s : State) : Host.Outcome State Fault Refusal :=
  onVariant .miot (loadTimer 0b00#2 false d) s

/-- MIOT.WR_T8 (R98). -/
def execMiotWrT8 (d : Byte) (s : State) : Host.Outcome State Fault Refusal :=
  onVariant .miot (loadTimer 0b01#2 false d) s

/-- MIOT.WR_T64 (R99). -/
def execMiotWrT64 (d : Byte) (s : State) : Host.Outcome State Fault Refusal :=
  onVariant .miot (loadTimer 0b10#2 false d) s

/-- MIOT.WR_T1024 (R100). -/
def execMiotWrT1024 (d : Byte) (s : State) : Host.Outcome State Fault Refusal :=
  onVariant .miot (loadTimer 0b11#2 false d) s

/-- MIOT.WR_T1I (R101). -/
def execMiotWrT1I (d : Byte) (s : State) : Host.Outcome State Fault Refusal :=
  onVariant .miot (loadTimer 0b00#2 true d) s

/-- MIOT.WR_T8I (R102). -/
def execMiotWrT8I (d : Byte) (s : State) : Host.Outcome State Fault Refusal :=
  onVariant .miot (loadTimer 0b01#2 true d) s

/-- MIOT.WR_T64I (R103). -/
def execMiotWrT64I (d : Byte) (s : State) : Host.Outcome State Fault Refusal :=
  onVariant .miot (loadTimer 0b10#2 true d) s

/-- MIOT.WR_T1024I (R104). -/
def execMiotWrT1024I (d : Byte) (s : State) : Host.Outcome State Fault Refusal :=
  onVariant .miot (loadTimer 0b11#2 true d) s

end Sys2Proof.Machine
end

