-- ==== Sys2Proof/Machine/Dispatch.lean ====
section
/-! DEFINITION. The dispatch: one arm per row of spec/opcode_table.json, each one direct call of its meaning. -/

namespace Sys2Proof.Machine

def exec (i : Instr) (s : State) : Host.Outcome State Fault Refusal :=
  match i with
  | .riotRdPa => Sys2Proof.Machine.execRiotRdPa s
  | .riotRdDdra => Sys2Proof.Machine.execRiotRdDdra s
  | .riotRdPb => Sys2Proof.Machine.execRiotRdPb s
  | .riotRdDdrb => Sys2Proof.Machine.execRiotRdDdrb s
  | .riotWrPa d => Sys2Proof.Machine.execRiotWrPa d s
  | .riotWrDdra d => Sys2Proof.Machine.execRiotWrDdra d s
  | .riotWrPb d => Sys2Proof.Machine.execRiotWrPb d s
  | .riotWrDdrb d => Sys2Proof.Machine.execRiotWrDdrb d s
  | .riotRdTimer => Sys2Proof.Machine.execRiotRdTimer s
  | .riotRdIfr => Sys2Proof.Machine.execRiotRdIfr s
  | .riotWrT1 d => Sys2Proof.Machine.execRiotWrT1 d s
  | .riotWrT8 d => Sys2Proof.Machine.execRiotWrT8 d s
  | .riotWrT64 d => Sys2Proof.Machine.execRiotWrT64 d s
  | .riotWrT1024 d => Sys2Proof.Machine.execRiotWrT1024 d s
  | .riotWrT1I d => Sys2Proof.Machine.execRiotWrT1I d s
  | .riotWrT8I d => Sys2Proof.Machine.execRiotWrT8I d s
  | .riotWrT64I d => Sys2Proof.Machine.execRiotWrT64I d s
  | .riotWrT1024I d => Sys2Proof.Machine.execRiotWrT1024I d s
  | .riotWrEdgeNeg => Sys2Proof.Machine.execRiotWrEdgeNeg s
  | .riotWrEdgePos => Sys2Proof.Machine.execRiotWrEdgePos s
  | .riotWrEdgeNegIe => Sys2Proof.Machine.execRiotWrEdgeNegIe s
  | .riotWrEdgePosIe => Sys2Proof.Machine.execRiotWrEdgePosIe s
  | .riotRdRam off => Sys2Proof.Machine.execRiotRdRam off s
  | .riotWrRam off d => Sys2Proof.Machine.execRiotWrRam off d s
  | .miotRdPa => Sys2Proof.Machine.execMiotRdPa s
  | .miotRdDdra => Sys2Proof.Machine.execMiotRdDdra s
  | .miotRdPb => Sys2Proof.Machine.execMiotRdPb s
  | .miotRdDdrb => Sys2Proof.Machine.execMiotRdDdrb s
  | .miotWrPa d => Sys2Proof.Machine.execMiotWrPa d s
  | .miotWrDdra d => Sys2Proof.Machine.execMiotWrDdra d s
  | .miotWrPb d => Sys2Proof.Machine.execMiotWrPb d s
  | .miotWrDdrb d => Sys2Proof.Machine.execMiotWrDdrb d s
  | .miotRdTimer => Sys2Proof.Machine.execMiotRdTimer s
  | .miotRdIfr => Sys2Proof.Machine.execMiotRdIfr s
  | .miotWrT1 d => Sys2Proof.Machine.execMiotWrT1 d s
  | .miotWrT8 d => Sys2Proof.Machine.execMiotWrT8 d s
  | .miotWrT64 d => Sys2Proof.Machine.execMiotWrT64 d s
  | .miotWrT1024 d => Sys2Proof.Machine.execMiotWrT1024 d s
  | .miotWrT1I d => Sys2Proof.Machine.execMiotWrT1I d s
  | .miotWrT8I d => Sys2Proof.Machine.execMiotWrT8I d s
  | .miotWrT64I d => Sys2Proof.Machine.execMiotWrT64I d s
  | .miotWrT1024I d => Sys2Proof.Machine.execMiotWrT1024I d s
  | .miotRdRam off => Sys2Proof.Machine.execMiotRdRam off s
  | .miotWrRam off d => Sys2Proof.Machine.execMiotWrRam off d s
  | .miotRdRom off => Sys2Proof.Machine.execMiotRdRom off s
  | .miotWrRom off d => Sys2Proof.Machine.execMiotWrRom off d s

end Sys2Proof.Machine
end

