-- ==== Sys2Proof/Machine/Events.lean ====
section
/-! DEFINITION. The meanings of the events that are no bus transactions (30_encoding.md R71), of a restore (10_state.md R37) and
of a change of the environment's levels (R36). -/

namespace Sys2Proof.Machine

/-- TICK (R108). -/
def execTick (s : State) : Host.Outcome State Fault Refusal := .next (tick s)

/-- SET_INPUT (R88). -/
def execSetInput (p : PortName) (i : Fin 8) (level : Bool) (s : State) : Host.Outcome State Fault Refusal :=
  .next (setInput p i level s)

/-- SET_INPUT_BYTE (R89). -/
def execSetInputByte (p : PortName) (v : Byte) (s : State) : Host.Outcome State Fault Refusal :=
  .next (setInputByte p v s)

/-- RESET (R161). -/
def execReset (s : State) : Host.Outcome State Fault Refusal := .next (resetChip s)

/-- The host's restore (R37), within its duty (R176). -/
def execRestore (snap : Snapshot) (s : State) : Host.Outcome State Fault Refusal :=
  if mayRestore snap s then .next (restoreFields snap s) else .refused .unreachableSnapshot

/-- The environment presents other levels (R36); no chip state changes. -/
def execEnvChange (p : PortName) (pins : Pins) (s : State) : Host.Outcome State Fault Refusal :=
  .next (silent (setEnvOf p pins s))

end Sys2Proof.Machine
end

