-- ==== Sys2Proof/Machine/Deliver.lean ====
section
/-! DEFINITION. Delivering one event to the chip (00_scope.md R19), and what it takes to make a table word the next event. -/

namespace Sys2Proof.Machine

/-- R61, R68: a bus transaction is decoded and its operation runs. -/
def runBus (t : Transaction) (s : State) : Host.Outcome State Fault Refusal :=
  match decode t with
  | .ok i => exec i s
  | .error _ => .refused .undecoded

/-- R19: one event runs to completion. -/
def deliver (e : Event) (s : State) : Host.Outcome State Fault Refusal :=
  match e with
  | .bus t => runBus t s
  | .tick => execTick s
  | .setInput p i level => execSetInput p i level s
  | .setInputByte p v => execSetInputByte p v s
  | .reset => execReset s
  | .restore snap => execRestore snap s
  | .envChange p pins => execEnvChange p pins s

/-- The chip record of a chip that is to be of variant `v`: unchanged where it already is, else as reset leaves it with PA7 at
`level` (log 19). -/
def chipForVariant (v : Variant) (level : Bool) (c : Chip) : Chip :=
  if c.variant = v then c
  else
    match v with
    | .miot => .miot
    | .riot => .riot (resetEdge level EdgeDetector.afterReset)

/-- The ROM_SIZE of a chip that is to have a transaction's offset in its ROM window: unchanged where it already has, else the
whole of the window that the format's width gives (log 19). -/
def romSizeFor (t : Transaction) (romSize : Nat) : Nat :=
  if t.inRomWindow romSize then romSize else 2 ^ (formatWidth t.format - 1)

/-- `s` with a transaction as its next event, on a chip of the transaction's variant that has its offset. -/
def withNextTransaction (t : Transaction) (s : State) : State :=
  ((s.setChip (chipForVariant t.format.variant (pa7Level s) s.chip)).setRomSize
    (romSizeFor t s.params.romSize)).setSchedule (.bus t :: s.schedule)

/-- `s` with the transaction of a table word as its next event; `s` itself where the word is no transaction. -/
def withTableWord (nbits w : Nat) (s : State) : State :=
  match tableTransaction nbits w with
  | some t => withNextTransaction t s
  | none => s

end Sys2Proof.Machine
end

