-- ==== Sys2Proof/Machine/Step.lean ====
section
/-! DEFINITION. The step: the next event of the host's schedule is taken off it and delivered. With no event the chip holds its
state (60_exceptions.md R158). -/

namespace Sys2Proof.Machine

/-- One step of the machine (R19). -/
def step (s : State) : Host.Outcome State Fault Refusal :=
  match s.schedule with
  | [] => .next s
  | e :: rest => deliver e (s.setSchedule rest)

/-- `s` with the operation of a table word as the next event. -/
def State.withFetchWord (s : State) (nbits w : Nat) : State := withTableWord nbits w s

end Sys2Proof.Machine
end

