-- ==== Sys2Proof/Machine/Incremental.lean ====
section
/-! DEFINITION. The incremental form of the timer (41_timer.md R115), for the statement that it gives the same reads and the same
expiry tick as the form with time stamps. No meaning uses it. -/

namespace Sys2Proof.Machine

/-- R115: an 8-bit counter and a prescale counter, with the state, prescale, enable and flag of R25. -/
structure IncTimer where
  state : TimerState
  cnt : Byte
  pre : Nat
  prescale : Prescale
  ie : Bool
  flag : Bool
deriving DecidableEq, Repr

/-- R115, R109: `Expire()`. -/
def incExpire (c : IncTimer) : IncTimer :=
  { c with state := .spinning, flag := if c.ie then true else c.flag }

/-- R115, R96: a load. -/
def incLoad (sel : BitVec 2) (ie : Bool) (d : Byte) : IncTimer :=
  let c : IncTimer :=
    { state := .counting, cnt := d, pre := 0, prescale := prescaleOf sel, ie := ie, flag := false }
  if d = 0 then incExpire c else c

/-- R115: a TICK. -/
def incTick (c : IncTimer) : IncTimer :=
  match c.state with
  | .idle => c
  | .counting =>
    if c.pre + 1 = divisor c.prescale then
      let c' := { c with pre := 0, cnt := c.cnt - 1 }
      if c'.cnt = 0 then incExpire c' else c'
    else { c with pre := c.pre + 1 }
  | .spinning => { c with cnt := c.cnt - 1 }

/-- R115: what a read returns. -/
def incRead (c : IncTimer) : Byte :=
  match c.state with
  | .idle => Config.timerIdleValue
  | _ => c.cnt

/-- R127: an IFR read clears the flag. -/
def incClear (c : IncTimer) : IncTimer := { c with flag := false }

/-- R161: RESET. -/
def incReset (c : IncTimer) : IncTimer := { c with state := .idle, ie := false, flag := false }

/-- Which load an operation is: its selector, its interrupt enable and its count (R67, R97-R104); none for the others. -/
def timerLoadOf : Instr → Option (BitVec 2 × Bool × Byte)
  | .riotWrT1 d => some (0b00#2, false, d)
  | .riotWrT1I d => some (0b00#2, true, d)
  | .riotWrT8 d => some (0b01#2, false, d)
  | .riotWrT8I d => some (0b01#2, true, d)
  | .riotWrT64 d => some (0b10#2, false, d)
  | .riotWrT64I d => some (0b10#2, true, d)
  | .riotWrT1024 d => some (0b11#2, false, d)
  | .riotWrT1024I d => some (0b11#2, true, d)
  | .miotWrT1 d => some (0b00#2, false, d)
  | .miotWrT1I d => some (0b00#2, true, d)
  | .miotWrT8 d => some (0b01#2, false, d)
  | .miotWrT8I d => some (0b01#2, true, d)
  | .miotWrT64 d => some (0b10#2, false, d)
  | .miotWrT64I d => some (0b10#2, true, d)
  | .miotWrT1024 d => some (0b11#2, false, d)
  | .miotWrT1024I d => some (0b11#2, true, d)
  | _ => none

/-- Whether an operation is an IFR read. -/
def isIfrRead : Instr → Bool
  | .riotRdIfr => true
  | .miotRdIfr => true
  | _ => false

/-- R115: what a bus operation does to the incremental form. -/
def incInstr (i : Instr) (c : IncTimer) : IncTimer :=
  match timerLoadOf i with
  | some (sel, ie, d) => incLoad sel ie d
  | none => if isIfrRead i then incClear c else c

/-- R115: what an event does to the incremental form. A restore is no event of R19 and is left out. -/
def incEvent (e : Event) (c : IncTimer) : IncTimer :=
  match e with
  | .bus t =>
    match decode t with
    | .ok i => incInstr i c
    | .error _ => c
  | .tick => incTick c
  | .reset => incReset c
  | _ => c

/-- R115: a schedule of events on the incremental form. -/
def incRun : List Event → IncTimer → IncTimer
  | [], c => c
  | e :: rest, c => incRun rest (incEvent e c)

end Sys2Proof.Machine
end

