-- ==== Sys2Proof/Machine/Outputs.lean ====
section
/-! DEFINITION. The block's outputs, functions of the state (10_state.md R35, 40_ports.md R90). -/

namespace Sys2Proof.Machine

/-- R92: a Port B output byte of the chip, bit 7 replaced by the open rule on a MIOT whose PB7_IRQ_MODE is not NONE. -/
def governPb7 (open7 : Nat → Byte → Byte → Byte → Bool → Bool → Bool) (s : State) (ordinary : Byte) : Byte :=
  match s.chip, s.params.pb7IrqMode with
  | .miot, .governed rule =>
    withBit ordinary 7 (open7 rule s.pb.latch s.pb.ddr s.pb.input s.timer.ie s.timer.flag)
  | _, _ => ordinary

/-- R35: `P_OE`, which pins the chip drives. -/
def portOE (p : PortName) (s : State) : Byte :=
  match p with
  | .a => s.pa.ddr
  | .b => governPb7 Config.pb7Enable s s.pb.ddr

/-- R35: `P_O`, the level for each driven pin. -/
def portO (p : PortName) (s : State) : Byte :=
  match p with
  | .a => s.pa.latch
  | .b => governPb7 Config.pb7Level s s.pb.latch

/-- R35: `P_BYTE`, the byte-wide output value. -/
def portByte (p : PortName) (s : State) : Byte :=
  pick (portOE p s) (portO p s) (fill s.params.undrivenLevel)

/-- R159: the dedicated interrupt line. It carries `irq`, but for a MIOT whose PB7_IRQ_MODE is not NONE, where the parameter says
what it carries. -/
def irqLine (s : State) : Bool :=
  match s.chip, s.params.pb7IrqMode with
  | .miot, .governed rule => Config.pb7Line rule s.pb.latch s.pb.ddr s.pb.input s.timer.ie s.timer.flag
  | _, _ => irq s

end Sys2Proof.Machine
end

