-- ==== Sys2Proof/Safety.lean ====
section
/-! DEFINITION. What counts as a safe state of the block, and the terms the statements are written in. -/

namespace Sys2Proof.Machine

/-- R25, R105, R108, R128: IDLE has nothing pending; COUNTING lies before the crossing and has no flag; SPINNING lies at or after
it, with a flag only if the load enabled one. -/
def TimerInv (t : Timer) (now : Nat) : Prop :=
  (t.state = .idle → t.ie = false ∧ t.flag = false) ∧
  (t.state = .counting → t.tLoad ≤ now ∧ now < timerExpiry t ∧ t.flag = false) ∧
  (t.state = .spinning → timerExpiry t ≤ now ∧ (t.flag = true → t.ie = true))

/-- R120, R121: on RIOT, the last observed level is the resolved PA7 level. -/
def EdgeInv (s : State) : Prop := ∀ e, s.chip = .riot e → e.last = pa7Level s

/-- R9, R31: the RAM is in its canonical form and inside its window. -/
def RamInv (s : State) : Prop :=
  Memory.wf s.ram = true ∧ ∀ c ∈ s.ram, c.1 < Config.ramSize s.variant

/-- The invariant of the machine. -/
def ChipInv (s : State) : Prop := TimerInv s.timer s.now ∧ EdgeInv s ∧ RamInv s

/-- The row of `s`'s variant (`r` on RIOT, `m` on MIOT) runs to completion at `s` and answers the next state `t`. -/
def RunsOn (s : State) (r m : Instr) (t : State) : Prop :=
  (s.variant = .riot → exec r s = .next t) ∧ (s.variant = .miot → exec m s = .next t)

/-- The event is the next one of the schedule, and the step that delivers it answers `t`. -/
def StepsTo (e : Event) (s t : State) : Prop :=
  ∀ rest, step (s.setSchedule (e :: rest)) = .next (t.setSchedule rest)

/-- R115: an incremental timer matches a timer with time stamps at the tick `now`: the same state, enable and flag; while COUNTING
the periods and ticks counted are the ticks since the load; while SPINNING the count is span less those ticks, modulo 256. -/
def IncMatches (c : IncTimer) (t : Timer) (now : Nat) : Prop :=
  c.state = t.state ∧ c.ie = t.ie ∧ c.flag = t.flag ∧
  (c.state = .counting → c.prescale = t.prescale ∧ t.tLoad ≤ now ∧ 1 ≤ c.cnt.toNat ∧ c.cnt.toNat ≤ t.value.toNat ∧
    c.pre < divisor t.prescale ∧ now - t.tLoad = (t.value.toNat - c.cnt.toNat) * divisor t.prescale + c.pre) ∧
  (c.state = .spinning → t.tLoad ≤ now ∧ c.cnt = BitVec.ofInt 8 ((timerSpan t : Int) - ((now - t.tLoad : Nat) : Int)))

/-- R120, written out: the variant record after an edge comparison that sees `level`. -/
def observedChip (level : Bool) : Chip → Chip
  | .miot => .miot
  | .riot e =>
    .riot { pol := e.pol, ie := e.ie, flag := e.flag || (level != e.last && level == decide (e.pol = .rising)), last := level }

/-- R96, R107: `t` is `s` after the load of count `d` with selector `sel` and interrupt enable `ie`, and nothing else of `s`
has changed. -/
def LoadEffect (s : State) (sel : BitVec 2) (ie : Bool) (d : Byte) (t : State) : Prop :=
  t.timer.value = d ∧ t.timer.prescale = prescaleOf sel ∧ t.timer.ie = ie ∧ t.timer.tLoad = s.now ∧
  (d ≠ 0 → t.timer.state = .counting ∧ t.timer.flag = false) ∧
  (d = 0 → t.timer.state = .spinning ∧ t.timer.flag = ie) ∧
  t = { s with timer := t.timer, dataOut := none }

/-- `n` TICK events in a row. -/
def afterTicks : Nat → State → State
  | 0, s => s
  | n + 1, s => afterTicks n (tick s)

/-- The load of a variant's table with a selector and an interrupt enable (R67). -/
def timerLoad (v : Variant) (sel : BitVec 2) (ie : Bool) (d : Byte) : Instr :=
  match v with
  | .riot =>
    if sel = 0b00#2 then (if ie then .riotWrT1I d else .riotWrT1 d)
    else if sel = 0b01#2 then (if ie then .riotWrT8I d else .riotWrT8 d)
    else if sel = 0b10#2 then (if ie then .riotWrT64I d else .riotWrT64 d)
    else (if ie then .riotWrT1024I d else .riotWrT1024 d)
  | .miot =>
    if sel = 0b00#2 then (if ie then .miotWrT1I d else .miotWrT1 d)
    else if sel = 0b01#2 then (if ie then .miotWrT8I d else .miotWrT8 d)
    else if sel = 0b10#2 then (if ie then .miotWrT64I d else .miotWrT64 d)
    else (if ie then .miotWrT1024I d else .miotWrT1024 d)

/-- The timer read of a variant's table. -/
def timerRead : Variant → Instr
  | .riot => .riotRdTimer
  | .miot => .miotRdTimer

/-- The IFR read of a variant's table. -/
def ifrRead : Variant → Instr
  | .riot => .riotRdIfr
  | .miot => .miotRdIfr

/-- The latch write of a port in a variant's table. -/
def latchWrite : Variant → PortName → Byte → Instr
  | .riot, .a, d => .riotWrPa d
  | .riot, .b, d => .riotWrPb d
  | .miot, .a, d => .miotWrPa d
  | .miot, .b, d => .miotWrPb d

/-- The direction write of a port in a variant's table. -/
def ddrWrite : Variant → PortName → Byte → Instr
  | .riot, .a, d => .riotWrDdra d
  | .riot, .b, d => .riotWrDdrb d
  | .miot, .a, d => .miotWrDdra d
  | .miot, .b, d => .miotWrDdrb d

/-- The data read of a port in a variant's table. -/
def portRead : Variant → PortName → Instr
  | .riot, .a => .riotRdPa
  | .riot, .b => .riotRdPb
  | .miot, .a => .miotRdPa
  | .miot, .b => .miotRdPb

/-- The edge-control write with a polarity and an enable (R123-R126). -/
def edgeWrite : Polarity → Bool → Instr
  | .falling, false => .riotWrEdgeNeg
  | .rising, false => .riotWrEdgePos
  | .falling, true => .riotWrEdgeNegIe
  | .rising, true => .riotWrEdgePosIe

/-- Whether an operation is an edge-control write. -/
def isEdgeWrite (i : Instr) : Bool :=
  i = .riotWrEdgeNeg || i = .riotWrEdgePos || i = .riotWrEdgeNegIe || i = .riotWrEdgePosIe

/-- The RAM offset an operation stores to (R134). -/
def storedOffset : Instr → Option Nat
  | .riotWrRam off _ => some off.toNat
  | .miotWrRam off _ => some off.toNat
  | _ => none

/-- Whether an event is the bus transaction of an operation that `p` holds of. -/
def runsOperation (p : Instr → Bool) : Event → Bool
  | .bus t =>
    match decode t with
    | .ok i => p i
    | .error _ => false
  | _ => false

/-- Whether an event is a timer load. -/
def loadsTimer : Event → Bool := runsOperation (fun i => (timerLoadOf i).isSome)

/-- Whether an event is an IFR read. -/
def readsIfr : Event → Bool := runsOperation isIfrRead

/-- Whether an event is an edge-control write. -/
def configuresEdge : Event → Bool := runsOperation isEdgeWrite

/-- Whether an event is a restore. -/
def restores : Event → Bool
  | .restore _ => true
  | _ => false

/-- Whether PB7_IRQ_MODE leaves Port B bit 7 an ordinary bit (R92): always on RIOT, and on MIOT with NONE. -/
def Pb7Ordinary (s : State) : Prop := s.variant = .riot ∨ s.params.pb7IrqMode = .none

end Sys2Proof.Machine
end

