-- ==== Sys2Proof/Certificates/Slice0/Obligations.lean ====
section
/-! DEFINITION. The statements for the provers. Each is about the machine of Sys2Proof.Machine, for every state unless a
hypothesis says otherwise. -/

open Sys2Proof Sys2Proof.Machine

/-- For every operation of the opcode table and every value of its operands, the decoder reads the operation from the transaction the encoder writes for it; and from the bytes of its listing followed by any bytes, it reads the operation and leaves those bytes. The byte form of a listing is the model's choice (log 25). [30_encoding.md section 1 (R61, R62), 30_encoding.md section 6 (R73, R74)] -/
def Obligations.DecodeOfEncodeIsTheOperation : Prop :=
  ∀ (i : Instr) (rest : List Byte),
    decode (encode i) = .ok i ∧ decodeBytes i.format (encodeBytes i ++ rest) = .ok (i, rest)

/-- In each of the five decode tables (the ROM's at every offset width) every access word selects exactly one row, and every transaction decodes to an operation of its own format. The register decodes themselves are the spec's own decisions D3 and D4 (log 17). [30_encoding.md section 4 (R68), 30_encoding.md section 1 (R63)] -/
def Obligations.EveryAccessWordSelectsExactlyOneRow : Prop :=
  (∀ w : BitVec 6, (io32Rows.filter (selects w)).length = 1) ∧
  (∀ w : BitVec 5, (io16Rows.filter (selects w)).length = 1) ∧
  (∀ w : BitVec 8, (ram128Rows.filter (selects w)).length = 1) ∧
  (∀ w : BitVec 7, (ram64Rows.filter (selects w)).length = 1) ∧
  (∀ (n : Nat) (w : BitVec (n + 1)), ((romRows n).filter (selects w)).length = 1) ∧
  ∀ t : Transaction, ∃ i, decode t = .ok i ∧ i.format = t.format

/-- For each of the 46 rows, with the row's mask and match written out: every access word w with (w & mask) = match, and every data byte, decodes to the row's operation, with the offset in the low bits of the word and the data byte as operands; and for a ROM window of any offset width the word's top bit alone tells the read from the write. The offsets are the spec's decisions D3 and D4 (log 17). [30_encoding.md section 2 (R64, R65), 30_encoding.md section 1 (R62, R63), 43_ram_rom.md (R133, R134, R135, R136)] -/
def Obligations.DecodesEveryRowOfTheOpcodeTable : Prop :=
  (∀ (w : BitVec 6) (d : Byte), w &&& 0x27#6 = 0x20#6 → decode (.io32 w d) = .ok .riotRdPa) ∧
  (∀ (w : BitVec 6) (d : Byte), w &&& 0x27#6 = 0x21#6 → decode (.io32 w d) = .ok .riotRdDdra) ∧
  (∀ (w : BitVec 6) (d : Byte), w &&& 0x27#6 = 0x22#6 → decode (.io32 w d) = .ok .riotRdPb) ∧
  (∀ (w : BitVec 6) (d : Byte), w &&& 0x27#6 = 0x23#6 → decode (.io32 w d) = .ok .riotRdDdrb) ∧
  (∀ (w : BitVec 6) (d : Byte), w &&& 0x27#6 = 0x0#6 → decode (.io32 w d) = .ok (.riotWrPa d)) ∧
  (∀ (w : BitVec 6) (d : Byte), w &&& 0x27#6 = 0x1#6 → decode (.io32 w d) = .ok (.riotWrDdra d)) ∧
  (∀ (w : BitVec 6) (d : Byte), w &&& 0x27#6 = 0x2#6 → decode (.io32 w d) = .ok (.riotWrPb d)) ∧
  (∀ (w : BitVec 6) (d : Byte), w &&& 0x27#6 = 0x3#6 → decode (.io32 w d) = .ok (.riotWrDdrb d)) ∧
  (∀ (w : BitVec 6) (d : Byte), w &&& 0x25#6 = 0x24#6 → decode (.io32 w d) = .ok .riotRdTimer) ∧
  (∀ (w : BitVec 6) (d : Byte), w &&& 0x25#6 = 0x25#6 → decode (.io32 w d) = .ok .riotRdIfr) ∧
  (∀ (w : BitVec 6) (d : Byte), w &&& 0x3f#6 = 0x14#6 → decode (.io32 w d) = .ok (.riotWrT1 d)) ∧
  (∀ (w : BitVec 6) (d : Byte), w &&& 0x3f#6 = 0x15#6 → decode (.io32 w d) = .ok (.riotWrT8 d)) ∧
  (∀ (w : BitVec 6) (d : Byte), w &&& 0x3f#6 = 0x16#6 → decode (.io32 w d) = .ok (.riotWrT64 d)) ∧
  (∀ (w : BitVec 6) (d : Byte), w &&& 0x3f#6 = 0x17#6 → decode (.io32 w d) = .ok (.riotWrT1024 d)) ∧
  (∀ (w : BitVec 6) (d : Byte), w &&& 0x3f#6 = 0x1c#6 → decode (.io32 w d) = .ok (.riotWrT1I d)) ∧
  (∀ (w : BitVec 6) (d : Byte), w &&& 0x3f#6 = 0x1d#6 → decode (.io32 w d) = .ok (.riotWrT8I d)) ∧
  (∀ (w : BitVec 6) (d : Byte), w &&& 0x3f#6 = 0x1e#6 → decode (.io32 w d) = .ok (.riotWrT64I d)) ∧
  (∀ (w : BitVec 6) (d : Byte), w &&& 0x3f#6 = 0x1f#6 → decode (.io32 w d) = .ok (.riotWrT1024I d)) ∧
  (∀ (w : BitVec 6) (d : Byte), w &&& 0x37#6 = 0x4#6 → decode (.io32 w d) = .ok .riotWrEdgeNeg) ∧
  (∀ (w : BitVec 6) (d : Byte), w &&& 0x37#6 = 0x5#6 → decode (.io32 w d) = .ok .riotWrEdgePos) ∧
  (∀ (w : BitVec 6) (d : Byte), w &&& 0x37#6 = 0x6#6 → decode (.io32 w d) = .ok .riotWrEdgeNegIe) ∧
  (∀ (w : BitVec 6) (d : Byte), w &&& 0x37#6 = 0x7#6 → decode (.io32 w d) = .ok .riotWrEdgePosIe) ∧
  (∀ (w : BitVec 8) (d : Byte), w &&& 0x80#8 = 0x80#8 → decode (.ram128 w d) = .ok (.riotRdRam (w.extractLsb' 0 7))) ∧
  (∀ (w : BitVec 8) (d : Byte), w &&& 0x80#8 = 0x0#8 → decode (.ram128 w d) = .ok (.riotWrRam (w.extractLsb' 0 7) d)) ∧
  (∀ (w : BitVec 5) (d : Byte), w &&& 0x17#5 = 0x10#5 → decode (.io16 w d) = .ok .miotRdPa) ∧
  (∀ (w : BitVec 5) (d : Byte), w &&& 0x17#5 = 0x11#5 → decode (.io16 w d) = .ok .miotRdDdra) ∧
  (∀ (w : BitVec 5) (d : Byte), w &&& 0x17#5 = 0x12#5 → decode (.io16 w d) = .ok .miotRdPb) ∧
  (∀ (w : BitVec 5) (d : Byte), w &&& 0x17#5 = 0x13#5 → decode (.io16 w d) = .ok .miotRdDdrb) ∧
  (∀ (w : BitVec 5) (d : Byte), w &&& 0x17#5 = 0x0#5 → decode (.io16 w d) = .ok (.miotWrPa d)) ∧
  (∀ (w : BitVec 5) (d : Byte), w &&& 0x17#5 = 0x1#5 → decode (.io16 w d) = .ok (.miotWrDdra d)) ∧
  (∀ (w : BitVec 5) (d : Byte), w &&& 0x17#5 = 0x2#5 → decode (.io16 w d) = .ok (.miotWrPb d)) ∧
  (∀ (w : BitVec 5) (d : Byte), w &&& 0x17#5 = 0x3#5 → decode (.io16 w d) = .ok (.miotWrDdrb d)) ∧
  (∀ (w : BitVec 5) (d : Byte), w &&& 0x15#5 = 0x14#5 → decode (.io16 w d) = .ok .miotRdTimer) ∧
  (∀ (w : BitVec 5) (d : Byte), w &&& 0x15#5 = 0x15#5 → decode (.io16 w d) = .ok .miotRdIfr) ∧
  (∀ (w : BitVec 5) (d : Byte), w &&& 0x1f#5 = 0x4#5 → decode (.io16 w d) = .ok (.miotWrT1 d)) ∧
  (∀ (w : BitVec 5) (d : Byte), w &&& 0x1f#5 = 0x5#5 → decode (.io16 w d) = .ok (.miotWrT8 d)) ∧
  (∀ (w : BitVec 5) (d : Byte), w &&& 0x1f#5 = 0x6#5 → decode (.io16 w d) = .ok (.miotWrT64 d)) ∧
  (∀ (w : BitVec 5) (d : Byte), w &&& 0x1f#5 = 0x7#5 → decode (.io16 w d) = .ok (.miotWrT1024 d)) ∧
  (∀ (w : BitVec 5) (d : Byte), w &&& 0x1f#5 = 0xc#5 → decode (.io16 w d) = .ok (.miotWrT1I d)) ∧
  (∀ (w : BitVec 5) (d : Byte), w &&& 0x1f#5 = 0xd#5 → decode (.io16 w d) = .ok (.miotWrT8I d)) ∧
  (∀ (w : BitVec 5) (d : Byte), w &&& 0x1f#5 = 0xe#5 → decode (.io16 w d) = .ok (.miotWrT64I d)) ∧
  (∀ (w : BitVec 5) (d : Byte), w &&& 0x1f#5 = 0xf#5 → decode (.io16 w d) = .ok (.miotWrT1024I d)) ∧
  (∀ (w : BitVec 7) (d : Byte), w &&& 0x40#7 = 0x40#7 → decode (.ram64 w d) = .ok (.miotRdRam (w.extractLsb' 0 6))) ∧
  (∀ (w : BitVec 7) (d : Byte), w &&& 0x40#7 = 0x0#7 → decode (.ram64 w d) = .ok (.miotWrRam (w.extractLsb' 0 6) d)) ∧
  (∀ (w : BitVec 11) (d : Byte), w &&& 0x400#11 = 0x400#11 → decode (.rom 10 w d) = .ok (.miotRdRom ⟨10, w.extractLsb' 0 10⟩)) ∧
  (∀ (w : BitVec 11) (d : Byte), w &&& 0x400#11 = 0x0#11 → decode (.rom 10 w d) = .ok (.miotWrRom ⟨10, w.extractLsb' 0 10⟩ d)) ∧
  (∀ (n : Nat) (w : BitVec (n + 1)) (d : Byte), w.getLsbD n = true → decode (.rom n w d) = .ok (.miotRdRom ⟨n, w.extractLsb' 0 n⟩)) ∧
  (∀ (n : Nat) (w : BitVec (n + 1)) (d : Byte), w.getLsbD n = false → decode (.rom n w d) = .ok (.miotWrRom ⟨n, w.extractLsb' 0 n⟩ d))

/-- The six listings of R74, four more words of 95_test_vectors.md 2.1 (0x38, 0x09, 0x0F of IO32 and 0x3FF of ROM1K, with a data byte where a write needs one) and the RAM64 write of V-M2 in 2.5 decode to the operations the spec names. The byte form of a listing is the model's choice (log 25). [30_encoding.md section 6 (R74), 95_test_vectors.md section 2.1, 95_test_vectors.md section 2.5 (V-M2), 43_ram_rom.md (R134)] -/
def Obligations.DecodesTheSpecsListings : Prop :=
  decodeBytes .io32 [0x1D, 0x0A] = .ok (.riotWrT8I 0x0A, []) ∧
  decodeBytes .io32 [0x24] = .ok (.riotRdTimer, []) ∧
  decodeBytes .io32 [0x25] = .ok (.riotRdIfr, []) ∧
  decodeBytes .io16 [0x0C, 0x00] = .ok (.miotWrT1I 0x00, []) ∧
  decodeBytes .ram128 [0xFF] = .ok (.riotRdRam 127#7, []) ∧
  decodeBytes (.rom 10) [0xFF, 0x07] = .ok (.miotRdRom ⟨10, 1023#10⟩, []) ∧
  decodeBytes .io32 [0x38] = .ok (.riotRdPa, []) ∧
  decodeBytes .io32 [0x09, 0x5A] = .ok (.riotWrDdra 0x5A, []) ∧
  decodeBytes .io32 [0x0F, 0x00] = .ok (.riotWrEdgePosIe, []) ∧
  decodeBytes .ram64 [0x3F, 0xA5] = .ok (.miotWrRam 63#6 0xA5, []) ∧
  decodeBytes (.rom 10) [0xFF, 0x03, 0x00] = .ok (.miotWrRom ⟨10, 1023#10⟩ 0x00, [])

/-- Two transactions that decode to the same operation have the same outcome in every state, and that outcome is the one of the operation's canonical transaction; any two words of the RIOT register window that differ only in A4 and A3 with A2 = 0 decode alike, as do those of a read with A2 = 1 that differ only in A4, A3 and A1. [30_encoding.md section 4 (R69), 30_encoding.md section 6 (R73)] -/
def Obligations.MirrorsActAsTheCanonicalOffset : Prop :=
  (∀ (t : Transaction) (i : Instr) (s : State), decode t = .ok i → deliver (.bus t) s = deliver (.bus (encode i)) s) ∧
  (∀ (w w' : BitVec 6) (d : Byte), w &&& 0x04 = 0 → w &&& 0x27 = w' &&& 0x27 → decode (.io32 w d) = decode (.io32 w' d)) ∧
  (∀ (w w' : BitVec 6) (d : Byte), w &&& 0x24 = 0x24 → w &&& 0x25 = w' &&& 0x25 → decode (.io32 w d) = decode (.io32 w' d))

/-- When the next event of the schedule is a bus transaction that decodes to i, the step is exec of i at the state whose schedule is the rest; with nothing scheduled the chip holds its state. The schedule is the model's own field (log 2). [00_scope.md section 5 (R19), 30_encoding.md section 1 (R61), 60_exceptions.md section 6 (R158)] -/
def Obligations.StepRunsTheDecodedOperation : Prop :=
  ∀ s : State,
    (s.schedule = [] → step s = .next s) ∧
    (∀ tr i rest, s.schedule = .bus tr :: rest → decode tr = .ok i → step s = exec i { s with schedule := rest }) ∧
    (∀ e rest, s.schedule = e :: rest → step s = deliver e { s with schedule := rest })

/-- For every state: every transaction and every operation of the chip's own variant whose offset lies in its window, and every TICK, SET_INPUT, SET_INPUT_BYTE and RESET, answers a next state, with every data byte; none of them faults or is refused. [R141] -/
def Obligations.EveryAccessAndEventCompletes : Prop :=
  ∀ s : State,
    (∀ tr : Transaction, tr.wellFormedFor s.variant s.params.romSize = true → ∃ t, deliver (.bus tr) s = .next t) ∧
    (∀ i : Instr, i.wellFormedFor s.variant s.params.romSize = true → ∃ t, exec i s = .next t) ∧
    (∃ t, deliver .tick s = .next t) ∧
    (∀ p i level, ∃ t, deliver (.setInput p i level) s = .next t) ∧
    (∀ p v, ∃ t, deliver (.setInputByte p v) s = .next t) ∧
    (∃ t, deliver .reset s = .next t)

/-- exec of an operation the chip's variant does not have faults with notOnThisVariant; exec of a ROM operation of a MIOT whose offset has another width than ROM_SIZE gives, or lies at or above ROM_SIZE, faults with outsideRomWindow. That such an access stops the model is the model's choice (logs 15, 26). [43_ram_rom.md (R137), 10_state.md section 4 (R30), 20_memory.md section 4 (R48, R49)] -/
def Obligations.OperationsOfTheOtherVariantStop : Prop :=
  ∀ (i : Instr) (s : State),
    (i.variant ≠ s.variant → exec i s = .fault .notOnThisVariant) ∧
    (i.variant = s.variant → i.inRomWindow s.params.romSize = false → exec i s = .fault .outsideRomWindow)

/-- RD_PA answers, bit by bit, the latch where the pin is an output and the environment's level where it is an input; stores the sampled levels of the input pins; on RIOT compares the resulting bit 7; and leaves every other part of the state, memory among it, as it was. [40_ports.md sections 1 and 2 (R79, R80), 10_state.md section 2 (R24)] -/
def Obligations.PortAReadGivesResolvedLevels : Prop :=
  ∀ s : State, ∃ t b, RunsOn s .riotRdPa .miotRdPa t ∧ t.dataOut = some b ∧
    (∀ i, bitOf b i = if bitOf s.pa.ddr i then bitOf s.pa.latch i else bitOf (envLevels .a s) i) ∧
    (∀ i, bitOf t.pa.input i = if bitOf s.pa.ddr i then bitOf s.pa.input i else bitOf (envLevels .a s) i) ∧
    t.chip = observedChip (bitOf b 7) s.chip ∧
    t = { s with pa := { s.pa with input := t.pa.input }, chip := t.chip, dataOut := t.dataOut } ∧
    (∀ off, ramByte t off = ramByte s off)

/-- RD_PB answers, bit by bit, the latch on outputs and the environment's level on inputs, on RIOT and with PB7_IRQ_MODE = NONE for all eight bits; under another mode of a MIOT bit 7 is the open parameter's value (the arguments of that open function are the model's choice, log 13). It stores the sampled levels and changes nothing else, no flag among it. [40_ports.md section 3 (R84), 40_ports.md section 5 (R92)] -/
def Obligations.PortBReadGivesResolvedLevels : Prop :=
  ∀ s : State, ∃ t b, RunsOn s .riotRdPb .miotRdPb t ∧ t.dataOut = some b ∧
    (∀ i, i ≠ 7 ∨ Pb7Ordinary s →
      bitOf b i = if bitOf s.pb.ddr i then bitOf s.pb.latch i else bitOf (envLevels .b s) i) ∧
    (∀ rule, s.variant = .miot → s.params.pb7IrqMode = .governed rule →
      bitOf b 7 = Config.pb7Read rule s.pb.latch s.pb.ddr t.pb.input s.timer.ie s.timer.flag) ∧
    (∀ i, bitOf t.pb.input i = if bitOf s.pb.ddr i then bitOf s.pb.input i else bitOf (envLevels .b s) i) ∧
    t = { s with pb := { s.pb with input := t.pb.input }, dataOut := t.dataOut } ∧
    (∀ off, ramByte t off = ramByte s off)

/-- For every state, port and pin that is input-configured and driven by nothing, the port read completes and answers UNDRIVEN_LEVEL in that bit (Port B bit 7 of a MIOT only where PB7_IRQ_MODE leaves it an ordinary bit, as R92 says). [R91] -/
def Obligations.UndrivenInputsReadTheUndrivenLevel : Prop :=
  ∀ (s : State) (p : PortName) (i : Fin 8),
    bitOf (portOf p s).ddr i = false → bitOf (envOf p s).driven i = false → (p = .b → i = 7 → Pb7Ordinary s) →
    ∃ t b, exec (portRead s.variant p) s = .next t ∧ t.dataOut = some b ∧ bitOf b i = s.params.undrivenLevel

/-- WR_PA d sets the latch and WR_DDRA d the direction register; on RIOT the edge comparison sees PA7 as the new registers resolve it (the spec's decision D11); everything else, memory among it, is unchanged. [40_ports.md section 2 (R81, R83), 42_edge_and_flags.md section 1 (R119, R121)] -/
def Obligations.PortAWritesStoreAndObserve : Prop :=
  ∀ (s : State) (d : Byte),
    (∃ t, RunsOn s (.riotWrPa d) (.miotWrPa d) t ∧
      t.chip = observedChip (if bitOf s.pa.ddr 7 then bitOf d 7 else bitOf s.pa.input 7) s.chip ∧
      t = { s with pa := { s.pa with latch := d }, chip := t.chip, dataOut := none } ∧
      (∀ off, ramByte t off = ramByte s off)) ∧
    (∃ t, RunsOn s (.riotWrDdra d) (.miotWrDdra d) t ∧
      t.chip = observedChip (if bitOf d 7 then bitOf s.pa.latch 7 else bitOf s.pa.input 7) s.chip ∧
      t = { s with pa := { s.pa with ddr := d }, chip := t.chip, dataOut := none } ∧
      (∀ off, ramByte t off = ramByte s off))

/-- Every access word of the encodings of R85 and R86 decodes to the write; WR_PB d sets the latch and WR_DDRB d the direction register; no flag, no other register and no byte of memory changes; the output pins carry the new registers at once (bit 7 of a MIOT where PB7_IRQ_MODE leaves it an ordinary bit), and with UNDRIVEN_LEVEL = 1 the pins that are inputs show 1 in PB_BYTE. [R85, R86] -/
def Obligations.PortBWritesStoreTheirRegister : Prop :=
  (∀ (w : BitVec 6) (d : Byte), w &&& 0x27 = 0x02 → decode (.io32 w d) = .ok (.riotWrPb d)) ∧
  (∀ (w : BitVec 5) (d : Byte), w &&& 0x17 = 0x02 → decode (.io16 w d) = .ok (.miotWrPb d)) ∧
  (∀ (w : BitVec 6) (d : Byte), w &&& 0x27 = 0x03 → decode (.io32 w d) = .ok (.riotWrDdrb d)) ∧
  (∀ (w : BitVec 5) (d : Byte), w &&& 0x17 = 0x03 → decode (.io16 w d) = .ok (.miotWrDdrb d)) ∧
  ∀ (s : State) (d : Byte),
    (∃ t, RunsOn s (.riotWrPb d) (.miotWrPb d) t ∧
      t = { s with pb := { s.pb with latch := d }, dataOut := none } ∧
      irq t = irq s ∧ (∀ off, ramByte t off = ramByte s off) ∧
      (∀ i, i ≠ 7 ∨ Pb7Ordinary s →
        bitOf (portO .b t) i = bitOf d i ∧
        bitOf (portByte .b t) i = if bitOf s.pb.ddr i then bitOf d i else s.params.undrivenLevel)) ∧
    (∃ t, RunsOn s (.riotWrDdrb d) (.miotWrDdrb d) t ∧
      t = { s with pb := { s.pb with ddr := d }, dataOut := none } ∧
      irq t = irq s ∧ (∀ off, ramByte t off = ramByte s off) ∧
      (∀ i, i ≠ 7 ∨ Pb7Ordinary s →
        bitOf (portOE .b t) i = bitOf d i ∧
        bitOf (portByte .b t) i = if bitOf d i then bitOf s.pb.latch i else s.params.undrivenLevel))

/-- RD_DDRA answers PA.ddr and RD_DDRB PB.ddr; no part of the state changes but the byte given back. That the registers read back is the spec's decision D6. [40_ports.md sections 2 and 3 (R82, R87)] -/
def Obligations.DirectionReadsAnswerTheRegister : Prop :=
  ∀ s : State,
    RunsOn s .riotRdDdra .miotRdDdra { s with dataOut := some s.pa.ddr } ∧
    RunsOn s .riotRdDdrb .miotRdDdrb { s with dataOut := some s.pb.ddr }

/-- For every state, port, direction dd, written value w and levels L the environment presents, the direction write, the latch write and the read complete, and the read answers (w & dd) | (L & ~dd) (for Port B of a MIOT, with PB7_IRQ_MODE leaving bit 7 ordinary). The event that sets the environment's levels is the model's own (log 5). [40_ports.md section 6 (R93)] -/
def Obligations.PortRoundTrip : Prop :=
  ∀ (s : State) (p : PortName) (dd w : Byte) (pins : Pins), (p = .b → Pb7Ordinary s) →
    ∃ t1 t2 t3 t4,
      exec (ddrWrite s.variant p dd) s = .next t1 ∧
      exec (latchWrite s.variant p w) t1 = .next t2 ∧
      deliver (.envChange p pins) t2 = .next t3 ∧
      exec (portRead s.variant p) t3 = .next t4 ∧
      t4.dataOut = some ((w &&& dd) ||| (pinLevels s.params.undrivenLevel pins &&& ~~~dd))

/-- The step that delivers SET_INPUT(P, i, level) sets the environment's level and PA.in or PB.in of that pin, whatever the direction of the pin; on RIOT it runs the edge comparison for PA7 and for no other pin; with PA7 an output the resolved level does not change, so no edge is found (that the resolved level is what is compared is the spec's C4 and decision D11); everything else is unchanged; and after a direction write that makes the pin an input, the port read completes and answers the level in its bit (Port B bit 7 of a MIOT where PB7_IRQ_MODE leaves it an ordinary bit). [R88] -/
def Obligations.SetInputUpdatesThePinAndObserves : Prop :=
  ∀ (s : State) (p : PortName) (i : Fin 8) (level : Bool), ∃ t, StepsTo (.setInput p i level) s t ∧
    (∀ j, bitOf (envLevels p t) j = if j = i then level else bitOf (envLevels p s) j) ∧
    (∀ j, bitOf (portOf p t).input j = if j = i then level else bitOf (portOf p s).input j) ∧
    (portOf p t).latch = (portOf p s).latch ∧ (portOf p t).ddr = (portOf p s).ddr ∧
    (p = .a ∧ i = 7 → t.chip = observedChip (pa7Level t) s.chip) ∧
    (¬(p = .a ∧ i = 7) → t.chip = s.chip) ∧
    (bitOf s.pa.ddr 7 = true → pa7Level t = pa7Level s) ∧
    (p = .a → t = { s with pa := t.pa, envA := t.envA, chip := t.chip, dataOut := none }) ∧
    (p = .b → t = { s with pb := t.pb, envB := t.envB, dataOut := none }) ∧
    (∀ dd : Byte, bitOf dd i = false → (p = .b → i = 7 → Pb7Ordinary s) → ∃ u v b,
      exec (ddrWrite s.variant p dd) t = .next u ∧ bitOf (portOf p u).input i = level ∧
      exec (portRead s.variant p) u = .next v ∧ v.dataOut = some b ∧ bitOf b i = level)

/-- For every state, port and byte, the state after SET_INPUT_BYTE(P, v) is the state after the eight steps that deliver SET_INPUT(P, 0, v[0]) to SET_INPUT(P, 7, v[7]); the port's input levels and the environment's levels are then v. [40_ports.md section 4 (R89)] -/
def Obligations.SetInputByteIsEightSetInputs : Prop :=
  ∀ (s : State) (p : PortName) (v : Byte), ∃ t, StepsTo (.setInputByte p v) s t ∧
    (portOf p t).input = v ∧ envLevels p t = v ∧
    ∀ rest, Host.Core.run core 8
      (s.setSchedule (.setInput p 0 (bitOf v 0) :: .setInput p 1 (bitOf v 1) :: .setInput p 2 (bitOf v 2) ::
        .setInput p 3 (bitOf v 3) :: .setInput p 4 (bitOf v 4) :: .setInput p 5 (bitOf v 5) ::
        .setInput p 6 (bitOf v 6) :: .setInput p 7 (bitOf v 7) :: rest)) = .next (t.setSchedule rest)

/-- For every state and port: Sample gives every input-configured pin the environment's level and leaves the input level of an output-configured pin, and everything else, as it was; Resolved is, bit by bit, the latch where the direction bit is 1 and the input level where it is 0, that is (latch & ddr) | (in & ~ddr). [R79] -/
def Obligations.SampleRefreshesInputPinsOnly : Prop :=
  (∀ (s : State) (p : PortName),
    (∀ i, bitOf (portOf p (sample p s)).input i =
      if bitOf (portOf p s).ddr i = false then bitOf (envLevels p s) i else bitOf (portOf p s).input i) ∧
    sample p s = setPortOf p { portOf p s with input := (portOf p (sample p s)).input } s) ∧
  (∀ q : Port, resolved q = (q.latch &&& q.ddr) ||| (q.input &&& ~~~q.ddr) ∧
    ∀ i, bitOf (resolved q) i = if bitOf q.ddr i then bitOf q.latch i else bitOf q.input i)

/-- For every state: P_OE is the direction register, P_O the latch, and P_BYTE shows, bit by bit, the latch on outputs and UNDRIVEN_LEVEL on inputs (for Port B of a MIOT, with PB7_IRQ_MODE leaving bit 7 ordinary; under another mode only bits 0 to 6). Outputs as levels are the spec's decision D17. [10_state.md section 9 (R35), 40_ports.md section 5 (R90, R92)] -/
def Obligations.OutputsFollowTheState : Prop :=
  ∀ (s : State) (p : PortName) (i : Fin 8), (p = .b → i = 7 → Pb7Ordinary s) →
    bitOf (portOE p s) i = bitOf (portOf p s).ddr i ∧
    bitOf (portO p s) i = bitOf (portOf p s).latch i ∧
    bitOf (portByte p s) i = if bitOf (portOf p s).ddr i then bitOf (portOf p s).latch i else s.params.undrivenLevel

/-- No Port B operation and no direction read, no SET_INPUT to a pin other than PA7 and no SET_INPUT_BYTE to Port B changes the edge detector, the timer or IRQ. And from a state whose edge detector has observed PA7, neither does a Port A latch or direction write that leaves bit 7 of its register, nor a Port A read or a SET_INPUT_BYTE to Port A where PA7 is an output or its level is the one last observed, whatever PA0 to PA6 are. [40_ports.md section 6 (R94), 42_edge_and_flags.md section 1 (R121)] -/
def Obligations.OnlyPa7FeedsTheEdgeDetector : Prop :=
  (∀ (i : Instr) (d : Byte) (s t : State),
    i ∈ [.riotRdPb, .riotRdDdrb, .riotWrPb d, .riotWrDdrb d, .riotRdDdra,
      .miotRdPb, .miotRdDdrb, .miotWrPb d, .miotWrDdrb d, .miotRdDdra] →
    exec i s = .next t → t.chip = s.chip ∧ t.timer = s.timer ∧ irq t = irq s) ∧
  (∀ (p : PortName) (i : Fin 8) (level : Bool) (s t : State), ¬(p = .a ∧ i = 7) →
    deliver (.setInput p i level) s = .next t → t.chip = s.chip ∧ t.timer = s.timer ∧ irq t = irq s) ∧
  (∀ (v : Byte) (s t : State),
    deliver (.setInputByte .b v) s = .next t → t.chip = s.chip ∧ t.timer = s.timer ∧ irq t = irq s) ∧
  (∀ (d : Byte) (s t : State), EdgeInv s → bitOf d 7 = bitOf s.pa.latch 7 →
    exec (latchWrite s.variant .a d) s = .next t → t.chip = s.chip ∧ t.timer = s.timer ∧ irq t = irq s) ∧
  (∀ (d : Byte) (s t : State), EdgeInv s → bitOf d 7 = bitOf s.pa.ddr 7 →
    exec (ddrWrite s.variant .a d) s = .next t → t.chip = s.chip ∧ t.timer = s.timer ∧ irq t = irq s) ∧
  (∀ s t : State, EdgeInv s → (bitOf s.pa.ddr 7 = true ∨ bitOf (envLevels .a s) 7 = bitOf s.pa.input 7) →
    exec (portRead s.variant .a) s = .next t → t.chip = s.chip ∧ t.timer = s.timer ∧ irq t = irq s) ∧
  (∀ (v : Byte) (s t : State), EdgeInv s → (bitOf s.pa.ddr 7 = true ∨ bitOf v 7 = bitOf s.pa.input 7) →
    deliver (.setInputByte .a v) s = .next t → t.chip = s.chip ∧ t.timer = s.timer ∧ irq t = irq s)

/-- Selector 00 gives shift 0 and divisor 1, 01 gives 3 and 8, 10 gives 6 and 64, 11 gives 10 and 1024; and the timer-load words carry the selector in bits A1:A0 on both variants. [R16, R95] -/
def Obligations.PrescaleTable : Prop :=
  (prescaleShift (prescaleOf 0b00#2) = 0 ∧ divisor (prescaleOf 0b00#2) = 1) ∧
  (prescaleShift (prescaleOf 0b01#2) = 3 ∧ divisor (prescaleOf 0b01#2) = 8) ∧
  (prescaleShift (prescaleOf 0b10#2) = 6 ∧ divisor (prescaleOf 0b10#2) = 64) ∧
  (prescaleShift (prescaleOf 0b11#2) = 10 ∧ divisor (prescaleOf 0b11#2) = 1024) ∧
  (∀ (w : BitVec 6) (d : Byte) (i : Instr) (sel : BitVec 2) (ie : Bool) (c : Byte),
    decode (.io32 w d) = .ok i → timerLoadOf i = some (sel, ie, c) → sel = w.extractLsb' 0 2) ∧
  (∀ (w : BitVec 5) (d : Byte) (i : Instr) (sel : BitVec 2) (ie : Bool) (c : Byte),
    decode (.io16 w d) = .ok i → timerLoadOf i = some (sel, ie, c) → sel = w.extractLsb' 0 2)

/-- Each of the eight loads of each variant completes and leaves the timer with the written count, the selector's shift, the variant's interrupt enable, a cleared flag and the current tick as load tick, COUNTING, whatever the timer was before; a count of 0 expires at once, SPINNING with the flag equal to the enable. IRQ follows at once. Nothing else of the state changes, memory and ports among it. [R96] -/
def Obligations.TimerLoadsSetEveryField : Prop :=
  ∀ (s : State) (d : Byte),
    (∃ t, RunsOn s (.riotWrT1 d) (.miotWrT1 d) t ∧ LoadEffect s 0b00#2 false d t ∧ irq t = ((d == 0 && false) || edgeRequest s.chip)) ∧
    (∃ t, RunsOn s (.riotWrT1I d) (.miotWrT1I d) t ∧ LoadEffect s 0b00#2 true d t ∧ irq t = ((d == 0 && true) || edgeRequest s.chip)) ∧
    (∃ t, RunsOn s (.riotWrT8 d) (.miotWrT8 d) t ∧ LoadEffect s 0b01#2 false d t ∧ irq t = ((d == 0 && false) || edgeRequest s.chip)) ∧
    (∃ t, RunsOn s (.riotWrT8I d) (.miotWrT8I d) t ∧ LoadEffect s 0b01#2 true d t ∧ irq t = ((d == 0 && true) || edgeRequest s.chip)) ∧
    (∃ t, RunsOn s (.riotWrT64 d) (.miotWrT64 d) t ∧ LoadEffect s 0b10#2 false d t ∧ irq t = ((d == 0 && false) || edgeRequest s.chip)) ∧
    (∃ t, RunsOn s (.riotWrT64I d) (.miotWrT64I d) t ∧ LoadEffect s 0b10#2 true d t ∧ irq t = ((d == 0 && true) || edgeRequest s.chip)) ∧
    (∃ t, RunsOn s (.riotWrT1024 d) (.miotWrT1024 d) t ∧ LoadEffect s 0b11#2 false d t ∧ irq t = ((d == 0 && false) || edgeRequest s.chip)) ∧
    (∃ t, RunsOn s (.riotWrT1024I d) (.miotWrT1024I d) t ∧ LoadEffect s 0b11#2 true d t ∧ irq t = ((d == 0 && true) || edgeRequest s.chip))

/-- RD_TIMER completes and changes nothing but the byte given back. In IDLE the byte is TIMER_IDLE_VALUE (open, log 9); in COUNTING it is the count less the completed prescale periods, between 1 and the loaded count; in SPINNING it is (span - elapsed) modulo 256. The bounds hold where the timer invariant does. [41_timer.md section 2 (R105, R106)] -/
def Obligations.TimerReadReturnsTheCount : Prop :=
  ∀ s : State, ∃ t b, RunsOn s .riotRdTimer .miotRdTimer t ∧ t = { s with dataOut := some b } ∧
    (s.timer.state = .idle → b = Config.timerIdleValue) ∧
    (TimerInv s.timer s.now → s.timer.state = .counting →
      b.toNat + (s.now - s.timer.tLoad) / divisor s.timer.prescale = s.timer.value.toNat ∧
      1 ≤ b.toNat ∧ b.toNat ≤ s.timer.value.toNat) ∧
    (TimerInv s.timer s.now → s.timer.state = .spinning →
      (b.toNat : Int) =
        ((s.timer.value.toNat * divisor s.timer.prescale : Nat) - (s.now - s.timer.tLoad : Nat) : Int) % 256)

/-- For every state, selector and enable, a load of count 0 leaves the timer SPINNING with its flag equal to the enable; a timer read in the same tick answers 0x00 and one TICK later 0xFF. The count-0 case is the spec's decision D8. [41_timer.md section 2 (R107), 70_reset_and_hazards.md section 3 (R171)] -/
def Obligations.ZeroCountLoadCrossesAtOnce : Prop :=
  ∀ (s : State) (sel : BitVec 2) (ie : Bool), ∃ t u v,
    exec (timerLoad s.variant sel ie 0x00) s = .next t ∧
    t.timer.state = .spinning ∧ t.timer.flag = ie ∧ (ie = true → irq t = true) ∧
    exec (timerRead s.variant) t = .next u ∧ u.dataOut = some 0x00 ∧
    exec (timerRead s.variant) (tick t) = .next v ∧ v.dataOut = some 0xFF

/-- The step that delivers TICK adds 1 to now; if the timer is COUNTING and the new now is the load tick plus the span, the timer becomes SPINNING and its flag is set if the enable is 1 (and IRQ follows), else the timer is unchanged; nothing else changes; in particular a SPINNING timer is left as it is. [R108, R109] -/
def Obligations.TickAdvancesTimeAndCrosses : Prop :=
  ∀ s : State, ∃ t, StepsTo .tick s t ∧
    t = { s with now := s.now + 1, timer := t.timer, dataOut := none } ∧
    (s.timer.state = .counting →
      s.now + 1 = s.timer.tLoad + (s.timer.value.toNat <<< prescaleShift s.timer.prescale) →
      t.timer = { s.timer with state := .spinning, flag := if s.timer.ie then true else s.timer.flag } ∧
      (s.timer.ie = true → irq t = true)) ∧
    (¬(s.timer.state = .counting ∧
      s.now + 1 = s.timer.tLoad + (s.timer.value.toNat <<< prescaleShift s.timer.prescale)) → t.timer = s.timer)

/-- For every state, selector, enable and count v, every k up to v and every j below the divisor p (j = 0 where k = v): after the load and k*p + j ticks, a timer read completes and answers v - k. [41_timer.md section 4 (R110), 95_test_vectors.md S3] -/
def Obligations.CountdownReadsCountMinusPeriods : Prop :=
  ∀ (s : State) (sel : BitVec 2) (ie : Bool) (v : Byte) (k j : Nat),
    k ≤ v.toNat → j < divisor (prescaleOf sel) → (j = 0 ∨ k < v.toNat) →
    ∃ t u, exec (timerLoad s.variant sel ie v) s = .next t ∧
      exec (timerRead s.variant) (afterTicks (k * divisor (prescaleOf sel) + j) t) = .next u ∧
      u.dataOut = some (BitVec.ofNat 8 (v.toNat - k))

/-- For every state, selector, enable and count v: after the load and n ticks, the timer flag is 1 exactly when the enable is 1 and n is at least v times the divisor; so it is set at that tick, not one earlier, and with the interrupt disabled never. [41_timer.md section 4 (R111), 95_test_vectors.md S4] -/
def Obligations.FlagSetsExactlyAtTheZeroCrossing : Prop :=
  ∀ (s : State) (sel : BitVec 2) (ie : Bool) (v : Byte), ∃ t,
    exec (timerLoad s.variant sel ie v) s = .next t ∧
    ∀ n, (afterTicks n t).timer.flag = (ie && decide (v.toNat * divisor (prescaleOf sel) ≤ n))

/-- For every state, selector, enable, count v and j: after the load and v*p + j ticks a timer read answers (-j) modulo 256; after an IFR read there, the flag stays 0 and the timer stays SPINNING for every number of further ticks. [41_timer.md section 4 (R112, R114), 95_test_vectors.md S5] -/
def Obligations.SpinWrapsWithoutFurtherInterrupts : Prop :=
  ∀ (s : State) (sel : BitVec 2) (ie : Bool) (v : Byte) (j : Nat), ∃ t u r,
    exec (timerLoad s.variant sel ie v) s = .next t ∧
    exec (timerRead s.variant) (afterTicks (v.toNat * divisor (prescaleOf sel) + j) t) = .next u ∧
    u.dataOut = some (BitVec.ofInt 8 (-(j : Int))) ∧
    exec (ifrRead s.variant) (afterTicks (v.toNat * divisor (prescaleOf sel) + j) t) = .next r ∧
    ∀ n, (afterTicks n r).timer.flag = false ∧ (afterTicks n r).timer.state = .spinning

/-- A run of n steps on a schedule that begins with n TICKs completes in the state that n TICKs in a row give, with the rest of the schedule still to come. The schedule is the model's own field (log 2). [30_encoding.md section 6 (R72), 00_scope.md section 5 (R19)] -/
def Obligations.TicksAreStepsOfTheMachine : Prop :=
  ∀ (n : Nat) (s : State) (rest : List Event),
    Host.Core.run core n (s.setSchedule (List.replicate n .tick ++ rest)) = .next ((afterTicks n s).setSchedule rest)

/-- From a SPINNING timer, every event that is no timer load, no RESET and no restore leaves it SPINNING and does not set the timer flag. [41_timer.md section 4 (R114)] -/
def Obligations.OneCrossingPerLoad : Prop :=
  ∀ (e : Event) (s t : State), deliver e s = .next t → s.timer.state = .spinning →
    loadsTimer e = false → e ≠ .reset → restores e = false →
    t.timer.state = .spinning ∧ (t.timer.flag = true → s.timer.flag = true)

/-- From an IDLE timer and an IDLE incremental timer with the same enable and flag, and for every schedule of events without a restore that the machine completes, the two agree at the end on what a timer read returns, on the state and on the interrupt flag and enable. [41_timer.md section 4 (R115)] -/
def Obligations.IncrementalFormGivesTheSameReads : Prop :=
  ∀ (es : List Event) (s t : State) (c : IncTimer),
    s.timer.state = .idle → c.state = .idle → c.ie = s.timer.ie → c.flag = s.timer.flag →
    (∀ e ∈ es, restores e = false) →
    Host.Core.run core es.length (s.setSchedule es) = .next t →
    incRead (incRun es c) = timerValue t ∧ (incRun es c).state = t.timer.state ∧
    (incRun es c).flag = t.timer.flag ∧ (incRun es c).ie = t.timer.ie

/-- The step that delivers RESET leaves an IDLE timer with its flag 0. Any number of ticks after it leaves the timer as it is, and after every schedule of events without a load or a restore that the machine completes the timer is IDLE with its flag 0; in both cases a timer read completes and answers TIMER_IDLE_VALUE (open, log 9). [70_reset_and_hazards.md section 1 (R162)] -/
def Obligations.ResetCancelsTheExpiry : Prop :=
  ∀ s : State, ∃ t, StepsTo .reset s t ∧ t.timer.state = .idle ∧ t.timer.flag = false ∧
    (∀ n, (afterTicks n t).timer = t.timer ∧ ∃ u,
      exec (timerRead s.variant) (afterTicks n t) = .next u ∧ u.dataOut = some Config.timerIdleValue) ∧
    (∀ (es : List Event) (v : State), (∀ e ∈ es, loadsTimer e = false ∧ restores e = false) →
      Host.Core.run core es.length (t.setSchedule es) = .next v →
      v.timer.state = .idle ∧ v.timer.flag = false ∧ ∃ u,
        exec (timerRead s.variant) v = .next u ∧ u.dataOut = some Config.timerIdleValue)

/-- For each of these reads, on both variants: where it answers a next state, that state differs from the one before only in the byte given back, and the same read again answers that very state. [20_memory.md section 3 (R45, R46)] -/
def Obligations.ReadsWithoutSideEffects : Prop :=
  ∀ (i : Instr) (off7 : BitVec 7) (off6 : BitVec 6) (off : RomOffset) (s t : State),
    i ∈ [.riotRdDdra, .riotRdDdrb, .riotRdTimer, .riotRdRam off7, .miotRdDdra, .miotRdDdrb, .miotRdTimer,
      .miotRdRam off6, .miotRdRom off] →
    exec i s = .next t → t = { s with dataOut := t.dataOut } ∧ exec i t = .next t

/-- With no event between: a port data read repeated answers the same byte and the same state; a repeated port, direction, edge-control or RAM write, or timer load, leaves the state the first one left; and a second IFR read answers 0x00. [20_memory.md section 3 (R46)] -/
def Obligations.RepeatedAccessesAreIdempotent : Prop :=
  (∀ (p : PortName) (s t : State), exec (portRead s.variant p) s = .next t → exec (portRead s.variant p) t = .next t) ∧
  (∀ (p : PortName) (d : Byte) (s t : State),
    exec (latchWrite s.variant p d) s = .next t → exec (latchWrite s.variant p d) t = .next t) ∧
  (∀ (p : PortName) (d : Byte) (s t : State),
    exec (ddrWrite s.variant p d) s = .next t → exec (ddrWrite s.variant p d) t = .next t) ∧
  (∀ (sel : BitVec 2) (ie : Bool) (d : Byte) (s t : State),
    exec (timerLoad s.variant sel ie d) s = .next t → exec (timerLoad s.variant sel ie d) t = .next t) ∧
  (∀ (pol : Polarity) (ie : Bool) (s t : State),
    exec (edgeWrite pol ie) s = .next t → exec (edgeWrite pol ie) t = .next t) ∧
  (∀ (off7 : BitVec 7) (off6 : BitVec 6) (d : Byte) (i : Instr) (s t : State),
    i ∈ [.riotWrRam off7 d, .miotWrRam off6 d] → exec i s = .next t → exec i t = .next t) ∧
  (∀ (s t u : State), exec (ifrRead s.variant) s = .next t → exec (ifrRead s.variant) t = .next u →
    u.dataOut = some 0x00)

/-- On RIOT, Observe sets the flag exactly if it was set or the resolved PA7 differs from the last observed level in the watched direction; the last level becomes the resolved PA7 whatever the match; polarity and enable are unchanged, and IRQ follows the new flag. On MIOT nothing changes. [R120] -/
def Obligations.EdgeComparison : Prop :=
  (∀ (s : State) (e : EdgeDetector), s.chip = .riot e → ∃ e', observe s = { s with chip := .riot e' } ∧
    e'.last = pa7Level s ∧ e'.pol = e.pol ∧ e'.ie = e.ie ∧
    (e'.flag = true ↔ e.flag = true ∨
      (pa7Level s ≠ e.last ∧ ((e.pol = .rising ∧ pa7Level s = true) ∨ (e.pol = .falling ∧ pa7Level s = false)))) ∧
    irq (observe s) = ((s.timer.flag && s.timer.ie) || (e'.flag && e.ie))) ∧
  (∀ s : State, s.chip = .miot → observe s = s)

/-- On RIOT each edge-control write completes with the polarity and the enable its offset selects and nothing else changed, memory and ports among it; IRQ is then the timer's request or the latched edge flag under the new enable. The place of polarity and enable is the spec's decision D5 (log 17). [42_edge_and_flags.md section 2 (R122, R123, R124, R125, R126), 42_edge_and_flags.md section 4 (R130)] -/
def Obligations.EdgeControlWritesConfigure : Prop :=
  ∀ (s : State) (e : EdgeDetector), s.chip = .riot e →
    exec .riotWrEdgeNeg s = .next { s with chip := .riot { e with pol := .falling, ie := false }, dataOut := none } ∧
    exec .riotWrEdgePos s = .next { s with chip := .riot { e with pol := .rising, ie := false }, dataOut := none } ∧
    exec .riotWrEdgeNegIe s = .next { s with chip := .riot { e with pol := .falling, ie := true }, dataOut := none } ∧
    exec .riotWrEdgePosIe s = .next { s with chip := .riot { e with pol := .rising, ie := true }, dataOut := none } ∧
    ∀ (pol : Polarity) (ie : Bool) (t : State), exec (edgeWrite pol ie) s = .next t →
      irq t = ((s.timer.flag && s.timer.ie) || (e.flag && ie))

/-- From a RIOT state whose edge detector has observed PA7, any edge-control write leaves the edge flag, and a comparison right after it changes nothing. [42_edge_and_flags.md section 4 (R131)] -/
def Obligations.PolarityChangeMakesNoEdge : Prop :=
  ∀ (s t : State) (e : EdgeDetector) (pol : Polarity) (ie : Bool), EdgeInv s → s.chip = .riot e →
    exec (edgeWrite pol ie) s = .next t → edgeFlag t.chip = e.flag ∧ observe t = t

/-- From a RIOT state whose edge detector has observed PA7, every event other than an IFR read, an edge-control write, a RESET and a restore sets the flag exactly if it was set or the resolved PA7 changed in the watched direction; the opposite direction never sets it. [42_edge_and_flags.md section 4 (R129), 42_edge_and_flags.md section 1 (R121)] -/
def Obligations.EdgeFlagFollowsMatchingTransitions : Prop :=
  ∀ (ev : Event) (s t : State) (e : EdgeDetector), EdgeInv s → s.chip = .riot e → deliver ev s = .next t →
    readsIfr ev = false → configuresEdge ev = false → ev ≠ .reset → restores ev = false →
    ∃ e', t.chip = .riot e' ∧ e'.pol = e.pol ∧ e'.ie = e.ie ∧
      (e'.flag = true ↔ e.flag = true ∨
        (pa7Level t ≠ pa7Level s ∧ (e.pol = .rising ↔ pa7Level t = true)))

/-- RD_IFR completes; the byte it answers has the timer flag in bit 7, the edge flag in bit 6 on RIOT (0 on MIOT) and 0 in bits 5 to 0 (the spec's decisions D13, D14); it clears both flags, so IRQ is 0; the timer's other fields, the edge detector's polarity, enable and last level, the ports and memory are unchanged. [42_edge_and_flags.md section 3 (R127, R128), 42_edge_and_flags.md section 4 (R132)] -/
def Obligations.IfrReadAnswersAndClearsBothFlags : Prop :=
  ∀ s : State, ∃ t b, RunsOn s .riotRdIfr .miotRdIfr t ∧ t.dataOut = some b ∧
    bitOf b 7 = s.timer.flag ∧
    (∀ e, s.chip = .riot e → bitOf b 6 = e.flag ∧ t.chip = .riot { e with flag := false }) ∧
    (s.chip = .miot → bitOf b 6 = false ∧ t.chip = .miot ∧ (b = 0x80 ∨ b = 0x00)) ∧
    (∀ i : Fin 8, i.val < 6 → bitOf b i = false) ∧
    irq t = false ∧
    t = { s with timer := { s.timer with flag := false }, chip := t.chip, dataOut := t.dataOut }

/-- Every access word of R134's encodings decodes to the write at its offset; on its variant the write completes for every offset and byte, the byte at that offset becomes the data, every other offset keeps its byte, no register and no flag changes, and a RAM read of the offset then answers the byte. [R134] -/
def Obligations.RamWriteStoresOneByte : Prop :=
  (∀ (off : BitVec 7) (d : Byte), decode (.ram128 (0#1 ++ off) d) = .ok (.riotWrRam off d)) ∧
  (∀ (off : BitVec 6) (d : Byte), decode (.ram64 (0#1 ++ off) d) = .ok (.miotWrRam off d)) ∧
  (∀ (s : State) (off : BitVec 7) (d : Byte), s.variant = .riot → ∃ t u,
    exec (.riotWrRam off d) s = .next t ∧ ramByte t off.toNat = d ∧
    (∀ k, k ≠ off.toNat → ramByte t k = ramByte s k) ∧
    t = { s with ram := t.ram, dataOut := none } ∧ irq t = irq s ∧
    exec (.riotRdRam off) t = .next u ∧ u.dataOut = some d) ∧
  (∀ (s : State) (off : BitVec 6) (d : Byte), s.variant = .miot → ∃ t u,
    exec (.miotWrRam off d) s = .next t ∧ ramByte t off.toNat = d ∧
    (∀ k, k ≠ off.toNat → ramByte t k = ramByte s k) ∧
    t = { s with ram := t.ram, dataOut := none } ∧ irq t = irq s ∧
    exec (.miotRdRam off) t = .next u ∧ u.dataOut = some d)

/-- On its variant RD_RAM completes for every offset; it answers the stored byte, and for an offset nothing has stored to the open RAM_INIT byte (log 10); only the byte given back changes; and a RESET changes no RAM byte. [43_ram_rom.md (R133, R138)] -/
def Obligations.RamReadAnswersTheByte : Prop :=
  (∀ (s : State) (off : BitVec 7), s.variant = .riot → ∃ b,
    exec (.riotRdRam off) s = .next { s with dataOut := some b } ∧
    (∀ c, Memory.read s.ram off.toNat = some c → b = c) ∧
    (Memory.read s.ram off.toNat = none → b = Config.ramInit off.toNat)) ∧
  (∀ (s : State) (off : BitVec 6), s.variant = .miot → ∃ b,
    exec (.miotRdRam off) s = .next { s with dataOut := some b } ∧
    (∀ c, Memory.read s.ram off.toNat = some c → b = c) ∧
    (Memory.read s.ram off.toNat = none → b = Config.ramInit off.toNat)) ∧
  (∀ (s t : State) (k : Nat), deliver .reset s = .next t → ramByte t k = ramByte s k)

/-- Every access word of R136's encoding decodes to the write with its offset; on MIOT, for every ROM_SIZE, the write completes for every offset below ROM_SIZE and every byte and changes nothing of the state (the byte given back is none, as for every write); a ROM read after it answers the byte it would have answered before, and IRQ and every RAM byte are unchanged. [R136] -/
def Obligations.RomWriteHasNoEffect : Prop :=
  (∀ (off : BitVec 10) (d : Byte), decode (.rom 10 (0#1 ++ off) d) = .ok (.miotWrRom ⟨10, off⟩ d)) ∧
  ∀ (s : State) (off : RomOffset) (d : Byte), s.variant = .miot →
    off.width = romOffsetWidth s.params.romSize → off.bits.toNat < s.params.romSize → ∃ t,
    exec (.miotWrRom off d) s = .next t ∧ t = { s with dataOut := none } ∧ irq t = irq s ∧
    (∀ k, ramByte t k = ramByte s k) ∧ ∀ k, exec (.miotRdRom k) t = exec (.miotRdRom k) s

/-- On MIOT, for every ROM_SIZE, RD_ROM completes for every offset below ROM_SIZE; it answers the supplied byte, and the open ROM_CONTENTS byte where no image was supplied (log 11); only the byte given back changes. [43_ram_rom.md (R135, R138), 10_state.md section 5 (R31), 00_scope.md section 4 (R10)] -/
def Obligations.RomReadAnswersTheContents : Prop :=
  ∀ (s : State) (off : RomOffset), s.variant = .miot →
    off.width = romOffsetWidth s.params.romSize → off.bits.toNat < s.params.romSize → ∃ b,
    exec (.miotRdRom off) s = .next { s with dataOut := some b } ∧
    (∀ c, Memory.read s.params.rom off.bits.toNat = some c → b = c) ∧
    (Memory.read s.params.rom off.bits.toNat = none → b = Config.romContents off.bits.toNat)

/-- For every operation, state and next state, every offset other than the one the operation stores to (none for the 44 operations that are no RAM write) reads the byte it read before; the same for every event but a restore. [20_memory.md section 3 (R47), 43_ram_rom.md (R134, R138)] -/
def Obligations.OnlyARamWriteChangesRam : Prop :=
  (∀ (i : Instr) (s t : State), exec i s = .next t →
    ∀ k, (∀ a, storedOffset i = some a → k ≠ a) → ramByte t k = ramByte s k) ∧
  (∀ (e : Event) (s t : State), deliver e s = .next t → restores e = false →
    ∀ k, (∀ tr i a, e = .bus tr → decode tr = .ok i → storedOffset i = some a → k ≠ a) → ramByte t k = ramByte s k)

/-- For every operation, state and next state: each port field changes only at its own write or its port's read, the timer's count, shift, load tick, enable and state only at a load, the timer flag only at a load or an IFR read, the edge detector's polarity and enable only at an edge-control write, its flag and last level only at RD_PA, WR_PA, WR_DDRA or an IFR read; the parameters, the environment, the time and the schedule never. [20_memory.md section 3 (R45, R47), 10_state.md sections 6 and 7 (R32, R33)] -/
def Obligations.OnlyTheNamedRegistersChange : Prop :=
  ∀ (i : Instr) (s t : State), exec i s = .next t →
    (t.pa.latch ≠ s.pa.latch → ∃ d, i = .riotWrPa d ∨ i = .miotWrPa d) ∧
    (t.pa.ddr ≠ s.pa.ddr → ∃ d, i = .riotWrDdra d ∨ i = .miotWrDdra d) ∧
    (t.pa.input ≠ s.pa.input → i = .riotRdPa ∨ i = .miotRdPa) ∧
    (t.pb.latch ≠ s.pb.latch → ∃ d, i = .riotWrPb d ∨ i = .miotWrPb d) ∧
    (t.pb.ddr ≠ s.pb.ddr → ∃ d, i = .riotWrDdrb d ∨ i = .miotWrDdrb d) ∧
    (t.pb.input ≠ s.pb.input → i = .riotRdPb ∨ i = .miotRdPb) ∧
    (timerLoadOf i = none → t.timer = { s.timer with flag := t.timer.flag }) ∧
    (t.timer.flag ≠ s.timer.flag → timerLoadOf i ≠ none ∨ i = .riotRdIfr ∨ i = .miotRdIfr) ∧
    (∀ e, s.chip = .riot e → ∃ e', t.chip = .riot e' ∧
      (isEdgeWrite i = false → e'.pol = e.pol ∧ e'.ie = e.ie) ∧
      (e'.flag ≠ e.flag ∨ e'.last ≠ e.last →
        i = .riotRdPa ∨ i = .riotRdIfr ∨ ∃ d, i = .riotWrPa d ∨ i = .riotWrDdra d)) ∧
    (s.chip = .miot → t.chip = .miot) ∧
    t.params = s.params ∧ t.envA = s.envA ∧ t.envB = s.envB ∧ t.now = s.now ∧ t.schedule = s.schedule

/-- For every state: IRQ is 1 exactly if the timer flag and its enable are, or on RIOT the edge flag and its enable are; on RIOT, and on MIOT with PB7_IRQ_MODE = NONE, the dedicated line carries IRQ. That 1 means asserted is the spec's decision D15. [60_exceptions.md section 2 (R144), 60_exceptions.md section 6 (R159)] -/
def Obligations.InterruptLineIsTheMaskedOr : Prop :=
  ∀ s : State,
    (irq s = true ↔ (s.timer.flag = true ∧ s.timer.ie = true) ∨
      ∃ e, s.chip = .riot e ∧ e.flag = true ∧ e.ie = true) ∧
    (Pb7Ordinary s → irqLine s = irq s)

/-- For every event that is none of these, a state with IRQ = 1 leads to a state with IRQ = 1: in particular no tick, timer read, port access, memory access or pin change acknowledges an interrupt. [60_exceptions.md section 2 (R147)] -/
def Obligations.IrqIsHeldUntilItIsCleared : Prop :=
  ∀ (e : Event) (s t : State), deliver e s = .next t → irq s = true →
    readsIfr e = false → loadsTimer e = false → configuresEdge e = false → e ≠ .reset → restores e = false →
    irq t = true

/-- If an event takes IRQ from 0 to 1, it was a TICK at which an enabled COUNTING timer crossed, a load of count 0 with the interrupt enabled, an event at which a RIOT with the edge interrupt enabled latched its edge flag, an edge-control write with the edge flag already latched, or a restore: there is no other source. [60_exceptions.md section 2 (R143), 42_edge_and_flags.md section 4 (R130)] -/
def Obligations.IrqRisesOnlyFromItsSources : Prop :=
  ∀ (e : Event) (s t : State), deliver e s = .next t → irq s = false → irq t = true →
    (e = .tick ∧ s.timer.state = .counting ∧ s.timer.ie = true ∧ t.now = timerExpiry s.timer) ∨
    (loadsTimer e = true ∧ t.timer.value = 0x00 ∧ t.timer.ie = true) ∨
    (∃ e0 e1, s.chip = .riot e0 ∧ t.chip = .riot e1 ∧ e0.ie = true ∧ e0.flag = false ∧ e1.flag = true) ∨
    (configuresEdge e = true ∧ edgeFlag s.chip = true) ∨
    restores e = true

/-- Every other event leaves the enable, the loaded count, the prescale and the load tick of the timer; there is no way to enable the interrupt of a countdown already running. [60_exceptions.md section 2 (R146), 70_reset_and_hazards.md section 3 (R169)] -/
def Obligations.TimerEnableChangesOnlyAtALoad : Prop :=
  ∀ (e : Event) (s t : State), deliver e s = .next t → loadsTimer e = false → e ≠ .reset → restores e = false →
    t.timer.ie = s.timer.ie ∧ t.timer.value = s.timer.value ∧ t.timer.prescale = s.timer.prescale ∧
    t.timer.tLoad = s.timer.tLoad

/-- The step that delivers RESET gives latches and directions 0x00, an IDLE timer with enable and flag 0, and on RIOT a FALLING, disabled, unset edge detector whose last level is PA.in[7]; the input levels, RAM, now, parameters and environment are unchanged. The edge values, IDLE and what is left unchanged are the spec's decisions D10, D12, D20, D22. [70_reset_and_hazards.md section 1 (R161, R163), 10_state.md section 10 (R38)] -/
def Obligations.ResetEventSetsTheResetValues : Prop :=
  ∀ s : State, ∃ t, StepsTo .reset s t ∧
    t.pa = { latch := 0x00, ddr := 0x00, input := s.pa.input } ∧
    t.pb = { latch := 0x00, ddr := 0x00, input := s.pb.input } ∧
    t.timer.state = .idle ∧ t.timer.ie = false ∧ t.timer.flag = false ∧
    (∀ e, s.chip = .riot e →
      t.chip = .riot { pol := .falling, ie := false, flag := false, last := bitOf s.pa.input 7 }) ∧
    (s.chip = .miot → t.chip = .miot) ∧
    t.ram = s.ram ∧ t.now = s.now ∧ t.params = s.params ∧ t.envA = s.envA ∧ t.envB = s.envB

/-- For every state: the state after RESET has IRQ = 0 and P_OE = 0x00 for both ports (Port B of a MIOT where PB7_IRQ_MODE leaves bit 7 ordinary), and RESET of it is itself. [70_reset_and_hazards.md section 1 (R164)] -/
def Obligations.ResetIsIdempotentAndQuiet : Prop :=
  ∀ s t : State, deliver .reset s = .next t →
    irq t = false ∧ portOE .a t = 0x00 ∧ (Pb7Ordinary t → portOE .b t = 0x00) ∧ deliver .reset t = .next t

/-- State.resetOf v is a chip of variant v that meets the machine's invariant, with IRQ = 0; a RESET leaves it as it is. What it holds in the fields RESET leaves alone (PA.in, PB.in, now, the unread timer fields) is the model's choice (logs 6, 7, 8), and State.reset is the RIOT by the model's choice (log 1). [70_reset_and_hazards.md section 2 (R165), 10_state.md section 10 (R38, R39)] -/
def Obligations.TheResetStateMeetsTheInvariant : Prop :=
  ∀ v : Variant,
    ChipInv (State.resetOf v) ∧ (State.resetOf v).variant = v ∧ irq (State.resetOf v) = false ∧
    deliver .reset (State.resetOf v) = .next (State.resetOf v) ∧ State.reset = State.resetOf .riot

/-- If a state meets the invariant and a step answers a next state, that state meets it: IDLE has nothing pending, COUNTING lies before its crossing with no flag, SPINNING at or after it with a flag only if enabled; the edge detector has observed the resolved PA7; the RAM list is canonical and inside its window. That the RAM is a canonical list is the model's form of it (log 10), and a restore keeps the invariant because the model refuses every snapshot that breaks it (log 16), which R176 makes the host's duty. [41_timer.md sections 2 to 4 (R105, R109, R114), 42_edge_and_flags.md sections 1 and 3 (R120, R121, R128), 10_state.md section 5 (R31), 70_reset_and_hazards.md section 4 (R176)] -/
def Obligations.EveryStepKeepsTheInvariant : Prop :=
  ∀ s t : State, ChipInv s → step s = .next t → ChipInv t

/-- From every state, whatever event the step delivers, the next state has the same variant, the same construction-time parameters (ROM_SIZE among them), and the same byte at every ROM offset. [00_scope.md section 4 (R7, R10), 10_state.md section 5 (R31)] -/
def Obligations.EveryStepKeepsTheParameters : Prop :=
  ∀ s t : State, step s = .next t →
    t.variant = s.variant ∧ t.params = s.params ∧ ∀ off, romByte t off = romByte s off

/-- For every event, state and next state: a TICK adds 1 to now; every other event leaves it, a restore excepted, which replaces it (R37); so without a restore now never decreases. [10_state.md section 4 (R29), 70_reset_and_hazards.md section 4 (R175)] -/
def Obligations.TimeMovesOnlyAtTicks : Prop :=
  ∀ (e : Event) (s t : State), deliver e s = .next t → restores e = false →
    (e = .tick → t.now = s.now + 1) ∧ (e ≠ .tick → t.now = s.now) ∧ s.now ≤ t.now

/-- A snapshot of a state of this variant that meets the invariant can be restored into any state; every field of R23, R25, R28, R29 and R31 is then the snapshot's, and the parameters and the environment stay. A snapshot of the other variant is refused. Which snapshots are refused is the model's choice (log 16). [10_state.md section 9 (R37), 70_reset_and_hazards.md section 4 (R176)] -/
def Obligations.RestoreOfASnapshotReplacesTheChip : Prop :=
  (∀ s s0 : State, ChipInv s0 → s.variant = s0.variant → ∃ t, StepsTo (.restore (snapshot s0)) s t ∧
    t.pa = s0.pa ∧ t.pb = s0.pb ∧ t.timer = s0.timer ∧ t.chip = s0.chip ∧ t.now = s0.now ∧ t.ram = s0.ram ∧
    t.params = s.params ∧ t.envA = s.envA ∧ t.envB = s.envB ∧ snapshot t = snapshot s0) ∧
  (∀ s s0 : State, s.variant ≠ s0.variant →
    deliver (.restore (snapshot s0)) s = .refused .unreachableSnapshot)

/-- For every ROM_SIZE n, the offset width is the least w with n at most 2^w; for the default 1024 it is 10. On a MIOT whose ROM_SIZE is n, a bus transaction of the ROM window completes exactly if its access word has that width and its offset is below n; no offset of a ROM whose size is a power of two lies outside. What becomes of the others is the model's choice (log 26). [30_encoding.md section 1 (R62), 20_memory.md section 4 (R48, R49), 00_scope.md section 4 (R10)] -/
def Obligations.RomOffsetWidthIsTheLeastThatFits : Prop :=
  (∀ n : Nat, n ≤ 2 ^ romOffsetWidth n ∧ ∀ w, n ≤ 2 ^ w → romOffsetWidth n ≤ w) ∧
  romOffsetWidth 1024 = 10 ∧
  (∀ (s : State) (width : Nat) (word : BitVec (width + 1)) (d : Byte), s.variant = .miot →
    ((∃ t, deliver (.bus (.rom width word d)) s = .next t) ↔
      width = romOffsetWidth s.params.romSize ∧ (word.extractLsb' 0 width).toNat < s.params.romSize)) ∧
  (∀ off : RomOffset, romWindowHas (2 ^ off.width) off = true)

/-- If an incremental timer matches a state's timer and an event that is no restore answers a next state, the incremental timer after the event matches that state's timer and reads what a timer read there returns. The match says: the same state, enable and flag; while COUNTING the counted periods and ticks are the ticks since the load; while SPINNING the count is span less those ticks, modulo 256. [41_timer.md section 4 (R115), 41_timer.md sections 2 and 3 (R105, R108)] -/
def Obligations.EveryEventKeepsTheIncrementalMatch : Prop :=
  ∀ (e : Event) (s t : State) (c : IncTimer), IncMatches c s.timer s.now → deliver e s = .next t → restores e = false →
    IncMatches (incEvent e c) t.timer t.now ∧ incRead (incEvent e c) = timerValue t
end

