-- ==== Sys2Proof/Laws/Decode.lean ====
section
/-! SUPPORT. The decoder, said once per window: the RAM and ROM tables split on the top bit of the access word, the IO tables
look at six or five bits and are settled by their words. -/

namespace Sys2Proof

/-- The top bit of an access word, masked out. -/
theorem and_topBit {n : Nat} (w : BitVec (n + 1)) :
    w &&& BitVec.twoPow (n + 1) n = if w.msb then BitVec.twoPow (n + 1) n else 0#(n + 1) := by
  rw [BitVec.and_twoPow, BitVec.msb_eq_getLsbD_last]
  rfl

/-- A RAM or ROM table: a read row and a write row that look at the top bit only. -/
theorem decodeWord_topBit {n : Nat} (w : BitVec (n + 1)) (d : Byte) (f g : BitVec (n + 1) → Byte → Instr) :
    decodeWord [⟨BitVec.twoPow (n + 1) n, BitVec.twoPow (n + 1) n, f⟩, ⟨BitVec.twoPow (n + 1) n, 0#(n + 1), g⟩] w d =
      .ok (if w.msb then f w d else g w d) := by
  have hne : (0#(n + 1) == BitVec.twoPow (n + 1) n) = false := by
    have h : ¬(0#(n + 1) = BitVec.twoPow (n + 1) n) := fun h => by
      have := congrArg (fun x : BitVec (n + 1) => x.getLsbD n) h
      simp at this
    simpa using h
  cases hm : w.msb with
  | true => simp [decodeWord, selects, and_topBit, hm]
  | false => simp [decodeWord, selects, and_topBit, hm, hne]

theorem decode_ram128 (w : BitVec 8) (d : Byte) :
    decode (.ram128 w d) = .ok (if w.msb then .riotRdRam (w.setWidth 7) else .riotWrRam (w.setWidth 7) d) :=
  decodeWord_topBit (n := 7) w d _ _

theorem decode_ram64 (w : BitVec 7) (d : Byte) :
    decode (.ram64 w d) = .ok (if w.msb then .miotRdRam (w.setWidth 6) else .miotWrRam (w.setWidth 6) d) :=
  decodeWord_topBit (n := 6) w d _ _

theorem decode_rom (n : Nat) (w : BitVec (n + 1)) (d : Byte) :
    decode (.rom n w d) = .ok (if w.msb then .miotRdRom ⟨n, w.setWidth n⟩ else .miotWrRom ⟨n, w.setWidth n⟩ d) :=
  decodeWord_topBit w d _ _

/-- An access word's top bit is the read bit (R61). -/
theorem accessWord_msb {w : Nat} (r : Bool) (off : BitVec w) : (accessWord r off).msb = r := by
  cases w with
  | zero => cases r <;> simp [accessWord, Subsingleton.elim off 0#0]
  | succ n => simp [accessWord, BitVec.msb_append]

/-- An access word's low bits are the offset (R61). -/
theorem accessWord_offset {w : Nat} (r : Bool) (off : BitVec w) : (accessWord r off).setWidth w = off := by
  simp [accessWord, BitVec.setWidth_append]

/-- What a table decodes a word to is one of its rows' operations. -/
theorem decodeWord_mem {n : Nat} (rows : List (DecodeRow n)) (w : BitVec n) (d : Byte) (i : Instr)
    (h : decodeWord rows w d = .ok i) : ∃ r ∈ rows, i = r.make w d := by
  unfold decodeWord at h
  split at h
  · rename_i r hr
    injection h with h
    exact ⟨r, List.mem_of_find?_eq_some hr, h.symm⟩
  · cases h

/-- A transaction's top bit says the same as its access word's value. -/
theorem wordIsRead_eq (t : Transaction) : wordIsRead t.format (transactionWord t) = transactionIsRead t := by
  cases t <;> simp only [wordIsRead, transactionIsRead, transactionWord, Transaction.format, formatWidth, BitVec.msb_eq_decide] <;>
    rfl

/-- An access word is below its format's size (R49). -/
theorem transactionWord_lt (t : Transaction) : transactionWord t < 2 ^ formatWidth t.format := by
  cases t with
  | io32 w _ => exact w.isLt
  | io16 w _ => exact w.isLt
  | ram128 w _ => exact w.isLt
  | ram64 w _ => exact w.isLt
  | rom n w _ => exact w.isLt

/-- A format's access word fits its bytes. -/
theorem formatWidth_le_bytes (f : Format) : 2 ^ formatWidth f ≤ 256 ^ formatBytes f := by
  have h : (256 : Nat) = 2 ^ 8 := rfl
  rw [h, ← Nat.pow_mul]
  refine Nat.pow_le_pow_right (by omega) ?_
  simp only [formatBytes]
  omega

/-- Reading back a number written as bytes. -/
theorem takeWord_wordBytes (n w : Nat) (rest : List Byte) (h : w < 256 ^ n) :
    takeWord n (wordBytes n w ++ rest) = .ok (w, rest) := by
  induction n generalizing w with
  | zero =>
    have h0 : w = 0 := by simpa using h
    rw [h0]
    rfl
  | succ n ih =>
    have h' : w / 256 < 256 ^ n := by
      rw [Nat.pow_succ] at h
      omega
    simp only [wordBytes, List.cons_append, takeWord, ih _ h', BitVec.toNat_ofNat]
    have hw : w % 2 ^ 8 + 256 * (w / 256) = w := by omega
    rw [hw]

/-- A transaction is made of its format, its access word and its data lane. -/
theorem transactionOf_parts (t : Transaction) :
    transactionOf t.format (transactionWord t) (transactionData t) = t := by
  cases t <;> simp [transactionOf, Transaction.format, transactionWord, transactionData]

end Sys2Proof
end

