-- ==== Sys2Proof/Laws/Memory.lean ====
section
/-! SUPPORT. The laws of memory cells: read after write, and the canonical form kept. -/

namespace Sys2Proof.Machine

/-- A read of the offset just written gives the byte written. -/
theorem Memory.read_write_same (m : Memory) (k : Nat) (v : Byte) :
    Memory.read (Memory.write m k v) k = some v := by
  induction m with
  | nil => simp [Memory.write, Memory.read]
  | cons c rest ih =>
    obtain ⟨a, b⟩ := c
    simp only [Memory.write]
    split
    · simp [Memory.read]
    · split
      · simp [Memory.read]
      · rename_i hne
        simp [Memory.read, hne, ih]

/-- A write leaves every other offset as it was. -/
theorem Memory.read_write_other (m : Memory) (k j : Nat) (v : Byte) (h : j ≠ k) :
    Memory.read (Memory.write m k v) j = Memory.read m j := by
  induction m with
  | nil => simp [Memory.write, Memory.read, h]
  | cons c rest ih =>
    obtain ⟨a, b⟩ := c
    simp only [Memory.write]
    split
    · simp [Memory.read, h]
    · split
      · rename_i hk
        subst hk
        simp [Memory.read, h]
      · simp [Memory.read, ih]

/-- A write at or above a bound keeps the offsets rising from it. -/
theorem Memory.rising_write (m : Memory) (lo k : Nat) (v : Byte) (hm : Memory.rising lo m = true) (hk : lo ≤ k) :
    Memory.rising lo (Memory.write m k v) = true := by
  induction m generalizing lo with
  | nil => simp [Memory.write, Memory.rising, hk]
  | cons c rest ih =>
    obtain ⟨a, b⟩ := c
    simp only [Memory.rising, Bool.and_eq_true, decide_eq_true_eq] at hm
    simp only [Memory.write]
    split
    · rename_i hlt
      simp only [Memory.rising, Bool.and_eq_true, decide_eq_true_eq]
      exact ⟨hk, hlt, hm.2⟩
    · split
      · rename_i hk'
        subst hk'
        simp only [Memory.rising, Bool.and_eq_true, decide_eq_true_eq]
        exact ⟨hk, hm.2⟩
      · simp only [Memory.rising, Bool.and_eq_true, decide_eq_true_eq]
        exact ⟨hm.1, ih _ hm.2 (by omega)⟩

/-- A write keeps the canonical form. -/
theorem Memory.wf_write (m : Memory) (k : Nat) (v : Byte) (hm : Memory.wf m = true) :
    Memory.wf (Memory.write m k v) = true :=
  Memory.rising_write m 0 k v hm (Nat.zero_le k)

/-- What a written memory lists: the new cell and cells it listed before. -/
theorem Memory.mem_write (m : Memory) (k : Nat) (v : Byte) (c : Host.Cell) (hc : c ∈ Memory.write m k v) :
    c = (k, v) ∨ c ∈ m := by
  induction m with
  | nil => simp_all [Memory.write]
  | cons d rest ih =>
    obtain ⟨a, b⟩ := d
    simp only [Memory.write] at hc
    split at hc
    · simpa using hc
    · split at hc
      · simp only [List.mem_cons] at hc ⊢
        tauto
      · simp only [List.mem_cons] at hc ⊢
        tauto

/-- The reset memory has the canonical form. -/
theorem Memory.wf_reset (v : Variant) : Memory.wf (State.resetOf v).ram = true := rfl

/-- In a memory whose offsets rise from `lo`, nothing is listed below `lo`. -/
theorem Memory.read_below (m : Memory) (lo k : Nat) (hm : Memory.rising lo m = true) (hk : k < lo) :
    Memory.read m k = none := by
  induction m generalizing lo with
  | nil => rfl
  | cons c rest ih =>
    obtain ⟨a, b⟩ := c
    simp only [Memory.rising, Bool.and_eq_true, decide_eq_true_eq] at hm
    have hne : k ≠ a := by omega
    simp only [Memory.read, hne, if_false]
    exact ih _ hm.2 (by omega)

/-- Equal memories are equal data: two canonical lists with the same byte at every offset are the same list. -/
theorem Memory.ext_of_rising (m n : Memory) (lo : Nat) (hm : Memory.rising lo m = true) (hn : Memory.rising lo n = true)
    (h : ∀ k, Memory.read m k = Memory.read n k) : m = n := by
  induction m generalizing n lo with
  | nil =>
    cases n with
    | nil => rfl
    | cons d r => obtain ⟨a, b⟩ := d; simpa [Memory.read] using h a
  | cons c rest ih =>
    obtain ⟨a, b⟩ := c
    simp only [Memory.rising, Bool.and_eq_true, decide_eq_true_eq] at hm
    cases n with
    | nil => simpa [Memory.read] using h a
    | cons d r =>
      obtain ⟨a', b'⟩ := d
      simp only [Memory.rising, Bool.and_eq_true, decide_eq_true_eq] at hn
      have haa : a = a' := by
        rcases Nat.lt_trichotomy a a' with hlt | heq | hgt
        · have := h a
          have hne : a ≠ a' := by omega
          simp [Memory.read, hne, Memory.read_below r _ a hn.2 (by omega)] at this
        · exact heq
        · have := h a'
          have hne : a' ≠ a := by omega
          simp [Memory.read, hne, Memory.read_below rest _ a' hm.2 (by omega)] at this
      subst haa
      have hb : b = b' := by simpa [Memory.read] using h a
      subst hb
      have hrest : rest = r := by
        refine ih r (a + 1) hm.2 hn.2 (fun k => ?_)
        by_cases hk : k = a
        · subst hk
          rw [Memory.read_below rest _ k hm.2 (by omega), Memory.read_below r _ k hn.2 (by omega)]
        · simpa [Memory.read, hk] using h k
      rw [hrest]

end Sys2Proof.Machine
end

