-- ==== Sys2Proof/Laws/State.lean ====
section
/-! SUPPORT. One lemma per field of State per update, so that no later proof unfolds a record update. -/

namespace Sys2Proof.Machine

@[simp] theorem State.setChip_params (s : State) (x : Chip) : (s.setChip x).params = s.params := rfl
@[simp] theorem State.setChip_chip (s : State) (x : Chip) : (s.setChip x).chip = x := rfl
@[simp] theorem State.setChip_pa (s : State) (x : Chip) : (s.setChip x).pa = s.pa := rfl
@[simp] theorem State.setChip_pb (s : State) (x : Chip) : (s.setChip x).pb = s.pb := rfl
@[simp] theorem State.setChip_envA (s : State) (x : Chip) : (s.setChip x).envA = s.envA := rfl
@[simp] theorem State.setChip_envB (s : State) (x : Chip) : (s.setChip x).envB = s.envB := rfl
@[simp] theorem State.setChip_timer (s : State) (x : Chip) : (s.setChip x).timer = s.timer := rfl
@[simp] theorem State.setChip_ram (s : State) (x : Chip) : (s.setChip x).ram = s.ram := rfl
@[simp] theorem State.setChip_now (s : State) (x : Chip) : (s.setChip x).now = s.now := rfl
@[simp] theorem State.setChip_dataOut (s : State) (x : Chip) : (s.setChip x).dataOut = s.dataOut := rfl
@[simp] theorem State.setChip_schedule (s : State) (x : Chip) : (s.setChip x).schedule = s.schedule := rfl
theorem State.setChip_self (s : State) : s.setChip s.chip = s := rfl
@[simp] theorem State.setChip_setChip (s : State) (x y : Chip) : (s.setChip x).setChip y = s.setChip y := rfl
@[simp] theorem State.setChip_variant (s : State) (x : Chip) : (s.setChip x).variant = x.variant := rfl

@[simp] theorem State.setRomSize_params (s : State) (x : Nat) : (s.setRomSize x).params = { s.params with romSize := x } := rfl
@[simp] theorem State.setRomSize_chip (s : State) (x : Nat) : (s.setRomSize x).chip = s.chip := rfl
@[simp] theorem State.setRomSize_pa (s : State) (x : Nat) : (s.setRomSize x).pa = s.pa := rfl
@[simp] theorem State.setRomSize_pb (s : State) (x : Nat) : (s.setRomSize x).pb = s.pb := rfl
@[simp] theorem State.setRomSize_envA (s : State) (x : Nat) : (s.setRomSize x).envA = s.envA := rfl
@[simp] theorem State.setRomSize_envB (s : State) (x : Nat) : (s.setRomSize x).envB = s.envB := rfl
@[simp] theorem State.setRomSize_timer (s : State) (x : Nat) : (s.setRomSize x).timer = s.timer := rfl
@[simp] theorem State.setRomSize_ram (s : State) (x : Nat) : (s.setRomSize x).ram = s.ram := rfl
@[simp] theorem State.setRomSize_now (s : State) (x : Nat) : (s.setRomSize x).now = s.now := rfl
@[simp] theorem State.setRomSize_dataOut (s : State) (x : Nat) : (s.setRomSize x).dataOut = s.dataOut := rfl
@[simp] theorem State.setRomSize_schedule (s : State) (x : Nat) : (s.setRomSize x).schedule = s.schedule := rfl
theorem State.setRomSize_self (s : State) : s.setRomSize s.params.romSize = s := rfl
@[simp] theorem State.setRomSize_setRomSize (s : State) (x y : Nat) : (s.setRomSize x).setRomSize y = s.setRomSize y := rfl
@[simp] theorem State.setRomSize_variant (s : State) (x : Nat) : (s.setRomSize x).variant = s.variant := rfl

@[simp] theorem State.setPa_params (s : State) (x : Port) : (s.setPa x).params = s.params := rfl
@[simp] theorem State.setPa_chip (s : State) (x : Port) : (s.setPa x).chip = s.chip := rfl
@[simp] theorem State.setPa_pa (s : State) (x : Port) : (s.setPa x).pa = x := rfl
@[simp] theorem State.setPa_pb (s : State) (x : Port) : (s.setPa x).pb = s.pb := rfl
@[simp] theorem State.setPa_envA (s : State) (x : Port) : (s.setPa x).envA = s.envA := rfl
@[simp] theorem State.setPa_envB (s : State) (x : Port) : (s.setPa x).envB = s.envB := rfl
@[simp] theorem State.setPa_timer (s : State) (x : Port) : (s.setPa x).timer = s.timer := rfl
@[simp] theorem State.setPa_ram (s : State) (x : Port) : (s.setPa x).ram = s.ram := rfl
@[simp] theorem State.setPa_now (s : State) (x : Port) : (s.setPa x).now = s.now := rfl
@[simp] theorem State.setPa_dataOut (s : State) (x : Port) : (s.setPa x).dataOut = s.dataOut := rfl
@[simp] theorem State.setPa_schedule (s : State) (x : Port) : (s.setPa x).schedule = s.schedule := rfl
theorem State.setPa_self (s : State) : s.setPa s.pa = s := rfl
@[simp] theorem State.setPa_setPa (s : State) (x y : Port) : (s.setPa x).setPa y = s.setPa y := rfl
@[simp] theorem State.setPa_variant (s : State) (x : Port) : (s.setPa x).variant = s.variant := rfl

@[simp] theorem State.setPb_params (s : State) (x : Port) : (s.setPb x).params = s.params := rfl
@[simp] theorem State.setPb_chip (s : State) (x : Port) : (s.setPb x).chip = s.chip := rfl
@[simp] theorem State.setPb_pa (s : State) (x : Port) : (s.setPb x).pa = s.pa := rfl
@[simp] theorem State.setPb_pb (s : State) (x : Port) : (s.setPb x).pb = x := rfl
@[simp] theorem State.setPb_envA (s : State) (x : Port) : (s.setPb x).envA = s.envA := rfl
@[simp] theorem State.setPb_envB (s : State) (x : Port) : (s.setPb x).envB = s.envB := rfl
@[simp] theorem State.setPb_timer (s : State) (x : Port) : (s.setPb x).timer = s.timer := rfl
@[simp] theorem State.setPb_ram (s : State) (x : Port) : (s.setPb x).ram = s.ram := rfl
@[simp] theorem State.setPb_now (s : State) (x : Port) : (s.setPb x).now = s.now := rfl
@[simp] theorem State.setPb_dataOut (s : State) (x : Port) : (s.setPb x).dataOut = s.dataOut := rfl
@[simp] theorem State.setPb_schedule (s : State) (x : Port) : (s.setPb x).schedule = s.schedule := rfl
theorem State.setPb_self (s : State) : s.setPb s.pb = s := rfl
@[simp] theorem State.setPb_setPb (s : State) (x y : Port) : (s.setPb x).setPb y = s.setPb y := rfl
@[simp] theorem State.setPb_variant (s : State) (x : Port) : (s.setPb x).variant = s.variant := rfl

@[simp] theorem State.setEnvA_params (s : State) (x : Pins) : (s.setEnvA x).params = s.params := rfl
@[simp] theorem State.setEnvA_chip (s : State) (x : Pins) : (s.setEnvA x).chip = s.chip := rfl
@[simp] theorem State.setEnvA_pa (s : State) (x : Pins) : (s.setEnvA x).pa = s.pa := rfl
@[simp] theorem State.setEnvA_pb (s : State) (x : Pins) : (s.setEnvA x).pb = s.pb := rfl
@[simp] theorem State.setEnvA_envA (s : State) (x : Pins) : (s.setEnvA x).envA = x := rfl
@[simp] theorem State.setEnvA_envB (s : State) (x : Pins) : (s.setEnvA x).envB = s.envB := rfl
@[simp] theorem State.setEnvA_timer (s : State) (x : Pins) : (s.setEnvA x).timer = s.timer := rfl
@[simp] theorem State.setEnvA_ram (s : State) (x : Pins) : (s.setEnvA x).ram = s.ram := rfl
@[simp] theorem State.setEnvA_now (s : State) (x : Pins) : (s.setEnvA x).now = s.now := rfl
@[simp] theorem State.setEnvA_dataOut (s : State) (x : Pins) : (s.setEnvA x).dataOut = s.dataOut := rfl
@[simp] theorem State.setEnvA_schedule (s : State) (x : Pins) : (s.setEnvA x).schedule = s.schedule := rfl
theorem State.setEnvA_self (s : State) : s.setEnvA s.envA = s := rfl
@[simp] theorem State.setEnvA_setEnvA (s : State) (x y : Pins) : (s.setEnvA x).setEnvA y = s.setEnvA y := rfl
@[simp] theorem State.setEnvA_variant (s : State) (x : Pins) : (s.setEnvA x).variant = s.variant := rfl

@[simp] theorem State.setEnvB_params (s : State) (x : Pins) : (s.setEnvB x).params = s.params := rfl
@[simp] theorem State.setEnvB_chip (s : State) (x : Pins) : (s.setEnvB x).chip = s.chip := rfl
@[simp] theorem State.setEnvB_pa (s : State) (x : Pins) : (s.setEnvB x).pa = s.pa := rfl
@[simp] theorem State.setEnvB_pb (s : State) (x : Pins) : (s.setEnvB x).pb = s.pb := rfl
@[simp] theorem State.setEnvB_envA (s : State) (x : Pins) : (s.setEnvB x).envA = s.envA := rfl
@[simp] theorem State.setEnvB_envB (s : State) (x : Pins) : (s.setEnvB x).envB = x := rfl
@[simp] theorem State.setEnvB_timer (s : State) (x : Pins) : (s.setEnvB x).timer = s.timer := rfl
@[simp] theorem State.setEnvB_ram (s : State) (x : Pins) : (s.setEnvB x).ram = s.ram := rfl
@[simp] theorem State.setEnvB_now (s : State) (x : Pins) : (s.setEnvB x).now = s.now := rfl
@[simp] theorem State.setEnvB_dataOut (s : State) (x : Pins) : (s.setEnvB x).dataOut = s.dataOut := rfl
@[simp] theorem State.setEnvB_schedule (s : State) (x : Pins) : (s.setEnvB x).schedule = s.schedule := rfl
theorem State.setEnvB_self (s : State) : s.setEnvB s.envB = s := rfl
@[simp] theorem State.setEnvB_setEnvB (s : State) (x y : Pins) : (s.setEnvB x).setEnvB y = s.setEnvB y := rfl
@[simp] theorem State.setEnvB_variant (s : State) (x : Pins) : (s.setEnvB x).variant = s.variant := rfl

@[simp] theorem State.setTimer_params (s : State) (x : Timer) : (s.setTimer x).params = s.params := rfl
@[simp] theorem State.setTimer_chip (s : State) (x : Timer) : (s.setTimer x).chip = s.chip := rfl
@[simp] theorem State.setTimer_pa (s : State) (x : Timer) : (s.setTimer x).pa = s.pa := rfl
@[simp] theorem State.setTimer_pb (s : State) (x : Timer) : (s.setTimer x).pb = s.pb := rfl
@[simp] theorem State.setTimer_envA (s : State) (x : Timer) : (s.setTimer x).envA = s.envA := rfl
@[simp] theorem State.setTimer_envB (s : State) (x : Timer) : (s.setTimer x).envB = s.envB := rfl
@[simp] theorem State.setTimer_timer (s : State) (x : Timer) : (s.setTimer x).timer = x := rfl
@[simp] theorem State.setTimer_ram (s : State) (x : Timer) : (s.setTimer x).ram = s.ram := rfl
@[simp] theorem State.setTimer_now (s : State) (x : Timer) : (s.setTimer x).now = s.now := rfl
@[simp] theorem State.setTimer_dataOut (s : State) (x : Timer) : (s.setTimer x).dataOut = s.dataOut := rfl
@[simp] theorem State.setTimer_schedule (s : State) (x : Timer) : (s.setTimer x).schedule = s.schedule := rfl
theorem State.setTimer_self (s : State) : s.setTimer s.timer = s := rfl
@[simp] theorem State.setTimer_setTimer (s : State) (x y : Timer) : (s.setTimer x).setTimer y = s.setTimer y := rfl
@[simp] theorem State.setTimer_variant (s : State) (x : Timer) : (s.setTimer x).variant = s.variant := rfl

@[simp] theorem State.setRam_params (s : State) (x : Memory) : (s.setRam x).params = s.params := rfl
@[simp] theorem State.setRam_chip (s : State) (x : Memory) : (s.setRam x).chip = s.chip := rfl
@[simp] theorem State.setRam_pa (s : State) (x : Memory) : (s.setRam x).pa = s.pa := rfl
@[simp] theorem State.setRam_pb (s : State) (x : Memory) : (s.setRam x).pb = s.pb := rfl
@[simp] theorem State.setRam_envA (s : State) (x : Memory) : (s.setRam x).envA = s.envA := rfl
@[simp] theorem State.setRam_envB (s : State) (x : Memory) : (s.setRam x).envB = s.envB := rfl
@[simp] theorem State.setRam_timer (s : State) (x : Memory) : (s.setRam x).timer = s.timer := rfl
@[simp] theorem State.setRam_ram (s : State) (x : Memory) : (s.setRam x).ram = x := rfl
@[simp] theorem State.setRam_now (s : State) (x : Memory) : (s.setRam x).now = s.now := rfl
@[simp] theorem State.setRam_dataOut (s : State) (x : Memory) : (s.setRam x).dataOut = s.dataOut := rfl
@[simp] theorem State.setRam_schedule (s : State) (x : Memory) : (s.setRam x).schedule = s.schedule := rfl
theorem State.setRam_self (s : State) : s.setRam s.ram = s := rfl
@[simp] theorem State.setRam_setRam (s : State) (x y : Memory) : (s.setRam x).setRam y = s.setRam y := rfl
@[simp] theorem State.setRam_variant (s : State) (x : Memory) : (s.setRam x).variant = s.variant := rfl

@[simp] theorem State.setNow_params (s : State) (x : Nat) : (s.setNow x).params = s.params := rfl
@[simp] theorem State.setNow_chip (s : State) (x : Nat) : (s.setNow x).chip = s.chip := rfl
@[simp] theorem State.setNow_pa (s : State) (x : Nat) : (s.setNow x).pa = s.pa := rfl
@[simp] theorem State.setNow_pb (s : State) (x : Nat) : (s.setNow x).pb = s.pb := rfl
@[simp] theorem State.setNow_envA (s : State) (x : Nat) : (s.setNow x).envA = s.envA := rfl
@[simp] theorem State.setNow_envB (s : State) (x : Nat) : (s.setNow x).envB = s.envB := rfl
@[simp] theorem State.setNow_timer (s : State) (x : Nat) : (s.setNow x).timer = s.timer := rfl
@[simp] theorem State.setNow_ram (s : State) (x : Nat) : (s.setNow x).ram = s.ram := rfl
@[simp] theorem State.setNow_now (s : State) (x : Nat) : (s.setNow x).now = x := rfl
@[simp] theorem State.setNow_dataOut (s : State) (x : Nat) : (s.setNow x).dataOut = s.dataOut := rfl
@[simp] theorem State.setNow_schedule (s : State) (x : Nat) : (s.setNow x).schedule = s.schedule := rfl
theorem State.setNow_self (s : State) : s.setNow s.now = s := rfl
@[simp] theorem State.setNow_setNow (s : State) (x y : Nat) : (s.setNow x).setNow y = s.setNow y := rfl
@[simp] theorem State.setNow_variant (s : State) (x : Nat) : (s.setNow x).variant = s.variant := rfl

@[simp] theorem State.setDataOut_params (s : State) (x : Option Byte) : (s.setDataOut x).params = s.params := rfl
@[simp] theorem State.setDataOut_chip (s : State) (x : Option Byte) : (s.setDataOut x).chip = s.chip := rfl
@[simp] theorem State.setDataOut_pa (s : State) (x : Option Byte) : (s.setDataOut x).pa = s.pa := rfl
@[simp] theorem State.setDataOut_pb (s : State) (x : Option Byte) : (s.setDataOut x).pb = s.pb := rfl
@[simp] theorem State.setDataOut_envA (s : State) (x : Option Byte) : (s.setDataOut x).envA = s.envA := rfl
@[simp] theorem State.setDataOut_envB (s : State) (x : Option Byte) : (s.setDataOut x).envB = s.envB := rfl
@[simp] theorem State.setDataOut_timer (s : State) (x : Option Byte) : (s.setDataOut x).timer = s.timer := rfl
@[simp] theorem State.setDataOut_ram (s : State) (x : Option Byte) : (s.setDataOut x).ram = s.ram := rfl
@[simp] theorem State.setDataOut_now (s : State) (x : Option Byte) : (s.setDataOut x).now = s.now := rfl
@[simp] theorem State.setDataOut_dataOut (s : State) (x : Option Byte) : (s.setDataOut x).dataOut = x := rfl
@[simp] theorem State.setDataOut_schedule (s : State) (x : Option Byte) : (s.setDataOut x).schedule = s.schedule := rfl
theorem State.setDataOut_self (s : State) : s.setDataOut s.dataOut = s := rfl
@[simp] theorem State.setDataOut_setDataOut (s : State) (x y : Option Byte) : (s.setDataOut x).setDataOut y = s.setDataOut y := rfl
@[simp] theorem State.setDataOut_variant (s : State) (x : Option Byte) : (s.setDataOut x).variant = s.variant := rfl

@[simp] theorem State.setSchedule_params (s : State) (x : List Event) : (s.setSchedule x).params = s.params := rfl
@[simp] theorem State.setSchedule_chip (s : State) (x : List Event) : (s.setSchedule x).chip = s.chip := rfl
@[simp] theorem State.setSchedule_pa (s : State) (x : List Event) : (s.setSchedule x).pa = s.pa := rfl
@[simp] theorem State.setSchedule_pb (s : State) (x : List Event) : (s.setSchedule x).pb = s.pb := rfl
@[simp] theorem State.setSchedule_envA (s : State) (x : List Event) : (s.setSchedule x).envA = s.envA := rfl
@[simp] theorem State.setSchedule_envB (s : State) (x : List Event) : (s.setSchedule x).envB = s.envB := rfl
@[simp] theorem State.setSchedule_timer (s : State) (x : List Event) : (s.setSchedule x).timer = s.timer := rfl
@[simp] theorem State.setSchedule_ram (s : State) (x : List Event) : (s.setSchedule x).ram = s.ram := rfl
@[simp] theorem State.setSchedule_now (s : State) (x : List Event) : (s.setSchedule x).now = s.now := rfl
@[simp] theorem State.setSchedule_dataOut (s : State) (x : List Event) : (s.setSchedule x).dataOut = s.dataOut := rfl
@[simp] theorem State.setSchedule_schedule (s : State) (x : List Event) : (s.setSchedule x).schedule = x := rfl
theorem State.setSchedule_self (s : State) : s.setSchedule s.schedule = s := rfl
@[simp] theorem State.setSchedule_setSchedule (s : State) (x y : List Event) : (s.setSchedule x).setSchedule y = s.setSchedule y := rfl
@[simp] theorem State.setSchedule_variant (s : State) (x : List Event) : (s.setSchedule x).variant = s.variant := rfl

@[simp] theorem Chip.variant_miot : Chip.miot.variant = .miot := rfl
@[simp] theorem Chip.variant_riot (e : EdgeDetector) : (Chip.riot e).variant = .riot := rfl

theorem State.variant_eq (s : State) : s.variant = s.chip.variant := rfl

/-- A chip is of one of the two variants, and a RIOT has its edge detector. -/
theorem State.chip_cases (s : State) :
    (s.chip = .miot ∧ s.variant = .miot) ∨ ∃ e, s.chip = .riot e ∧ s.variant = .riot := by
  cases h : s.chip with
  | miot => exact .inl ⟨rfl, by simp [State.variant, h]⟩
  | riot e => exact .inr ⟨e, rfl, by simp [State.variant, h]⟩

theorem Chip.afterReset_variant (v : Variant) : (Chip.afterReset v).variant = v := by
  cases v <;> rfl

@[simp] theorem State.resetOf_variant (v : Variant) : (State.resetOf v).variant = v := by
  cases v <;> rfl

end Sys2Proof.Machine
end

