-- ==== Sys2Proof/Laws/Ops.lean ====
section
/-! SUPPORT. One lemma per shared operation that says everything it can do; proofs cite these and do not unfold the
operations. -/

namespace Sys2Proof.Machine

/-! ## Bits -/

/-- Bit by bit, `pick` is the choice of R18. -/
theorem bitOf_pick (m a b : Byte) (i : Fin 8) : bitOf (pick m a b) i = if bitOf m i then bitOf a i else bitOf b i := by
  have hi : i.val < 8 := i.isLt
  simp only [bitOf, pick, BitVec.getLsbD_or, BitVec.getLsbD_and, BitVec.getLsbD_not]
  rcases Bool.eq_false_or_eq_true (m.getLsbD i.val) with h | h <;>
    simp only [h, hi, decide_true, Bool.not_true, Bool.not_false, Bool.and_true, Bool.and_false, Bool.or_false,
      Bool.false_or, Bool.false_eq_true, if_true, if_false]

/-- `withBit` replaces one bit and keeps the others. -/
theorem bitOf_withBit (v : Byte) (i j : Fin 8) (b : Bool) : bitOf (withBit v i b) j = if j = i then b else bitOf v j := by
  have hj : j.val < 8 := j.isLt
  have hone : (1#8 <<< i.val).getLsbD j.val = decide (j = i) := by
    revert i j; decide
  cases b
  · simp only [bitOf, withBit, Bool.false_eq_true, if_false, BitVec.getLsbD_and, BitVec.getLsbD_not, hone]
    by_cases h : j = i <;> simp [h, hj]
  · simp only [bitOf, withBit, if_true, BitVec.getLsbD_or, hone]
    by_cases h : j = i <;> simp [h]

/-- Two bytes with the same bits are the same byte. -/
theorem byte_ext (a b : Byte) (h : ∀ i : Fin 8, bitOf a i = bitOf b i) : a = b := by
  apply BitVec.eq_of_getLsbD_eq
  intro i hi
  exact h ⟨i, hi⟩

theorem bitOf_fill (level : Bool) (i : Fin 8) : bitOf (fill level) i = level := by
  revert i; cases level <;> decide

/-! ## The bus -/

/-- An operation of a variant's table answers a next state exactly on that variant. -/
theorem onVariant_next_iff (v : Variant) (f : State → State) (s t : State) :
    onVariant v f s = .next t ↔ s.variant = v ∧ t = f s := by
  unfold onVariant
  split
  · rename_i h
    exact ⟨fun e => ⟨h, by injection e with e; exact e.symm⟩, fun e => by rw [e.2]⟩
  · rename_i h
    exact ⟨fun e => (by cases e), fun e => absurd e.1 h⟩

theorem onVariant_eq (v : Variant) (f : State → State) (s : State) (h : s.variant = v) : onVariant v f s = .next (f s) := by
  simp [onVariant, h]

theorem onVariant_other (v : Variant) (f : State → State) (s : State) (h : s.variant ≠ v) :
    onVariant v f s = .fault .notOnThisVariant := by
  simp [onVariant, h]

/-- R48, R62: the offsets of a ROM window. -/
theorem romWindowHas_iff (romSize : Nat) (off : RomOffset) :
    romWindowHas romSize off = true ↔ off.width = romOffsetWidth romSize ∧ off.bits.toNat < romSize := by
  simp [romWindowHas]

/-- A ROM operation answers a next state exactly on a MIOT whose ROM window has its offset. -/
theorem onRomWindow_next_iff (off : RomOffset) (f : State → State) (s t : State) :
    onRomWindow off f s = .next t ↔
      s.variant = .miot ∧ romWindowHas s.params.romSize off = true ∧ t = f s := by
  unfold onRomWindow
  cases hv : s.variant <;> cases hw : romWindowHas s.params.romSize off <;> simp [eq_comm]

/-- Outside the ROM window a ROM operation faults. -/
theorem onRomWindow_outside (off : RomOffset) (f : State → State) (s : State) (hv : s.variant = .miot)
    (hw : romWindowHas s.params.romSize off = false) : onRomWindow off f s = .fault .outsideRomWindow := by
  simp [onRomWindow, hv, hw]

theorem answer_eq (b : Byte) (s : State) : answer b s = { s with dataOut := some b } := rfl

theorem silent_eq (s : State) : silent s = { s with dataOut := none } := rfl

/-! ## Edge detector -/

@[simp] theorem mapChip_variant (f : EdgeDetector → EdgeDetector) (c : Chip) : (mapChip f c).variant = c.variant := by
  cases c <;> rfl

theorem mapEdge_eq (f : EdgeDetector → EdgeDetector) (s : State) : mapEdge f s = { s with chip := mapChip f s.chip } := rfl

theorem pa7Level_eq_resolved (s : State) : pa7Level s = bitOf (resolved s.pa) 7 := by
  simp [pa7Level, resolved, bitOf_pick]

/-- R120: the edge comparison, in the form the statements use. -/
theorem mapChip_compareEdge (level : Bool) (c : Chip) : mapChip (compareEdge level) c = observedChip level c := by
  cases c with
  | miot => rfl
  | riot e =>
    obtain ⟨pol, ie, flag, last⟩ := e
    cases level <;> cases last <;> cases pol <;> cases flag <;> rfl

theorem observe_eq (s : State) : observe s = { s with chip := observedChip (pa7Level s) s.chip } := by
  simp only [observe, mapEdge_eq, mapChip_compareEdge]

@[simp] theorem observedChip_variant (level : Bool) (c : Chip) : (observedChip level c).variant = c.variant := by
  cases c <;> rfl

/-- R131: a comparison that sees the level it saw last changes nothing. -/
theorem observedChip_same (level : Bool) (c : Chip) (h : ∀ e, c = .riot e → e.last = level) : observedChip level c = c := by
  cases c with
  | miot => rfl
  | riot e =>
    have := h e rfl
    subst this
    simp [observedChip]

theorem configureEdge_eq (pol : Polarity) (ie : Bool) (s : State) :
    configureEdge pol ie s = { s with chip := mapChip (fun e => { e with pol := pol, ie := ie }) s.chip } := rfl

/-! ## Ports -/

theorem sample_a_eq (s : State) :
    sample .a s = { s with pa := { s.pa with input := pick s.pa.ddr s.pa.input (envLevels .a s) } } := rfl

theorem sample_b_eq (s : State) :
    sample .b s = { s with pb := { s.pb with input := pick s.pb.ddr s.pb.input (envLevels .b s) } } := rfl

/-- R80: the whole effect of a Port A read. -/
theorem readPortA_eq (s : State) :
    readPortA s =
      { s with
        pa := samplePort (envLevels .a s) s.pa
        dataOut := some (resolved (samplePort (envLevels .a s) s.pa))
        chip := observedChip (bitOf (resolved (samplePort (envLevels .a s) s.pa)) 7) s.chip } := by
  simp only [readPortA, observe_eq, pa7Level_eq_resolved]
  rfl

/-- R84, R92: the whole effect of a Port B read. -/
theorem readPortB_eq (s : State) :
    readPortB s =
      { s with
        pb := samplePort (envLevels .b s) s.pb
        dataOut := some (portBByte { s with pb := samplePort (envLevels .b s) s.pb }) } := rfl

/-- R81: the whole effect of a Port A latch write. -/
theorem writePortA_eq (d : Byte) (s : State) :
    writePortA d s =
      { s with
        pa := { s.pa with latch := d }
        dataOut := none
        chip := observedChip (bitOf (resolved { s.pa with latch := d }) 7) s.chip } := by
  simp only [writePortA, observe_eq, pa7Level_eq_resolved]
  rfl

/-- R83: the whole effect of a Port A direction write. -/
theorem writeDdrA_eq (d : Byte) (s : State) :
    writeDdrA d s =
      { s with
        pa := { s.pa with ddr := d }
        dataOut := none
        chip := observedChip (bitOf (resolved { s.pa with ddr := d }) 7) s.chip } := by
  simp only [writeDdrA, observe_eq, pa7Level_eq_resolved]
  rfl

/-- R85: the whole effect of a Port B latch write. -/
theorem writePortB_eq (d : Byte) (s : State) :
    writePortB d s = { s with pb := { s.pb with latch := d }, dataOut := none } := rfl

/-- R86: the whole effect of a Port B direction write. -/
theorem writeDdrB_eq (d : Byte) (s : State) :
    writeDdrB d s = { s with pb := { s.pb with ddr := d }, dataOut := none } := rfl

theorem readDdr_eq (p : PortName) (s : State) : readDdr p s = { s with dataOut := some (portOf p s).ddr } := rfl

/-! ## Timer -/

/-- R96: the whole effect of a load. -/
theorem loadTimer_eq (sel : BitVec 2) (ie : Bool) (d : Byte) (s : State) :
    loadTimer sel ie d s =
      { s with
        timer := if d = 0 then expire (loadedTimer sel ie d s.now) else loadedTimer sel ie d s.now
        dataOut := none } := rfl

theorem readTimer_eq (s : State) : readTimer s = { s with dataOut := some (timerValue s) } := rfl

/-- R108: the whole effect of a TICK. -/
theorem tick_eq (s : State) :
    tick s = { s with now := s.now + 1, timer := tickTimer (s.now + 1) s.timer, dataOut := none } := rfl

/-- R109: what the zero crossing leaves of the timer: the state and the flag are all that changes. -/
theorem expire_eq (t : Timer) : expire t = { t with state := .spinning, flag := t.ie || t.flag } := by
  simp only [expire]
  cases t.ie <;> rfl

/-- R108: what a tick can do to the timer. -/
theorem tickTimer_cases (now : Nat) (t : Timer) :
    (t.state = .counting ∧ now = timerExpiry t ∧ tickTimer now t = expire t) ∨
    ((t.state ≠ .counting ∨ now ≠ timerExpiry t) ∧ tickTimer now t = t) := by
  unfold tickTimer
  split
  · rename_i h
    exact .inl ⟨h.1, h.2, rfl⟩
  · rename_i h
    refine .inr ⟨?_, rfl⟩
    by_cases hc : t.state = .counting
    · exact .inr (fun hn => h ⟨hc, hn⟩)
    · exact .inl hc

/-- R25: the span is the count times the divisor. -/
theorem timerSpan_eq (t : Timer) : timerSpan t = t.value.toNat * divisor t.prescale := by
  simp [timerSpan, divisor, Nat.shiftLeft_eq]

theorem divisor_pos (p : Prescale) : 0 < divisor p := Nat.two_pow_pos _

/-- A count other than 0 has a span. -/
theorem timerSpan_pos (t : Timer) (h : t.value ≠ 0) : 0 < timerSpan t := by
  rw [timerSpan_eq]
  refine Nat.mul_pos (Nat.pos_of_ne_zero fun h0 => h ?_) (divisor_pos _)
  exact BitVec.eq_of_toNat_eq (by simpa using h0)

/-! ## Interrupt-flag register, RAM and ROM -/

/-- R127: the whole effect of an IFR read. -/
theorem readIfr_eq (s : State) :
    readIfr s =
      { s with
        timer := { s.timer with flag := false }
        chip := mapChip (fun e => { e with flag := false }) s.chip
        dataOut := some (ifrValue s) } := rfl

theorem readRam_eq (off : Nat) (s : State) : readRam off s = { s with dataOut := some (ramByte s off) } := rfl

theorem writeRam_eq (off : Nat) (d : Byte) (s : State) :
    writeRam off d s = { s with ram := Memory.write s.ram off d, dataOut := none } := rfl

theorem readRom_eq (off : Nat) (s : State) : readRom off s = { s with dataOut := some (romByte s off) } := rfl

theorem writeRom_eq (s : State) : writeRom s = { s with dataOut := none } := rfl

theorem ramByte_writeRam_same (off : Nat) (d : Byte) (s : State) : ramByte (writeRam off d s) off = d := by
  simp [ramByte, writeRam_eq, Memory.read_write_same]

theorem ramByte_writeRam_other (off k : Nat) (d : Byte) (s : State) (h : k ≠ off) :
    ramByte (writeRam off d s) k = ramByte s k := by
  simp [ramByte, writeRam_eq, Memory.read_write_other _ _ _ _ h]

/-! ## Reset -/

/-- R161: the whole effect of a RESET. -/
theorem resetChip_eq (s : State) :
    resetChip s =
      { s with
        pa := resetPort s.pa
        pb := resetPort s.pb
        timer := resetTimer s.timer
        dataOut := none
        chip := mapChip (resetEdge (bitOf s.pa.input 7)) s.chip } := by
  have h : pa7Level (silent (((s.setPa (resetPort s.pa)).setPb (resetPort s.pb)).setTimer (resetTimer s.timer))) =
      bitOf s.pa.input 7 := by
    have h0 : bitOf (0#8) 7 = false := by decide
    simp [pa7Level, silent_eq, resetPort, h0]
  simp only [resetChip, mapEdge_eq, h]
  rfl

/-! ## The step -/

/-- The step takes the next event off the schedule and delivers it. -/
theorem step_cons (s : State) (e : Event) (rest : List Event) (h : s.schedule = e :: rest) :
    step s = deliver e (s.setSchedule rest) := by
  unfold step
  rw [h]

theorem step_nil (s : State) (h : s.schedule = []) : step s = .next s := by
  unfold step
  rw [h]

/-- What a step can do: with nothing scheduled it holds the state, else it delivers the next event. -/
theorem step_cases (s t : State) (h : step s = .next t) :
    (s.schedule = [] ∧ t = s) ∨ ∃ e rest, s.schedule = e :: rest ∧ deliver e (s.setSchedule rest) = .next t := by
  cases hs : s.schedule with
  | nil =>
    rw [step_nil s hs] at h
    injection h with h
    exact .inl ⟨rfl, h.symm⟩
  | cons e rest =>
    rw [step_cons s e rest hs] at h
    exact .inr ⟨e, rest, rfl, h⟩

end Sys2Proof.Machine
end

