-- ==== Sys2Proof/Laws/Exec.lean ====
section
/-! SUPPORT. What `exec` can do, said once: on the operation's own chip it answers one next state, on another it faults.
Proofs over all operations cite `exec_next_iff` and then go through the effects. -/

namespace Sys2Proof.Machine

/-- The effect of an operation on a chip of its variant. -/
def effectOf : Instr → State → State
  | .riotRdPa => readPortA
  | .riotRdDdra => readDdr .a
  | .riotRdPb => readPortB
  | .riotRdDdrb => readDdr .b
  | .riotWrPa d => writePortA d
  | .riotWrDdra d => writeDdrA d
  | .riotWrPb d => writePortB d
  | .riotWrDdrb d => writeDdrB d
  | .riotRdTimer => readTimer
  | .riotRdIfr => readIfr
  | .riotWrT1 d => loadTimer 0b00#2 false d
  | .riotWrT8 d => loadTimer 0b01#2 false d
  | .riotWrT64 d => loadTimer 0b10#2 false d
  | .riotWrT1024 d => loadTimer 0b11#2 false d
  | .riotWrT1I d => loadTimer 0b00#2 true d
  | .riotWrT8I d => loadTimer 0b01#2 true d
  | .riotWrT64I d => loadTimer 0b10#2 true d
  | .riotWrT1024I d => loadTimer 0b11#2 true d
  | .riotWrEdgeNeg => fun s => silent (configureEdge .falling false s)
  | .riotWrEdgePos => fun s => silent (configureEdge .rising false s)
  | .riotWrEdgeNegIe => fun s => silent (configureEdge .falling true s)
  | .riotWrEdgePosIe => fun s => silent (configureEdge .rising true s)
  | .riotRdRam off => readRam off.toNat
  | .riotWrRam off d => writeRam off.toNat d
  | .miotRdPa => readPortA
  | .miotRdDdra => readDdr .a
  | .miotRdPb => readPortB
  | .miotRdDdrb => readDdr .b
  | .miotWrPa d => writePortA d
  | .miotWrDdra d => writeDdrA d
  | .miotWrPb d => writePortB d
  | .miotWrDdrb d => writeDdrB d
  | .miotRdTimer => readTimer
  | .miotRdIfr => readIfr
  | .miotWrT1 d => loadTimer 0b00#2 false d
  | .miotWrT8 d => loadTimer 0b01#2 false d
  | .miotWrT64 d => loadTimer 0b10#2 false d
  | .miotWrT1024 d => loadTimer 0b11#2 false d
  | .miotWrT1I d => loadTimer 0b00#2 true d
  | .miotWrT8I d => loadTimer 0b01#2 true d
  | .miotWrT64I d => loadTimer 0b10#2 true d
  | .miotWrT1024I d => loadTimer 0b11#2 true d
  | .miotRdRam off => readRam off.toNat
  | .miotWrRam off d => writeRam off.toNat d
  | .miotRdRom off => readRom off.bits.toNat
  | .miotWrRom _ _ => writeRom

/-- Every meaning but the ROM operations' is the operation's effect on its own variant. -/
theorem exec_eq_onVariant (i : Instr) (s : State) (h : i.format.window ≠ .rom) :
    exec i s = onVariant i.variant (effectOf i) s := by
  cases i <;> first | rfl | exact absurd rfl h

/-- `exec` answers a next state exactly for an operation that is well formed for the chip, and it is the operation's effect. -/
theorem exec_next_iff (i : Instr) (s t : State) :
    exec i s = .next t ↔ i.wellFormedFor s.variant s.params.romSize = true ∧ t = effectOf i s := by
  cases i
  case miotRdRom off =>
    refine (onRomWindow_next_iff off (readRom off.bits.toNat) s t).trans ?_
    cases hv : s.variant <;>
      simp [Instr.wellFormedFor, Instr.inRomWindow, Instr.variant, Instr.format, Format.variant, effectOf]
  case miotWrRom off d =>
    refine (onRomWindow_next_iff off writeRom s t).trans ?_
    cases hv : s.variant <;>
      simp [Instr.wellFormedFor, Instr.inRomWindow, Instr.variant, Instr.format, Format.variant, effectOf]
  all_goals
    rw [exec_eq_onVariant _ s (fun h => by cases h), onVariant_next_iff]
    cases hv : s.variant <;>
      simp [Instr.wellFormedFor, Instr.inRomWindow, Instr.variant, Instr.format, Format.variant, effectOf]

/-- `exec` of an operation that is well formed for the chip answers its effect. -/
theorem exec_eq_next (i : Instr) (s : State) (h : i.wellFormedFor s.variant s.params.romSize = true) :
    exec i s = .next (effectOf i s) := (exec_next_iff i s _).2 ⟨h, rfl⟩

/-- A well-formed operation is one of the chip's variant. -/
theorem wellFormedFor_variant (i : Instr) (v : Variant) (n : Nat) (h : i.wellFormedFor v n = true) : i.variant = v := by
  simp only [Instr.wellFormedFor, Bool.and_eq_true, decide_eq_true_eq] at h
  exact h.1

/-- Of an operation that has no ROM offset (`hr` by `rfl`), the variant alone decides. -/
theorem exec_on_variant (i : Instr) (s : State) (hv : s.variant = i.variant)
    (hr : i.inRomWindow s.params.romSize = true) : exec i s = .next (effectOf i s) := by
  refine exec_eq_next i s ?_
  simp [Instr.wellFormedFor, hv, hr]

/-- On the other variant `exec` faults. -/
theorem exec_eq_fault (i : Instr) (s : State) (h : s.variant ≠ i.variant) : exec i s = .fault .notOnThisVariant := by
  by_cases hw : i.format.window = .rom
  · have hv : s.variant = .riot := by
      cases hs : s.variant with
      | riot => rfl
      | miot => cases i <;> first | exact absurd hs h | cases hw
    cases i <;> first | exact if_pos hv | cases hw
  · rw [exec_eq_onVariant i s hw, onVariant_other _ _ _ h]

/-- On its own variant, `exec` of an operation whose offset is outside the ROM window faults. -/
theorem exec_outside (i : Instr) (s : State) (hv : s.variant = i.variant)
    (hr : i.inRomWindow s.params.romSize = false) : exec i s = .fault .outsideRomWindow := by
  cases i
  case miotRdRom off => exact onRomWindow_outside _ _ s hv hr
  case miotWrRom off d => exact onRomWindow_outside _ _ s hv hr
  all_goals cases hr

/-- Delivering a transaction answers a next state exactly when it decodes and its operation does. -/
theorem deliver_bus_next (tr : Transaction) (s t : State) (h : deliver (.bus tr) s = .next t) :
    ∃ i, decode tr = .ok i ∧ exec i s = .next t := by
  simp only [deliver, runBus] at h
  split at h
  · rename_i i hi
    exact ⟨i, hi, h⟩
  · cases h

/-- What an event can do when it answers a next state. -/
theorem deliver_cases (e : Event) (s t : State) (h : deliver e s = .next t) :
    (∃ tr i, e = .bus tr ∧ decode tr = .ok i ∧ i.wellFormedFor s.variant s.params.romSize = true ∧ t = effectOf i s) ∨
    (e = .tick ∧ t = tick s) ∨
    (∃ p i level, e = .setInput p i level ∧ t = setInput p i level s) ∨
    (∃ p v, e = .setInputByte p v ∧ t = setInputByte p v s) ∨
    (e = .reset ∧ t = resetChip s) ∨
    (∃ snap, e = .restore snap ∧ mayRestore snap s = true ∧ t = restoreFields snap s) ∨
    (∃ p pins, e = .envChange p pins ∧ t = silent (setEnvOf p pins s)) := by
  cases e with
  | bus tr =>
    obtain ⟨i, hi, hx⟩ := deliver_bus_next tr s t h
    obtain ⟨hv, ht⟩ := (exec_next_iff i s t).1 hx
    exact .inl ⟨tr, i, rfl, hi, hv, ht⟩
  | tick =>
    injection h with h
    exact .inr (.inl ⟨rfl, h.symm⟩)
  | setInput p i level =>
    injection h with h
    exact .inr (.inr (.inl ⟨p, i, level, rfl, h.symm⟩))
  | setInputByte p v =>
    injection h with h
    exact .inr (.inr (.inr (.inl ⟨p, v, rfl, h.symm⟩)))
  | reset =>
    injection h with h
    exact .inr (.inr (.inr (.inr (.inl ⟨rfl, h.symm⟩))))
  | restore snap =>
    simp only [deliver, execRestore] at h
    split at h
    · rename_i hm
      injection h with h
      exact .inr (.inr (.inr (.inr (.inr (.inl ⟨snap, rfl, hm, h.symm⟩)))))
    · cases h
  | envChange p pins =>
    injection h with h
    exact .inr (.inr (.inr (.inr (.inr (.inr ⟨p, pins, rfl, h.symm⟩)))))

end Sys2Proof.Machine
end

