-- ==== Sys2Proof/Laws/Effects.lean ====
section
/-! SUPPORT. What operations and events can do to one part of the state at a time: the timer, the edge detector, and everything
an event leaves alone. Proofs over all operations or all events cite these and do not go through the constructors again. -/

namespace Sys2Proof.Machine

/-! ## Operations -/

/-- What an operation can do to the timer: a load, an IFR read, or nothing. -/
theorem effectOf_timer_cases (i : Instr) (s : State) :
    (∃ sel ie d, timerLoadOf i = some (sel, ie, d) ∧ effectOf i s = loadTimer sel ie d s) ∨
    (timerLoadOf i = none ∧ isIfrRead i = true ∧ effectOf i s = readIfr s) ∨
    (timerLoadOf i = none ∧ isIfrRead i = false ∧ (effectOf i s).timer = s.timer) := by
  cases i
  case riotWrT1 d => exact .inl ⟨_, _, _, rfl, rfl⟩
  case riotWrT8 d => exact .inl ⟨_, _, _, rfl, rfl⟩
  case riotWrT64 d => exact .inl ⟨_, _, _, rfl, rfl⟩
  case riotWrT1024 d => exact .inl ⟨_, _, _, rfl, rfl⟩
  case riotWrT1I d => exact .inl ⟨_, _, _, rfl, rfl⟩
  case riotWrT8I d => exact .inl ⟨_, _, _, rfl, rfl⟩
  case riotWrT64I d => exact .inl ⟨_, _, _, rfl, rfl⟩
  case riotWrT1024I d => exact .inl ⟨_, _, _, rfl, rfl⟩
  case miotWrT1 d => exact .inl ⟨_, _, _, rfl, rfl⟩
  case miotWrT8 d => exact .inl ⟨_, _, _, rfl, rfl⟩
  case miotWrT64 d => exact .inl ⟨_, _, _, rfl, rfl⟩
  case miotWrT1024 d => exact .inl ⟨_, _, _, rfl, rfl⟩
  case miotWrT1I d => exact .inl ⟨_, _, _, rfl, rfl⟩
  case miotWrT8I d => exact .inl ⟨_, _, _, rfl, rfl⟩
  case miotWrT64I d => exact .inl ⟨_, _, _, rfl, rfl⟩
  case miotWrT1024I d => exact .inl ⟨_, _, _, rfl, rfl⟩
  case riotRdIfr => exact .inr (.inl ⟨rfl, rfl, rfl⟩)
  case miotRdIfr => exact .inr (.inl ⟨rfl, rfl, rfl⟩)
  all_goals exact .inr (.inr ⟨rfl, rfl, rfl⟩)

/-- What an operation can do to the edge detector: an IFR read, an edge-control write, one comparison of the PA7 level it leaves,
or nothing, with Port A as it was. -/
theorem effectOf_chip_cases (i : Instr) (s : State) :
    (isIfrRead i = true ∧ effectOf i s = readIfr s) ∨
    (∃ pol ie, i = edgeWrite pol ie ∧ effectOf i s = silent (configureEdge pol ie s)) ∨
    (isIfrRead i = false ∧ isEdgeWrite i = false ∧
      (effectOf i s).chip = observedChip (pa7Level (effectOf i s)) s.chip ∧
      (i = .riotRdPa ∨ i = .miotRdPa ∨ ∃ d, i = .riotWrPa d ∨ i = .riotWrDdra d ∨ i = .miotWrPa d ∨ i = .miotWrDdra d)) ∨
    (isIfrRead i = false ∧ isEdgeWrite i = false ∧ (effectOf i s).chip = s.chip ∧ (effectOf i s).pa = s.pa) := by
  cases i
  case riotRdIfr => exact .inl ⟨rfl, rfl⟩
  case miotRdIfr => exact .inl ⟨rfl, rfl⟩
  case riotWrEdgeNeg => exact .inr (.inl ⟨.falling, false, rfl, rfl⟩)
  case riotWrEdgePos => exact .inr (.inl ⟨.rising, false, rfl, rfl⟩)
  case riotWrEdgeNegIe => exact .inr (.inl ⟨.falling, true, rfl, rfl⟩)
  case riotWrEdgePosIe => exact .inr (.inl ⟨.rising, true, rfl, rfl⟩)
  case riotRdPa => exact .inr (.inr (.inl ⟨rfl, rfl, by simp only [pa7Level_eq_resolved, effectOf, readPortA_eq], by simp⟩))
  case miotRdPa => exact .inr (.inr (.inl ⟨rfl, rfl, by simp only [pa7Level_eq_resolved, effectOf, readPortA_eq], by simp⟩))
  case riotWrPa => exact .inr (.inr (.inl ⟨rfl, rfl, by simp only [pa7Level_eq_resolved, effectOf, writePortA_eq], by simp⟩))
  case miotWrPa => exact .inr (.inr (.inl ⟨rfl, rfl, by simp only [pa7Level_eq_resolved, effectOf, writePortA_eq], by simp⟩))
  case riotWrDdra => exact .inr (.inr (.inl ⟨rfl, rfl, by simp only [pa7Level_eq_resolved, effectOf, writeDdrA_eq], by simp⟩))
  case miotWrDdra => exact .inr (.inr (.inl ⟨rfl, rfl, by simp only [pa7Level_eq_resolved, effectOf, writeDdrA_eq], by simp⟩))
  all_goals exact .inr (.inr (.inr ⟨rfl, rfl, rfl, rfl⟩))

/-- An edge-control write is one of the four. -/
theorem isEdgeWrite_edgeWrite (pol : Polarity) (ie : Bool) : isEdgeWrite (edgeWrite pol ie) = true := by
  cases pol <;> cases ie <;> rfl

/-- R7: no operation changes the variant. -/
theorem effectOf_variant (i : Instr) (s : State) : (effectOf i s).variant = s.variant := by
  rcases effectOf_chip_cases i s with ⟨_, h⟩ | ⟨pol, ie, _, h⟩ | ⟨_, _, h, _⟩ | ⟨_, _, h, _⟩
  · rw [h]
    simp [State.variant, readIfr_eq]
  · rw [h]
    simp [State.variant, silent_eq, configureEdge_eq]
  · simp [State.variant, h]
  · simp [State.variant, h]

/-- R175: no operation changes the time, and none changes the schedule, the parameters or the environment. -/
theorem effectOf_frame (i : Instr) (s : State) :
    (effectOf i s).now = s.now ∧ (effectOf i s).schedule = s.schedule ∧ (effectOf i s).params = s.params ∧
    (effectOf i s).envA = s.envA ∧ (effectOf i s).envB = s.envB := by
  cases i <;> exact ⟨rfl, rfl, rfl, rfl, rfl⟩

/-- A load of the chip's own table. -/
theorem exec_timerLoad (s : State) (sel : BitVec 2) (ie : Bool) (d : Byte) :
    exec (timerLoad s.variant sel ie d) s = .next (loadTimer sel ie d s) := by
  have h : ∀ v, s.variant = v → exec (timerLoad v sel ie d) s = .next (loadTimer sel ie d s) := by
    intro v hv
    have hs : sel = 0 ∨ sel = 1 ∨ sel = 2 ∨ sel = 3 := by
      revert sel
      decide
    cases v <;> rcases hs with rfl | rfl | rfl | rfl <;> cases ie <;> exact exec_on_variant _ _ hv rfl
  exact h _ rfl

/-- A timer read of the chip's own table. -/
theorem exec_timerRead (s : State) (v : Variant) (h : s.variant = v) : exec (timerRead v) s = .next (readTimer s) := by
  cases v <;> exact exec_on_variant _ _ h rfl

/-- An IFR read of the chip's own table. -/
theorem exec_ifrRead (s : State) (v : Variant) (h : s.variant = v) : exec (ifrRead v) s = .next (readIfr s) := by
  cases v <;> exact exec_on_variant _ _ h rfl

/-- An edge-control write on a RIOT. -/
theorem exec_edgeWrite (s : State) (e : EdgeDetector) (pol : Polarity) (ie : Bool) (hc : s.chip = .riot e) :
    exec (edgeWrite pol ie) s = .next { s with chip := .riot { e with pol := pol, ie := ie }, dataOut := none } := by
  have hv : s.variant = .riot := by simp [State.variant, hc, Chip.variant]
  cases pol <;> cases ie <;> simp only [edgeWrite] <;> rw [exec_on_variant _ _ hv rfl] <;>
    simp [effectOf, silent_eq, configureEdge_eq, hc, mapChip]

/-! ## Events -/

/-- The whole effect of a SET_INPUT to a pin that is not PA7. -/
theorem setInput_ordinary (p : PortName) (i : Fin 8) (level : Bool) (s : State) (h : ¬(p = .a ∧ i = 7)) :
    setInput p i level s =
      setPortOf p { portOf p s with input := withBit (portOf p s).input i level }
        (silent (setEnvOf p (drivePin i level (envOf p s)) s)) := by
  simp only [setInput]
  rw [if_neg h]
  cases p <;> rfl

/-- The whole effect of a SET_INPUT to PA7. -/
theorem setInput_pa7 (level : Bool) (s : State) :
    setInput .a 7 level s =
      observe { s with
        pa := { s.pa with input := withBit s.pa.input 7 level }
        envA := drivePin 7 level s.envA
        dataOut := none } := by
  simp only [setInput]
  rfl

/-- The whole effect of a SET_INPUT_BYTE to Port A. -/
theorem setInputByte_a (v : Byte) (s : State) :
    setInputByte .a v s =
      observe { s with
        pa := { s.pa with input := v }
        envA := { driven := 0xFF, level := v }
        dataOut := none } := by
  simp only [setInputByte]
  rfl

/-- The whole effect of a SET_INPUT_BYTE to Port B. -/
theorem setInputByte_b (v : Byte) (s : State) :
    setInputByte .b v s =
      { s with pb := { s.pb with input := v }, envB := { driven := 0xFF, level := v }, dataOut := none } := rfl

/-- What a SET_INPUT leaves alone. -/
theorem setInput_frame (p : PortName) (i : Fin 8) (level : Bool) (s : State) :
    (setInput p i level s).timer = s.timer ∧ (setInput p i level s).ram = s.ram ∧ (setInput p i level s).now = s.now ∧
    (setInput p i level s).params = s.params ∧ (setInput p i level s).schedule = s.schedule ∧
    (setInput p i level s).variant = s.variant := by
  by_cases h : p = .a ∧ i = 7
  · obtain ⟨rfl, rfl⟩ := h
    rw [setInput_pa7, observe_eq]
    exact ⟨rfl, rfl, rfl, rfl, rfl, observedChip_variant _ _⟩
  · rw [setInput_ordinary _ _ _ _ h]
    cases p <;> exact ⟨rfl, rfl, rfl, rfl, rfl, rfl⟩

/-- What a SET_INPUT_BYTE leaves alone. -/
theorem setInputByte_frame (p : PortName) (v : Byte) (s : State) :
    (setInputByte p v s).timer = s.timer ∧ (setInputByte p v s).ram = s.ram ∧ (setInputByte p v s).now = s.now ∧
    (setInputByte p v s).params = s.params ∧ (setInputByte p v s).schedule = s.schedule ∧
    (setInputByte p v s).variant = s.variant := by
  cases p
  · rw [setInputByte_a, observe_eq]
    exact ⟨rfl, rfl, rfl, rfl, rfl, observedChip_variant _ _⟩
  · exact ⟨rfl, rfl, rfl, rfl, rfl, rfl⟩

/-- A SET_INPUT does not look at the schedule. -/
theorem setInput_setSchedule (p : PortName) (i : Fin 8) (level : Bool) (s : State) (rest : List Event) :
    setInput p i level (s.setSchedule rest) = (setInput p i level s).setSchedule rest := by
  by_cases h : p = .a ∧ i = 7
  · obtain ⟨rfl, rfl⟩ := h
    simp only [setInput_pa7, observe_eq]
    rfl
  · simp only [setInput_ordinary _ _ _ _ h]
    cases p <;> rfl

/-- Whether a transaction runs an operation of a kind is read off its decoding. -/
theorem runsOperation_bus (p : Instr → Bool) (tr : Transaction) (i : Instr) (h : decode tr = .ok i) :
    runsOperation p (.bus tr) = p i := by
  simp [runsOperation, h]

/-- Delivering an event leaves the rest of the schedule. -/
theorem deliver_schedule (e : Event) (s t : State) (h : deliver e s = .next t) : t.schedule = s.schedule := by
  rcases deliver_cases e s t h with ⟨_, i, _, _, _, rfl⟩ | ⟨_, rfl⟩ | ⟨p, i, l, _, rfl⟩ | ⟨p, v, _, rfl⟩ | ⟨_, rfl⟩ |
    ⟨_, _, _, rfl⟩ | ⟨p, _, _, rfl⟩
  · exact (effectOf_frame i s).2.1
  · rfl
  · exact (setInput_frame p i l s).2.2.2.2.1
  · exact (setInputByte_frame p v s).2.2.2.2.1
  · rw [resetChip_eq]
  · rfl
  · cases p <;> rfl

/-- What an event other than a load, a RESET and a restore can do to the timer: a tick, an IFR read, or nothing. -/
theorem deliver_timer_cases (e : Event) (s t : State) (h : deliver e s = .next t) (hl : loadsTimer e = false)
    (hr : e ≠ .reset) (hs : restores e = false) :
    (e = .tick ∧ t = tick s) ∨ (readsIfr e = true ∧ t = readIfr s) ∨
    (readsIfr e = false ∧ e ≠ .tick ∧ t.timer = s.timer) := by
  rcases deliver_cases e s t h with ⟨tr, i, rfl, hd, _, rfl⟩ | ⟨rfl, rfl⟩ | ⟨p, i, l, rfl, rfl⟩ | ⟨p, v, rfl, rfl⟩ |
    ⟨rfl, _⟩ | ⟨_, rfl, _, _⟩ | ⟨p, _, rfl, rfl⟩
  · rw [loadsTimer, runsOperation_bus _ _ _ hd] at hl
    rw [readsIfr, runsOperation_bus _ _ _ hd]
    rcases effectOf_timer_cases i s with ⟨_, _, _, h1, _⟩ | ⟨_, h2, h3⟩ | ⟨_, h2, h3⟩
    · simp [h1] at hl
    · exact .inr (.inl ⟨h2, h3⟩)
    · exact .inr (.inr ⟨h2, by simp, h3⟩)
  · exact .inl ⟨rfl, rfl⟩
  · exact .inr (.inr ⟨rfl, by simp, (setInput_frame p i l s).1⟩)
  · exact .inr (.inr ⟨rfl, by simp, (setInputByte_frame p v s).1⟩)
  · exact absurd rfl hr
  · cases hs
  · exact .inr (.inr ⟨rfl, by simp, by cases p <;> rfl⟩)

/-- What an event other than an IFR read, an edge-control write, a RESET and a restore can do to the edge detector: one
comparison of the PA7 level it leaves, or nothing, with that level as it was (R121). -/
theorem deliver_chip_cases (e : Event) (s t : State) (h : deliver e s = .next t) (hi : readsIfr e = false)
    (hc : configuresEdge e = false) (hr : e ≠ .reset) (hs : restores e = false) :
    t.chip = observedChip (pa7Level t) s.chip ∨ (t.chip = s.chip ∧ pa7Level t = pa7Level s) := by
  rcases deliver_cases e s t h with ⟨tr, i, rfl, hd, _, rfl⟩ | ⟨_, rfl⟩ | ⟨p, i, l, _, rfl⟩ | ⟨p, v, _, rfl⟩ | ⟨rfl, _⟩ |
    ⟨_, rfl, _, _⟩ | ⟨p, _, _, rfl⟩
  · rw [readsIfr, runsOperation_bus _ _ _ hd] at hi
    rw [configuresEdge, runsOperation_bus _ _ _ hd] at hc
    rcases effectOf_chip_cases i s with ⟨h1, _⟩ | ⟨pol, ie, rfl, _⟩ | ⟨_, _, h1, _⟩ | ⟨_, _, h1, h2⟩
    · rw [h1] at hi
      cases hi
    · rw [isEdgeWrite_edgeWrite] at hc
      cases hc
    · exact .inl h1
    · exact .inr ⟨h1, by simp [pa7Level, h2]⟩
  · exact .inr ⟨rfl, rfl⟩
  · by_cases hp : p = .a ∧ i = 7
    · obtain ⟨rfl, rfl⟩ := hp
      rw [setInput_pa7, observe_eq]
      exact .inl rfl
    · rw [setInput_ordinary _ _ _ _ hp]
      cases p with
      | a =>
        have h7 : (7 : Fin 8) ≠ i := fun h => hp ⟨rfl, h.symm⟩
        exact .inr ⟨rfl, by simp [pa7Level, setPortOf, portOf, setEnvOf, silent_eq, bitOf_withBit, h7]⟩
      | b => exact .inr ⟨rfl, rfl⟩
  · cases p with
    | a =>
      rw [setInputByte_a, observe_eq]
      exact .inl rfl
    | b => exact .inr ⟨rfl, rfl⟩
  · exact absurd rfl hr
  · cases hs
  · cases p <;> exact .inr ⟨rfl, rfl⟩

/-- R7: delivering an event keeps the variant. -/
theorem deliver_variant (e : Event) (s t : State) (h : deliver e s = .next t) : t.variant = s.variant := by
  rcases deliver_cases e s t h with ⟨_, i, _, _, _, rfl⟩ | ⟨_, rfl⟩ | ⟨p, i, l, _, rfl⟩ | ⟨p, v, _, rfl⟩ | ⟨_, rfl⟩ |
    ⟨_, _, hm, rfl⟩ | ⟨p, _, _, rfl⟩
  · exact effectOf_variant i s
  · rfl
  · exact (setInput_frame p i l s).2.2.2.2.2
  · exact (setInputByte_frame p v s).2.2.2.2.2
  · rw [resetChip_eq]
    exact mapChip_variant _ _
  · simp only [mayRestore, Bool.and_eq_true, decide_eq_true_eq] at hm
    exact hm.1
  · cases p <;> rfl

/-! ## Time -/

/-- R108: ticks change the time, the timer and the byte given back, and nothing else. -/
theorem afterTicks_frame (n : Nat) (s : State) :
    (afterTicks n s).now = s.now + n ∧ (afterTicks n s).chip = s.chip ∧ (afterTicks n s).variant = s.variant := by
  induction n generalizing s with
  | zero => exact ⟨rfl, rfl, rfl⟩
  | succ n ih =>
    obtain ⟨h1, h2, h3⟩ := ih (tick s)
    exact ⟨by rw [afterTicks, h1, tick_eq]; simp only; omega, by rw [afterTicks, h2, tick_eq], by rw [afterTicks, h3]; rfl⟩

/-- R108: ticks leave a timer that is not COUNTING. -/
theorem afterTicks_not_counting (n : Nat) (s : State) (h : s.timer.state ≠ .counting) :
    (afterTicks n s).timer = s.timer := by
  induction n generalizing s with
  | zero => rfl
  | succ n ih =>
    have ht : (tick s).timer = s.timer := by
      rw [tick_eq]
      rcases tickTimer_cases (s.now + 1) s.timer with ⟨hc, _⟩ | ⟨_, h2⟩
      · exact absurd hc h
      · exact h2
    rw [afterTicks, ih _ (by rw [ht]; exact h), ht]

/-! ## The restore check -/

/-- The check of a restored timer says what `TimerInv` says. -/
theorem timerReachable_iff (t : Timer) (now : Nat) : timerReachable t now = true ↔ TimerInv t now := by
  unfold timerReachable TimerInv
  cases h : t.state <;> simp [and_assoc]
  intro
  cases t.flag <;> simp

/-- The check of a restored edge detector says what `EdgeInv` says. -/
theorem edgeReachable_iff (s : State) : edgeReachable s = true ↔ EdgeInv s := by
  unfold edgeReachable EdgeInv
  cases h : s.chip <;> simp

/-- The check of a restored RAM says what `RamInv` says. -/
theorem ramReachable_iff (s : State) : ramReachable s = true ↔ RamInv s := by
  unfold ramReachable RamInv
  simp [Memory.within]

end Sys2Proof.Machine
end

