-- ==== Sys2Proof/Laws/PerInstr.lean ====
section
/-! SUPPORT. Statements said per operation, one lemma per constructor. -/

namespace Sys2Proof.Laws

/-- R62, R73: an operation's canonical transaction has the operation's own format, so it is well formed for the operation's
variant and for no other (for a ROM operation, in the same ROM windows), and its access word fits the format. -/
def EncodedForm.Statement (i : Instr) : Prop :=
  (encode i).format = i.format ∧
  (∀ v romSize, (encode i).wellFormedFor v romSize = i.wellFormedFor v romSize) ∧
  transactionWord (encode i) < 2 ^ formatWidth i.format

/-- The statement follows from the format and the window. -/
theorem EncodedForm.of_format (i : Instr) (h : (encode i).format = i.format)
    (hw : ∀ romSize, (encode i).inRomWindow romSize = i.inRomWindow romSize) : EncodedForm.Statement i := by
  refine ⟨h, fun v romSize => ?_, ?_⟩
  · simp only [Instr.wellFormedFor, Transaction.wellFormedFor, Instr.variant, h, hw]
    rfl
  · rw [← h]
    exact transactionWord_lt _

theorem EncodedForm.riotRdPa : EncodedForm.Statement .riotRdPa :=
  EncodedForm.of_format _ rfl (fun _ => rfl)

theorem EncodedForm.riotRdDdra : EncodedForm.Statement .riotRdDdra :=
  EncodedForm.of_format _ rfl (fun _ => rfl)

theorem EncodedForm.riotRdPb : EncodedForm.Statement .riotRdPb :=
  EncodedForm.of_format _ rfl (fun _ => rfl)

theorem EncodedForm.riotRdDdrb : EncodedForm.Statement .riotRdDdrb :=
  EncodedForm.of_format _ rfl (fun _ => rfl)

theorem EncodedForm.riotWrPa (d : Byte) : EncodedForm.Statement (.riotWrPa d) :=
  EncodedForm.of_format _ rfl (fun _ => rfl)

theorem EncodedForm.riotWrDdra (d : Byte) : EncodedForm.Statement (.riotWrDdra d) :=
  EncodedForm.of_format _ rfl (fun _ => rfl)

theorem EncodedForm.riotWrPb (d : Byte) : EncodedForm.Statement (.riotWrPb d) :=
  EncodedForm.of_format _ rfl (fun _ => rfl)

theorem EncodedForm.riotWrDdrb (d : Byte) : EncodedForm.Statement (.riotWrDdrb d) :=
  EncodedForm.of_format _ rfl (fun _ => rfl)

theorem EncodedForm.riotRdTimer : EncodedForm.Statement .riotRdTimer :=
  EncodedForm.of_format _ rfl (fun _ => rfl)

theorem EncodedForm.riotRdIfr : EncodedForm.Statement .riotRdIfr :=
  EncodedForm.of_format _ rfl (fun _ => rfl)

theorem EncodedForm.riotWrT1 (d : Byte) : EncodedForm.Statement (.riotWrT1 d) :=
  EncodedForm.of_format _ rfl (fun _ => rfl)

theorem EncodedForm.riotWrT8 (d : Byte) : EncodedForm.Statement (.riotWrT8 d) :=
  EncodedForm.of_format _ rfl (fun _ => rfl)

theorem EncodedForm.riotWrT64 (d : Byte) : EncodedForm.Statement (.riotWrT64 d) :=
  EncodedForm.of_format _ rfl (fun _ => rfl)

theorem EncodedForm.riotWrT1024 (d : Byte) : EncodedForm.Statement (.riotWrT1024 d) :=
  EncodedForm.of_format _ rfl (fun _ => rfl)

theorem EncodedForm.riotWrT1I (d : Byte) : EncodedForm.Statement (.riotWrT1I d) :=
  EncodedForm.of_format _ rfl (fun _ => rfl)

theorem EncodedForm.riotWrT8I (d : Byte) : EncodedForm.Statement (.riotWrT8I d) :=
  EncodedForm.of_format _ rfl (fun _ => rfl)

theorem EncodedForm.riotWrT64I (d : Byte) : EncodedForm.Statement (.riotWrT64I d) :=
  EncodedForm.of_format _ rfl (fun _ => rfl)

theorem EncodedForm.riotWrT1024I (d : Byte) : EncodedForm.Statement (.riotWrT1024I d) :=
  EncodedForm.of_format _ rfl (fun _ => rfl)

theorem EncodedForm.riotWrEdgeNeg : EncodedForm.Statement .riotWrEdgeNeg :=
  EncodedForm.of_format _ rfl (fun _ => rfl)

theorem EncodedForm.riotWrEdgePos : EncodedForm.Statement .riotWrEdgePos :=
  EncodedForm.of_format _ rfl (fun _ => rfl)

theorem EncodedForm.riotWrEdgeNegIe : EncodedForm.Statement .riotWrEdgeNegIe :=
  EncodedForm.of_format _ rfl (fun _ => rfl)

theorem EncodedForm.riotWrEdgePosIe : EncodedForm.Statement .riotWrEdgePosIe :=
  EncodedForm.of_format _ rfl (fun _ => rfl)

theorem EncodedForm.riotRdRam (off : BitVec 7) : EncodedForm.Statement (.riotRdRam off) :=
  EncodedForm.of_format _ rfl (fun _ => rfl)

theorem EncodedForm.riotWrRam (off : BitVec 7) (d : Byte) : EncodedForm.Statement (.riotWrRam off d) :=
  EncodedForm.of_format _ rfl (fun _ => rfl)

theorem EncodedForm.miotRdPa : EncodedForm.Statement .miotRdPa :=
  EncodedForm.of_format _ rfl (fun _ => rfl)

theorem EncodedForm.miotRdDdra : EncodedForm.Statement .miotRdDdra :=
  EncodedForm.of_format _ rfl (fun _ => rfl)

theorem EncodedForm.miotRdPb : EncodedForm.Statement .miotRdPb :=
  EncodedForm.of_format _ rfl (fun _ => rfl)

theorem EncodedForm.miotRdDdrb : EncodedForm.Statement .miotRdDdrb :=
  EncodedForm.of_format _ rfl (fun _ => rfl)

theorem EncodedForm.miotWrPa (d : Byte) : EncodedForm.Statement (.miotWrPa d) :=
  EncodedForm.of_format _ rfl (fun _ => rfl)

theorem EncodedForm.miotWrDdra (d : Byte) : EncodedForm.Statement (.miotWrDdra d) :=
  EncodedForm.of_format _ rfl (fun _ => rfl)

theorem EncodedForm.miotWrPb (d : Byte) : EncodedForm.Statement (.miotWrPb d) :=
  EncodedForm.of_format _ rfl (fun _ => rfl)

theorem EncodedForm.miotWrDdrb (d : Byte) : EncodedForm.Statement (.miotWrDdrb d) :=
  EncodedForm.of_format _ rfl (fun _ => rfl)

theorem EncodedForm.miotRdTimer : EncodedForm.Statement .miotRdTimer :=
  EncodedForm.of_format _ rfl (fun _ => rfl)

theorem EncodedForm.miotRdIfr : EncodedForm.Statement .miotRdIfr :=
  EncodedForm.of_format _ rfl (fun _ => rfl)

theorem EncodedForm.miotWrT1 (d : Byte) : EncodedForm.Statement (.miotWrT1 d) :=
  EncodedForm.of_format _ rfl (fun _ => rfl)

theorem EncodedForm.miotWrT8 (d : Byte) : EncodedForm.Statement (.miotWrT8 d) :=
  EncodedForm.of_format _ rfl (fun _ => rfl)

theorem EncodedForm.miotWrT64 (d : Byte) : EncodedForm.Statement (.miotWrT64 d) :=
  EncodedForm.of_format _ rfl (fun _ => rfl)

theorem EncodedForm.miotWrT1024 (d : Byte) : EncodedForm.Statement (.miotWrT1024 d) :=
  EncodedForm.of_format _ rfl (fun _ => rfl)

theorem EncodedForm.miotWrT1I (d : Byte) : EncodedForm.Statement (.miotWrT1I d) :=
  EncodedForm.of_format _ rfl (fun _ => rfl)

theorem EncodedForm.miotWrT8I (d : Byte) : EncodedForm.Statement (.miotWrT8I d) :=
  EncodedForm.of_format _ rfl (fun _ => rfl)

theorem EncodedForm.miotWrT64I (d : Byte) : EncodedForm.Statement (.miotWrT64I d) :=
  EncodedForm.of_format _ rfl (fun _ => rfl)

theorem EncodedForm.miotWrT1024I (d : Byte) : EncodedForm.Statement (.miotWrT1024I d) :=
  EncodedForm.of_format _ rfl (fun _ => rfl)

theorem EncodedForm.miotRdRam (off : BitVec 6) : EncodedForm.Statement (.miotRdRam off) :=
  EncodedForm.of_format _ rfl (fun _ => rfl)

theorem EncodedForm.miotWrRam (off : BitVec 6) (d : Byte) : EncodedForm.Statement (.miotWrRam off d) :=
  EncodedForm.of_format _ rfl (fun _ => rfl)

theorem EncodedForm.miotRdRom (off : RomOffset) : EncodedForm.Statement (.miotRdRom off) :=
  EncodedForm.of_format _ rfl (fun _ => by
    simp only [encode, Transaction.inRomWindow, Instr.inRomWindow, accessWord_offset])

theorem EncodedForm.miotWrRom (off : RomOffset) (d : Byte) : EncodedForm.Statement (.miotWrRom off d) :=
  EncodedForm.of_format _ rfl (fun _ => by
    simp only [encode, Transaction.inRomWindow, Instr.inRomWindow, accessWord_offset])

end Sys2Proof.Laws
end

