-- ==== Sys2Proof/Tests/Slice0.lean ====
section
/-! SUPPORT. The model's own tests. Expected values are those of spec/95_test_vectors.md (its vector's name stands in the
docstring) or worked out by hand from the rule named there. After them, one witness per statement that has hypotheses. -/

namespace Sys2Proof.Tests

open Sys2Proof Sys2Proof.Machine

/-! ## Small states -/

/-- A RIOT right after RESET. -/
def riot : State := State.resetOf .riot

/-- A MIOT right after RESET. -/
def miot : State := State.resetOf .miot

/-- A MIOT whose PB7_IRQ_MODE is not NONE. -/
def governedMiot (s : State) : State := { s with params := { undrivenLevel := true, pb7IrqMode := .governed 0, romSize := 1024, rom := [] } }

/-- What a next state shows; nothing after a fault or a refusal. -/
def look {α : Type} (f : State → α) (o : Host.Outcome State Fault Refusal) : Option α :=
  match o with
  | .next s => some (f s)
  | .fault _ => none
  | .refused _ => none

/-- A Port A with given fields, every pin driven to `level`. -/
def withPortA (latch ddr input level : Byte) (s : State) : State :=
  (s.setPa { latch := latch, ddr := ddr, input := input }).setEnvA { driven := 0xFF, level := level }

/-- A Port B with given fields, every pin driven to `level`. -/
def withPortB (latch ddr input level : Byte) (s : State) : State :=
  (s.setPb { latch := latch, ddr := ddr, input := input }).setEnvB { driven := 0xFF, level := level }

/-- A timer loaded at tick 0, seen at a later tick. -/
def withTimer (state : TimerState) (value : Byte) (p : Prescale) (ie flag : Bool) (now : Nat) (s : State) : State :=
  (s.setTimer { state := state, value := value, prescale := p, tLoad := 0, ie := ie, flag := flag }).setNow now

/-- A RIOT with given edge-detector fields. -/
def withEdge (pol : Polarity) (ie flag last : Bool) : State :=
  riot.setChip (.riot { pol := pol, ie := ie, flag := flag, last := last })

/-- The edge flag and IRQ. -/
def edgeAndIrq (s : State) : Bool × Bool := (edgeFlag s.chip, irq s)

/-- The timer's state, its flag and IRQ. -/
def timerAndIrq (s : State) : TimerState × Bool × Bool := (s.timer.state, s.timer.flag, irq s)

/-! ## Well-formedness: a term for each check that the check refuses -/

theorem test_wellFormed_instr :
    Instr.riotWrEdgeNeg.wellFormedFor .miot 1024 = false ∧ (Instr.miotRdRom ⟨10, 0⟩).wellFormedFor .riot 1024 = false ∧
    Instr.riotWrEdgeNeg.wellFormedFor .riot 1024 = true ∧ (Instr.miotRdRom ⟨10, 0⟩).wellFormedFor .miot 1024 = true := by decide

/-- The ROM offset's two checks, its width and its value, at ROM_SIZE 1024, 512 and 768. -/
theorem test_wellFormed_rom :
    (Instr.miotRdRom ⟨9, 0⟩).wellFormedFor .miot 1024 = false ∧ (Instr.miotRdRom ⟨10, 0⟩).wellFormedFor .miot 512 = false ∧
    (Instr.miotWrRom ⟨10, 768⟩ 0).wellFormedFor .miot 768 = false ∧ (Instr.miotWrRom ⟨10, 767⟩ 0).wellFormedFor .miot 768 = true ∧
    (Transaction.rom 10 0x700 0).wellFormedFor .miot 768 = false ∧ (Transaction.rom 9 0x3FF 0).wellFormedFor .miot 512 = true := by
  decide

/-- R62: the offset widths of some ROM sizes. -/
theorem test_romOffsetWidth :
    romOffsetWidth 1024 = 10 ∧ romOffsetWidth 1025 = 11 ∧ romOffsetWidth 768 = 10 ∧ romOffsetWidth 512 = 9 ∧
    romOffsetWidth 2 = 1 ∧ romOffsetWidth 1 = 0 := by decide

theorem test_wellFormed_transaction :
    (Transaction.io32 0x20 0).wellFormedFor .miot 1024 = false ∧ (Transaction.ram128 0x80 0).wellFormedFor .miot 1024 = false ∧
    (Transaction.io16 0x10 0).wellFormedFor .riot 1024 = false ∧ (Transaction.ram64 0x40 0).wellFormedFor .riot 1024 = false ∧
    (Transaction.rom 10 0x400 0).wellFormedFor .riot 1024 = false := by decide

/-! ## Decoding: a word written out from the spec's pattern for each row, read bit first, then A4 (A3) down to A0 -/

/-- R80-R87: the port rows of IO32. -/
theorem test_decode_riot_ports (d : Byte) :
    decode (.io32 0b100000 d) = .ok .riotRdPa ∧ decode (.io32 0b100001 d) = .ok .riotRdDdra ∧
    decode (.io32 0b100010 d) = .ok .riotRdPb ∧ decode (.io32 0b100011 d) = .ok .riotRdDdrb ∧
    decode (.io32 0b000000 d) = .ok (.riotWrPa d) ∧ decode (.io32 0b000001 d) = .ok (.riotWrDdra d) ∧
    decode (.io32 0b000010 d) = .ok (.riotWrPb d) ∧ decode (.io32 0b000011 d) = .ok (.riotWrDdrb d) :=
  ⟨rfl, rfl, rfl, rfl, rfl, rfl, rfl, rfl⟩

/-- R97-R106: the timer rows of IO32. -/
theorem test_decode_riot_timer (d : Byte) :
    decode (.io32 0b100100 d) = .ok .riotRdTimer ∧
    decode (.io32 0b010100 d) = .ok (.riotWrT1 d) ∧ decode (.io32 0b010101 d) = .ok (.riotWrT8 d) ∧
    decode (.io32 0b010110 d) = .ok (.riotWrT64 d) ∧ decode (.io32 0b010111 d) = .ok (.riotWrT1024 d) ∧
    decode (.io32 0b011100 d) = .ok (.riotWrT1I d) ∧ decode (.io32 0b011101 d) = .ok (.riotWrT8I d) ∧
    decode (.io32 0b011110 d) = .ok (.riotWrT64I d) ∧ decode (.io32 0b011111 d) = .ok (.riotWrT1024I d) :=
  ⟨rfl, rfl, rfl, rfl, rfl, rfl, rfl, rfl, rfl⟩

/-- R123-R127: the edge-control rows and the IFR row of IO32. -/
theorem test_decode_riot_edge (d : Byte) :
    decode (.io32 0b100101 d) = .ok .riotRdIfr ∧
    decode (.io32 0b000100 d) = .ok .riotWrEdgeNeg ∧ decode (.io32 0b000101 d) = .ok .riotWrEdgePos ∧
    decode (.io32 0b000110 d) = .ok .riotWrEdgeNegIe ∧ decode (.io32 0b000111 d) = .ok .riotWrEdgePosIe :=
  ⟨rfl, rfl, rfl, rfl, rfl⟩

/-- R80-R87: the port rows of IO16. -/
theorem test_decode_miot_ports (d : Byte) :
    decode (.io16 0b10000 d) = .ok .miotRdPa ∧ decode (.io16 0b10001 d) = .ok .miotRdDdra ∧
    decode (.io16 0b10010 d) = .ok .miotRdPb ∧ decode (.io16 0b10011 d) = .ok .miotRdDdrb ∧
    decode (.io16 0b00000 d) = .ok (.miotWrPa d) ∧ decode (.io16 0b00001 d) = .ok (.miotWrDdra d) ∧
    decode (.io16 0b00010 d) = .ok (.miotWrPb d) ∧ decode (.io16 0b00011 d) = .ok (.miotWrDdrb d) :=
  ⟨rfl, rfl, rfl, rfl, rfl, rfl, rfl, rfl⟩

/-- R97-R106, R127: the timer and IFR rows of IO16. -/
theorem test_decode_miot_timer (d : Byte) :
    decode (.io16 0b10100 d) = .ok .miotRdTimer ∧ decode (.io16 0b10101 d) = .ok .miotRdIfr ∧
    decode (.io16 0b00100 d) = .ok (.miotWrT1 d) ∧ decode (.io16 0b00101 d) = .ok (.miotWrT8 d) ∧
    decode (.io16 0b00110 d) = .ok (.miotWrT64 d) ∧ decode (.io16 0b00111 d) = .ok (.miotWrT1024 d) ∧
    decode (.io16 0b01100 d) = .ok (.miotWrT1I d) ∧ decode (.io16 0b01101 d) = .ok (.miotWrT8I d) ∧
    decode (.io16 0b01110 d) = .ok (.miotWrT64I d) ∧ decode (.io16 0b01111 d) = .ok (.miotWrT1024I d) :=
  ⟨rfl, rfl, rfl, rfl, rfl, rfl, rfl, rfl, rfl, rfl⟩

/-- R133-R136: the RAM and ROM rows, at an offset with both kinds of bits; and the ROM rows of a MIOT with 512 ROM bytes
(R62). -/
theorem test_decode_memories (d : Byte) :
    decode (.ram128 0b11010011 d) = .ok (.riotRdRam 0b1010011) ∧
    decode (.ram128 0b01010011 d) = .ok (.riotWrRam 0b1010011 d) ∧
    decode (.ram64 0b1100101 d) = .ok (.miotRdRam 0b100101) ∧
    decode (.ram64 0b0100101 d) = .ok (.miotWrRam 0b100101 d) ∧
    decode (.rom 10 0b11010000111 d) = .ok (.miotRdRom ⟨10, 0b1010000111⟩) ∧
    decode (.rom 10 0b01010000111 d) = .ok (.miotWrRom ⟨10, 0b1010000111⟩ d) ∧
    decode (.rom 9 0b1101000011 d) = .ok (.miotRdRom ⟨9, 0b101000011⟩) ∧
    decode (.rom 9 0b0101000011 d) = .ok (.miotWrRom ⟨9, 0b101000011⟩ d) :=
  ⟨rfl, rfl, rfl, rfl, rfl, rfl, rfl, rfl⟩

/-- 95_test_vectors.md 2.1, the mirrors among them. -/
theorem test_decode_vectors (d : Byte) :
    decode (.io32 0x38 d) = .ok .riotRdPa ∧ decode (.io32 0x2B d) = .ok .riotRdDdrb ∧
    decode (.io32 0x09 d) = .ok (.riotWrDdra d) ∧ decode (.io32 0x3E d) = .ok .riotRdTimer ∧
    decode (.io32 0x2D d) = .ok .riotRdIfr ∧ decode (.io32 0x0F d) = .ok .riotWrEdgePosIe ∧
    decode (.ram128 0x80 d) = .ok (.riotRdRam 0) ∧ decode (.ram128 0x7F d) = .ok (.riotWrRam 127 d) ∧
    decode (.io16 0x18 d) = .ok .miotRdPa ∧ decode (.io16 0x1D d) = .ok .miotRdIfr ∧
    decode (.ram64 0x7F d) = .ok (.miotRdRam 63) ∧ decode (.rom 10 0x400 d) = .ok (.miotRdRom ⟨10, 0⟩) ∧
    decode (.rom 10 0x3FF d) = .ok (.miotWrRom ⟨10, 1023⟩ d) :=
  ⟨rfl, rfl, rfl, rfl, rfl, rfl, rfl, rfl, rfl, rfl, rfl, rfl, rfl⟩

/-- R61, R49: a listing the decoder refuses, by name. -/
theorem test_decode_rejects :
    decodeBytes .io32 [] = .error .noWord ∧ decodeBytes (.rom 10) [0x00] = .error .noWord ∧
    decodeBytes .io32 [0x40, 0x00] = .error .wordTooWide ∧ decodeBytes .io16 [0x20, 0x00] = .error .wordTooWide ∧
    decodeBytes (.rom 10) [0x00, 0x08, 0x00] = .error .wordTooWide ∧ decodeBytes .io32 [0x14] = .error .noData :=
  ⟨rfl, rfl, rfl, rfl, rfl, rfl⟩

/-- Logs 18, 19: what the numbers of the opcode table decode to, and that they run as the first operation after reset, or on a
MIOT with another ROM_SIZE. -/
theorem test_table_words :
    decodeTableWord 6 0x24 = some .riotRdTimer ∧ decodeTableWord 5 0x14 = some .miotRdTimer ∧
    decodeTableWord 7 0x40 = some (.miotRdRam 0) ∧ decodeTableWord 8 0x80 = some (.riotRdRam 0) ∧
    decodeTableWord 8 0x15 = some (.riotWrT8 0) ∧ decodeTableWord 8 0x10 = some .miotRdPa ∧
    decodeTableWord 16 0x400 = some (.miotRdRom ⟨10, 0⟩) ∧
    look State.variant (step (State.reset.withFetchWord 16 0x400)) = some .miot ∧
    look (fun s => s.timer.prescale) (step (State.reset.withFetchWord 8 0x15)) = some .div8 ∧
    look (fun s => s.params.romSize) (step ((miot.setRomSize 512).withFetchWord 16 0x400)) = some 1024 := by
  refine ⟨rfl, rfl, rfl, rfl, rfl, rfl, rfl, by decide, by decide, by decide⟩

/-! ## Ports -/

/-- V-P1. -/
theorem test_rdPa_mixed :
    look (fun s => (s.dataOut, s.pa.input)) (exec .riotRdPa (withPortA 0xA5 0x0F 0x3C 0x3C riot)) =
      some (some 0x35, 0x3C) := by decide

/-- R80: a falling PA7 that was not reported is found by the read. -/
theorem test_rdPa_observes :
    look edgeAndIrq (exec .riotRdPa (withPortA 0x00 0x00 0xFF 0x7F (withEdge .falling true false true))) =
      some (true, true) := by decide

/-- V-P2 on MIOT. -/
theorem test_miot_rdPa_outputs :
    look State.dataOut (exec .miotRdPa (withPortA 0x5A 0xFF 0x00 0x00 miot)) = some (some 0x5A) := by decide

/-- V-E9. -/
theorem test_wrPa_edge :
    look edgeAndIrq (exec (.riotWrPa 0x00) (withPortA 0x80 0x80 0xFF 0xFF (withEdge .falling true false true))) =
      some (true, true) := by decide

/-- R81: the latch of an input pin is stored and makes no edge. -/
theorem test_wrPa_input_pin :
    look (fun s => (s.pa.latch, edgeAndIrq s)) (exec (.riotWrPa 0x5A) (withEdge .falling true false true)) =
      some (0x5A, false, false) := by decide

/-- V-E7. -/
theorem test_wrDdra_edge :
    look edgeAndIrq (exec (.riotWrDdra 0x80) riot) = some (true, false) := by decide

/-- V-P5. -/
theorem test_rdDdra :
    look State.dataOut (exec .riotRdDdra (withPortA 0x00 0x5A 0xFF 0xFF riot)) = some (some 0x5A) := by decide

/-- V-P4. -/
theorem test_rdPb_undriven : look State.dataOut (exec .riotRdPb riot) = some (some 0xFF) := by decide

/-- S7. -/
theorem test_rdPb_round_trip :
    look State.dataOut (exec .miotRdPb (withPortB 0x5A 0xC3 0x0F 0x0F miot)) = some (some 0x4E) := by decide

/-- V-P7: the write of the latch with PB.ddr = 0x0F. -/
theorem test_wrPb_outputs :
    look (fun s => (portOE .b s, portO .b s, portByte .b s)) (exec (.riotWrPb 0x3C) (withPortB 0x00 0x0F 0xFF 0xFF riot)) =
      some (0x0F, 0x3C, 0xFC) := by decide

/-- V-P8: the write of the direction register with PB.latch = 0x01. -/
theorem test_wrDdrb_outputs :
    look (fun s => (portOE .b s, portByte .b s)) (exec (.miotWrDdrb 0x01) (withPortB 0x01 0x00 0xFF 0xFF miot)) =
      some (0x01, 0xFF) := by decide

/-- V-P6. -/
theorem test_rdDdrb_after_reset : look State.dataOut (exec .riotRdDdrb riot) = some (some 0x00) := by decide

/-- R81, R83, R85: the Port A writes and the Port B latch write of MIOT store their byte in their own register. -/
theorem test_miot_port_writes :
    look (fun s => (s.pa.latch, s.pa.ddr)) (exec (.miotWrPa 0x81) miot) = some (0x81, 0x00) ∧
    look (fun s => (s.pa.latch, s.pa.ddr)) (exec (.miotWrDdra 0x42) miot) = some (0x00, 0x42) ∧
    look (fun s => (s.pb.latch, s.pb.ddr)) (exec (.miotWrPb 0x24) miot) = some (0x24, 0x00) ∧
    look (fun s => (s.pb.latch, s.pb.ddr)) (exec (.riotWrDdrb 0x18) riot) = some (0x00, 0x18) := by decide

/-- R82, R87 on MIOT: each direction read gives its own port's register. -/
theorem test_miot_direction_reads :
    look State.dataOut (exec .miotRdDdra (withPortA 0x11 0x22 0x33 0x33 (withPortB 0x44 0x55 0x66 0x66 miot))) =
      some (some 0x22) ∧
    look State.dataOut (exec .miotRdDdrb (withPortA 0x11 0x22 0x33 0x33 (withPortB 0x44 0x55 0x66 0x66 miot))) =
      some (some 0x55) := by decide

/-- R92: under another PB7_IRQ_MODE the lower seven bits of a Port B read are ordinary. -/
theorem test_rdPb_governed :
    look (fun s => s.dataOut.map (fun b => b &&& 0x7F)) (exec .miotRdPb (governedMiot (withPortB 0x5A 0xC3 0x0F 0x0F miot))) =
      some (some 0x4E) := by
  have h : ∀ b, withBit 0x4E 7 b &&& 0x7F = 0x4E := by decide
  exact congrArg (fun x => some (some x)) (h _)

/-- R35 with UNDRIVEN_LEVEL = 0: FILL is 0x00. -/
theorem test_portByte_fill_zero :
    portByte .a { withPortA 0xFF 0x0F 0x00 0x00 riot with
      params := { undrivenLevel := false, pb7IrqMode := .none, romSize := 1024, rom := [] } } = 0x0F := by decide

/-- V-P9: the input level of an output pin is updated. -/
theorem test_setInput_output_pin :
    look (fun s => (s.pb.input, envLevels .b s)) (deliver (.setInput .b 0 false) (withPortB 0x01 0x01 0xFF 0xFF riot)) =
      some (0xFE, 0xFE) := by decide

/-- V-E8: with PA7 an output, a pin change makes no edge. -/
theorem test_setInput_pa7_output :
    look edgeAndIrq (deliver (.setInput .a 7 false) (withPortA 0x80 0x80 0xFF 0xFF (withEdge .falling true false true))) =
      some (false, false) := by decide

/-- V-E11. -/
theorem test_setInputByte_edge : look edgeAndIrq (deliver (.setInputByte .a 0x7F) riot) = some (true, false) := by decide

/-! ## Timer -/

/-- S2: the load. -/
theorem test_wrT8I_load :
    look (fun s => (timerAndIrq s, s.timer.value, s.timer.prescale, s.timer.ie, s.timer.tLoad))
      (exec (.riotWrT8I 0x0A) (riot.setNow 5)) =
      some ((.counting, false, false), 0x0A, .div8, true, 5) := by decide

/-- S2: the tick from 79 to 80 crosses, and the tick before it does not. -/
theorem test_tick_crosses :
    look timerAndIrq (deliver .tick (withTimer .counting 0x0A .div8 true false 79 riot)) = some (.spinning, true, true) ∧
    look timerAndIrq (deliver .tick (withTimer .counting 0x0A .div8 true false 78 riot)) = some (.counting, false, false) := by
  decide

/-- R102's example: a read at 8 of a count of 10 gives 9, at 79 it gives 1. -/
theorem test_rdTimer_counting :
    look State.dataOut (exec .riotRdTimer (withTimer .counting 0x0A .div8 true false 8 riot)) = some (some 0x09) ∧
    look State.dataOut (exec .riotRdTimer (withTimer .counting 0x0A .div8 true false 79 riot)) = some (some 0x01) := by
  decide

/-- S5 at 80, 81, 336 and 337, on MIOT. -/
theorem test_rdTimer_spinning :
    look State.dataOut (exec .miotRdTimer (withTimer .spinning 0x0A .div8 false false 80 miot)) = some (some 0x00) ∧
    look State.dataOut (exec .miotRdTimer (withTimer .spinning 0x0A .div8 false false 81 miot)) = some (some 0xFF) ∧
    look State.dataOut (exec .miotRdTimer (withTimer .spinning 0x0A .div8 false false 336 miot)) = some (some 0x00) ∧
    look State.dataOut (exec .miotRdTimer (withTimer .spinning 0x0A .div8 false false 337 miot)) = some (some 0xFF) := by
  decide

/-- V-T3 at 1023, 1024, 261119, 261120, 261121. -/
theorem test_rdTimer_longest_span :
    timerValue (withTimer .counting 0xFF .div1024 false false 1023 riot) = 0xFF ∧
    timerValue (withTimer .counting 0xFF .div1024 false false 1024 riot) = 0xFE ∧
    timerValue (withTimer .counting 0xFF .div1024 false false 261119 riot) = 0x01 ∧
    timerValue (withTimer .spinning 0xFF .div1024 false false 261120 riot) = 0x00 ∧
    timerValue (withTimer .spinning 0xFF .div1024 false false 261121 riot) = 0xFF := by decide

/-- V-T10: the open TIMER_IDLE_VALUE before the first load. -/
theorem test_rdTimer_idle : look State.dataOut (exec .riotRdTimer riot) = some (some Config.timerIdleValue) := rfl

/-- V-T4 and V-T5: a load of count 0. -/
theorem test_zero_count_load :
    look timerAndIrq (exec (.riotWrT8I 0x00) riot) = some (.spinning, true, true) ∧
    look timerAndIrq (exec (.riotWrT8 0x00) riot) = some (.spinning, false, false) := by decide

/-- V-T6, S6: a load while the flag is set clears it. -/
theorem test_reload_clears_flag :
    look timerAndIrq (exec (.riotWrT1 0x05) (withTimer .spinning 0x01 .div1 true true 1 riot)) =
      some (.counting, false, false) := by decide

/-- R97-R104: each load of RIOT sets its own shift and enable. -/
theorem test_riot_loads :
    look (fun s => (s.timer.prescale, s.timer.ie)) (exec (.riotWrT1 3) riot) = some (.div1, false) ∧
    look (fun s => (s.timer.prescale, s.timer.ie)) (exec (.riotWrT64 3) riot) = some (.div64, false) ∧
    look (fun s => (s.timer.prescale, s.timer.ie)) (exec (.riotWrT1024 3) riot) = some (.div1024, false) ∧
    look (fun s => (s.timer.prescale, s.timer.ie)) (exec (.riotWrT1I 3) riot) = some (.div1, true) ∧
    look (fun s => (s.timer.prescale, s.timer.ie)) (exec (.riotWrT64I 3) riot) = some (.div64, true) ∧
    look (fun s => (s.timer.prescale, s.timer.ie)) (exec (.riotWrT1024I 3) riot) = some (.div1024, true) := by decide

/-- R97-R104: each load of MIOT sets its own shift and enable. -/
theorem test_miot_loads :
    look (fun s => (s.timer.prescale, s.timer.ie)) (exec (.miotWrT1 3) miot) = some (.div1, false) ∧
    look (fun s => (s.timer.prescale, s.timer.ie)) (exec (.miotWrT8 3) miot) = some (.div8, false) ∧
    look (fun s => (s.timer.prescale, s.timer.ie)) (exec (.miotWrT64 3) miot) = some (.div64, false) ∧
    look (fun s => (s.timer.prescale, s.timer.ie)) (exec (.miotWrT1024 3) miot) = some (.div1024, false) ∧
    look (fun s => (s.timer.prescale, s.timer.ie)) (exec (.miotWrT1I 3) miot) = some (.div1, true) ∧
    look (fun s => (s.timer.prescale, s.timer.ie)) (exec (.miotWrT8I 3) miot) = some (.div8, true) ∧
    look (fun s => (s.timer.prescale, s.timer.ie)) (exec (.miotWrT64I 3) miot) = some (.div64, true) ∧
    look (fun s => (s.timer.prescale, s.timer.ie)) (exec (.miotWrT1024I 3) miot) = some (.div1024, true) := by decide

/-- V-T8: a timer read clears nothing. -/
theorem test_rdTimer_keeps_flag :
    look timerAndIrq (exec .riotRdTimer (withTimer .spinning 0x02 .div8 true true 16 riot)) =
      some (.spinning, true, true) := by decide

/-- V-T13: the incremental form at ticks 7 to 8, 15 to 16 and 16 to 17. -/
theorem test_incremental_form :
    ((incTick ⟨.counting, 2, 7, .div8, false, false⟩).cnt, (incTick ⟨.counting, 2, 7, .div8, false, false⟩).pre) = (1, 0) ∧
    (incTick ⟨.counting, 1, 7, .div8, false, false⟩).state = .spinning ∧
    (incTick ⟨.spinning, 0, 0, .div8, false, false⟩).cnt = 0xFF := by decide

/-! ## Edge detector and interrupt-flag register -/

/-- V-E1: the falling edge. -/
theorem test_edge_falling :
    look edgeAndIrq (deliver (.setInput .a 7 false) (withEdge .falling true false true)) = some (true, true) := by decide

/-- V-E3: the falling edge under RISING sets nothing, and the level is recorded. -/
theorem test_edge_opposite :
    look (fun s => s.chip) (deliver (.setInput .a 7 false) (withEdge .rising true false true)) =
      some (.riot ⟨.rising, true, false, false⟩) := by decide

/-- V-E14: the write that disables the edge interrupt. -/
theorem test_wrEdgeNeg : look edgeAndIrq (exec .riotWrEdgeNeg (withEdge .falling true true false)) = some (true, false) := by
  decide

/-- V-E4: the enabling write raises IRQ. -/
theorem test_wrEdgeNegIe : look edgeAndIrq (exec .riotWrEdgeNegIe (withEdge .falling false true false)) = some (true, true) := by
  decide

/-- R124: RISING, disabled. -/
theorem test_wrEdgePos :
    look (fun s => s.chip) (exec .riotWrEdgePos (withEdge .falling true false true)) =
      some (.riot ⟨.rising, false, false, true⟩) := by decide

/-- V-E6: a polarity change makes no edge. -/
theorem test_wrEdgePosIe :
    look (fun s => s.chip) (exec .riotWrEdgePosIe riot) = some (.riot ⟨.rising, true, false, true⟩) := by decide

/-- V-E10: both flags are read and cleared. -/
theorem test_rdIfr_both :
    look (fun s => (s.dataOut, s.timer.flag, edgeAndIrq s))
      (exec .riotRdIfr ((withEdge .falling false true false).setTimer ⟨.spinning, 0, .div1, 0, true, true⟩)) =
      some (some 0xC0, false, false, false) := by decide

/-- V-E12: on MIOT bit 6 is 0. -/
theorem test_miot_rdIfr :
    look (fun s => (s.dataOut, s.timer.flag)) (exec .miotRdIfr (miot.setTimer ⟨.spinning, 0, .div1, 0, true, true⟩)) =
      some (some 0x80, false) := by decide

/-! ## RAM, ROM, reset -/

/-- V-M1: the write and the read. -/
theorem test_riot_ram :
    look (fun s => ramByte s 0x7F) (exec (.riotWrRam 0x7F 0x12) riot) = some 0x12 ∧
    look State.dataOut (exec (.riotRdRam 0x7F) (riot.setRam [(0x7F, 0x12)])) = some (some 0x12) := by decide

/-- V-M2: the write and the read. -/
theorem test_miot_ram :
    look (fun s => ramByte s 0x3F) (exec (.miotWrRam 0x3F 0xA5) miot) = some 0xA5 ∧
    look State.dataOut (exec (.miotRdRam 0x3F) (miot.setRam [(0x3F, 0xA5)])) = some (some 0xA5) := by decide

/-- R133: a byte nothing has stored to is the open RAM_INIT byte. -/
theorem test_ram_initial : look State.dataOut (exec (.riotRdRam 0x10) riot) = some (some (Config.ramInit 0x10)) := rfl

/-- A MIOT whose ROM image holds one byte. -/
def miotWithRom : State := { miot with params := { undrivenLevel := true, pb7IrqMode := .none, romSize := 1024, rom := [(0, 0xD8)] } }

/-- V-M3: the write changes nothing, and the read gives the image's byte. -/
theorem test_miot_rom :
    look (fun s => romByte s 0) (exec (.miotWrRom ⟨10, 0⟩ 0xFF) miotWithRom) = some 0xD8 ∧
    look State.dataOut (exec (.miotRdRom ⟨10, 0⟩) miotWithRom) = some (some 0xD8) := by decide

/-- A MIOT with 768 ROM bytes, the last of them supplied. -/
def miotWithRom768 : State :=
  { miot with params := { undrivenLevel := true, pb7IrqMode := .none, romSize := 768, rom := [(767, 0xEA)] } }

/-- R48, R135, log 26: the last byte of the window is read; the next offset, and an offset of another width, are outside. -/
theorem test_miot_rom_size :
    look State.dataOut (exec (.miotRdRom ⟨10, 767⟩) miotWithRom768) = some (some 0xEA) ∧
    exec (.miotRdRom ⟨10, 768⟩) miotWithRom768 = .fault .outsideRomWindow ∧
    exec (.miotWrRom ⟨11, 0⟩ 0xFF) miotWithRom768 = .fault .outsideRomWindow ∧
    exec (.miotRdRom ⟨10, 768⟩) riot = .fault .notOnThisVariant := ⟨by decide, rfl, rfl, rfl⟩

/-- V-R1: a RESET after PA is all outputs and the timer's flag is set. -/
theorem test_reset :
    look (fun s => (s.pa, timerAndIrq s, portOE .a s))
      (deliver .reset ((withPortA 0xFF 0xFF 0xFF 0xFF riot).setTimer ⟨.spinning, 0, .div1, 0, true, true⟩)) =
      some (⟨0x00, 0x00, 0xFF⟩, (.idle, false, false), 0x00) := by decide

/-- V-R2: PA7 was driven low, and RESET makes no edge. -/
theorem test_reset_no_edge :
    look (fun s => s.chip) (deliver .reset (withPortA 0x00 0x80 0xFF 0xFF (withEdge .falling true false false))) =
      some (.riot ⟨.falling, false, false, true⟩) := by decide

/-- V-M4: RESET leaves the RAM. -/
theorem test_reset_keeps_ram :
    look (fun s => ramByte s 0x10) (deliver .reset (riot.setRam [(0x10, 0x77)])) = some 0x77 := by decide

/-! ## Witnesses: for every statement with hypotheses, states and operands that meet them -/

/-- RESET leaves an edge detector that has observed PA7. -/
theorem edgeInv_riot : EdgeInv riot := by
  intro e h
  injection h with h
  subst h
  rfl

/-- A RIOT that drives PA7 high. -/
def pa7Out : State := riot.setPa { latch := 0x80, ddr := 0x80, input := 0xFF }

/-- Its edge detector has observed that level. -/
theorem edgeInv_pa7Out : EdgeInv pa7Out := by
  intro e h
  injection h with h
  subst h
  rfl

/-- The reset timer meets its invariant. -/
theorem timerInv_reset (v : Variant) : TimerInv (State.resetOf v).timer (State.resetOf v).now :=
  ⟨fun _ => ⟨rfl, rfl⟩, fun h => (by cases h), fun h => (by cases h)⟩

/-- The executable check of the timer's invariant. -/
theorem timerCheck (t : Timer) (now : Nat) (h : timerReachable t now = true) : TimerInv t now :=
  (timerReachable_iff t now).1 h

/-- The reset RAM meets its invariant. -/
theorem ramInv_reset (v : Variant) : RamInv (State.resetOf v) := ⟨rfl, fun c h => by cases h⟩

/-- The reset RIOT meets the invariant. -/
theorem chipInv_riot : ChipInv riot := ⟨timerInv_reset .riot, edgeInv_riot, ramInv_reset .riot⟩

/-- The reset MIOT meets the invariant. -/
theorem chipInv_miot : ChipInv miot := ⟨timerInv_reset .miot, fun _ h => (by cases h), ramInv_reset .miot⟩

/-- In every table, each row's pattern, and the word with every don't-care bit set as well, meet that row's hypothesis. -/
theorem witness_DecodesEveryRowOfTheOpcodeTable :
    (∀ r ∈ io32Rows, r.pattern &&& r.mask = r.pattern ∧ (r.pattern ||| ~~~r.mask) &&& r.mask = r.pattern) ∧
    (∀ r ∈ io16Rows, r.pattern &&& r.mask = r.pattern ∧ (r.pattern ||| ~~~r.mask) &&& r.mask = r.pattern) ∧
    (∀ r ∈ ram128Rows, r.pattern &&& r.mask = r.pattern ∧ (r.pattern ||| ~~~r.mask) &&& r.mask = r.pattern) ∧
    (∀ r ∈ ram64Rows, r.pattern &&& r.mask = r.pattern ∧ (r.pattern ||| ~~~r.mask) &&& r.mask = r.pattern) ∧
    (∀ r ∈ romRows 10, r.pattern &&& r.mask = r.pattern ∧ (r.pattern ||| ~~~r.mask) &&& r.mask = r.pattern) ∧
    (0x200#10).getLsbD 9 = true ∧ (0x1FF#10).getLsbD 9 = false := by decide

theorem witness_MirrorsActAsTheCanonicalOffset :
    decode (.io32 0x38 0) = .ok .riotRdPa ∧
    ((0x3B#6 &&& 0x04#6 = 0 ∧ 0x3B#6 &&& 0x27#6 = 0x23#6 &&& 0x27#6) ∧
      (0x1B#6 &&& 0x04#6 = 0 ∧ 0x1B#6 &&& 0x27#6 = 0x03#6 &&& 0x27#6)) ∧
    (0x3F#6 &&& 0x24#6 = 0x24 ∧ 0x3F#6 &&& 0x25#6 = 0x25#6 &&& 0x25#6) := ⟨rfl, by decide, by decide⟩

theorem witness_StepRunsTheDecodedOperation :
    riot.schedule = [] ∧
    (riot.setSchedule [.bus (.io32 0x24 0)]).schedule = .bus (.io32 0x24 0) :: [] ∧
    decode (.io32 0x24 0) = .ok .riotRdTimer := ⟨rfl, rfl, rfl⟩

theorem witness_EveryAccessAndEventCompletes :
    (Transaction.io32 0x3F 0).wellFormedFor riot.variant riot.params.romSize = true ∧
    (Transaction.rom 10 0x7FF 0).wellFormedFor miot.variant miot.params.romSize = true ∧
    Instr.riotRdIfr.wellFormedFor riot.variant riot.params.romSize = true ∧
    (Instr.miotWrRom ⟨10, 1023⟩ 0xFF).wellFormedFor miot.variant miot.params.romSize = true ∧
    (Instr.miotRdRom ⟨10, 767⟩).wellFormedFor miotWithRom768.variant miotWithRom768.params.romSize = true := by decide

theorem witness_OperationsOfTheOtherVariantStop :
    Instr.miotRdIfr.variant ≠ riot.variant ∧ Instr.riotWrEdgeNeg.variant ≠ miot.variant ∧
    ((Instr.miotRdRom ⟨10, 768⟩).variant = miotWithRom768.variant ∧
      (Instr.miotRdRom ⟨10, 768⟩).inRomWindow miotWithRom768.params.romSize = false) ∧
    ((Instr.miotWrRom ⟨9, 0⟩ 0).variant = miot.variant ∧ (Instr.miotWrRom ⟨9, 0⟩ 0).inRomWindow miot.params.romSize = false) := by
  decide

theorem witness_PortBReadGivesResolvedLevels :
    Pb7Ordinary riot ∧ Pb7Ordinary miot ∧ (6 : Fin 8) ≠ 7 ∧
    ((governedMiot miot).variant = .miot ∧ (governedMiot miot).params.pb7IrqMode = .governed 0) :=
  ⟨.inl rfl, .inr rfl, by decide, rfl, rfl⟩

theorem witness_UndrivenInputsReadTheUndrivenLevel :
    (bitOf (portOf .a riot).ddr 7 = false ∧ bitOf (envOf .a riot).driven 7 = false) ∧
    (bitOf (portOf .b miot).ddr 7 = false ∧ bitOf (envOf .b miot).driven 7 = false ∧ Pb7Ordinary miot) :=
  ⟨by decide, by decide, by decide, .inr rfl⟩

theorem witness_PortBWritesStoreTheirRegister :
    0x1A#6 &&& 0x27#6 = 0x02 ∧ 0x0A#5 &&& 0x17#5 = 0x02 ∧ 0x1B#6 &&& 0x27#6 = 0x03 ∧ 0x0B#5 &&& 0x17#5 = 0x03 ∧
    ((7 : Fin 8) ≠ 7 ∨ Pb7Ordinary riot) ∧ ((0 : Fin 8) ≠ 7 ∨ Pb7Ordinary (governedMiot miot)) :=
  ⟨by decide, by decide, by decide, by decide, .inr (.inl rfl), .inl (by decide)⟩

theorem witness_PortRoundTrip : (PortName.b = .b → Pb7Ordinary riot) ∧ (PortName.b = .b → Pb7Ordinary miot) :=
  ⟨fun _ => .inl rfl, fun _ => .inr rfl⟩

theorem witness_SetInputUpdatesThePinAndObserves :
    (PortName.a = .a ∧ (7 : Fin 8) = 7) ∧ ¬(PortName.a = .a ∧ (6 : Fin 8) = 7) ∧
    bitOf (withPortA 0x80 0x80 0xFF 0xFF riot).pa.ddr 7 = true ∧
    (bitOf 0x7F 7 = false ∧ (PortName.a = .b → (7 : Fin 8) = 7 → Pb7Ordinary riot)) ∧
    (bitOf 0x7F 7 = false ∧ (PortName.b = .b → (7 : Fin 8) = 7 → Pb7Ordinary miot)) :=
  ⟨by decide, by decide, by decide, ⟨by decide, fun _ _ => .inl rfl⟩, by decide, fun _ _ => .inr rfl⟩

theorem witness_OutputsFollowTheState : PortName.b = .b → (7 : Fin 8) = 7 → Pb7Ordinary riot := fun _ _ => .inl rfl

theorem witness_OnlyPa7FeedsTheEdgeDetector :
    (∃ t, exec (.riotWrPb 0xFF) riot = .next t) ∧
    (¬(PortName.a = .a ∧ (6 : Fin 8) = 7) ∧ ∃ t, deliver (.setInput .a 6 false) riot = .next t) ∧
    (∃ t, deliver (.setInputByte .b 0x00) riot = .next t) ∧
    (EdgeInv riot ∧ bitOf 0x7F 7 = bitOf riot.pa.latch 7 ∧ ∃ t, exec (latchWrite riot.variant .a 0x7F) riot = .next t) ∧
    (EdgeInv riot ∧ bitOf 0x7F 7 = bitOf riot.pa.ddr 7 ∧ ∃ t, exec (ddrWrite riot.variant .a 0x7F) riot = .next t) ∧
    (EdgeInv riot ∧ bitOf (envLevels .a riot) 7 = bitOf riot.pa.input 7 ∧ ∃ t, exec (portRead riot.variant .a) riot = .next t) ∧
    (EdgeInv pa7Out ∧ bitOf pa7Out.pa.ddr 7 = true ∧ ∃ t, exec (portRead pa7Out.variant .a) pa7Out = .next t) ∧
    (EdgeInv riot ∧ bitOf 0x80 7 = bitOf riot.pa.input 7 ∧ ∃ t, deliver (.setInputByte .a 0x80) riot = .next t) ∧
    (EdgeInv pa7Out ∧ bitOf pa7Out.pa.ddr 7 = true ∧ ∃ t, deliver (.setInputByte .a 0x00) pa7Out = .next t) :=
  ⟨⟨_, rfl⟩, ⟨by decide, _, rfl⟩, ⟨_, rfl⟩, ⟨edgeInv_riot, by decide, _, rfl⟩, ⟨edgeInv_riot, by decide, _, rfl⟩,
    ⟨edgeInv_riot, by decide, _, rfl⟩, ⟨edgeInv_pa7Out, by decide, _, rfl⟩, ⟨edgeInv_riot, by decide, _, rfl⟩,
    ⟨edgeInv_pa7Out, by decide, _, rfl⟩⟩

/-- The first and the last timer-load word of each window; no other word of the window loads the timer. -/
theorem witness_PrescaleTable :
    (decode (.io32 0x14 3) = .ok (.riotWrT1 3) ∧ timerLoadOf (.riotWrT1 3) = some (0b00#2, false, 3)) ∧
    (decode (.io32 0x1F 3) = .ok (.riotWrT1024I 3) ∧ timerLoadOf (.riotWrT1024I 3) = some (0b11#2, true, 3)) ∧
    (decode (.io16 0x04 3) = .ok (.miotWrT1 3) ∧ timerLoadOf (.miotWrT1 3) = some (0b00#2, false, 3)) ∧
    (decode (.io16 0x0F 3) = .ok (.miotWrT1024I 3) ∧ timerLoadOf (.miotWrT1024I 3) = some (0b11#2, true, 3)) :=
  ⟨⟨rfl, rfl⟩, ⟨rfl, rfl⟩, ⟨rfl, rfl⟩, rfl, rfl⟩

/-- A count of 0 and a count of 1 meet the two cases of a load. -/
theorem witness_TimerLoadsSetEveryField : (0x01#8 ≠ 0) ∧ (0x00#8 = 0) := by decide

/-- IDLE, the last COUNTING tick and the crossing tick. -/
theorem witness_TimerReadReturnsTheCount :
    riot.timer.state = .idle ∧
    (TimerInv (withTimer .counting 0x0A .div8 true false 79 riot).timer (withTimer .counting 0x0A .div8 true false 79 riot).now ∧
      (withTimer .counting 0x0A .div8 true false 79 riot).timer.state = .counting) ∧
    (TimerInv (withTimer .spinning 0x0A .div8 true true 80 riot).timer (withTimer .spinning 0x0A .div8 true true 80 riot).now ∧
      (withTimer .spinning 0x0A .div8 true true 80 riot).timer.state = .spinning) := by
  refine ⟨rfl, ⟨(timerCheck _ _ ?_), rfl⟩, (timerCheck _ _ ?_), rfl⟩ <;> decide

theorem witness_TickAdvancesTimeAndCrosses :
    ((withTimer .counting 0x0A .div8 true false 79 riot).timer.state = .counting ∧
      79 + 1 = 0 + ((0x0A#8).toNat <<< prescaleShift .div8)) ∧
    ¬((withTimer .counting 0x0A .div8 true false 78 riot).timer.state = .counting ∧
      78 + 1 = 0 + ((0x0A#8).toNat <<< prescaleShift .div8)) ∧
    (withTimer .counting 0x0A .div8 true false 79 riot).timer.ie = true := by decide

/-- The zero-count case of the enable. -/
theorem witness_ZeroCountLoadCrossesAtOnce : (true = true) ∧ riot.variant = .riot ∧ miot.variant = .miot := ⟨rfl, rfl, rfl⟩

/-- The last read before a period ends, and the read at the crossing. -/
theorem witness_CountdownReadsCountMinusPeriods :
    (9 ≤ (0x0A#8).toNat ∧ 7 < divisor (prescaleOf 0b01#2) ∧ ((7 : Nat) = 0 ∨ 9 < (0x0A#8).toNat)) ∧
    (10 ≤ (0x0A#8).toNat ∧ 0 < divisor (prescaleOf 0b01#2) ∧ ((0 : Nat) = 0 ∨ 10 < (0x0A#8).toNat)) := by decide

theorem witness_OneCrossingPerLoad :
    (∃ t, deliver .tick (withTimer .spinning 0x0A .div8 true true 80 riot) = .next t) ∧
    (withTimer .spinning 0x0A .div8 true true 80 riot).timer.state = .spinning ∧
    loadsTimer .tick = false ∧ Event.tick ≠ .reset ∧ restores .tick = false :=
  ⟨⟨_, rfl⟩, rfl, rfl, by decide, rfl⟩

/-- The reset timer's incremental form. -/
def incIdle : IncTimer := ⟨.idle, 0, 0, .div1, false, false⟩

/-- A schedule that loads the timer, ticks it across zero and reads it. -/
theorem witness_IncrementalFormGivesTheSameReads :
    riot.timer.state = .idle ∧ incIdle.state = .idle ∧ incIdle.ie = riot.timer.ie ∧ incIdle.flag = riot.timer.flag ∧
    (∀ e ∈ [Event.bus (.io32 0x1C 1), .tick, .bus (.io32 0x24 0)], restores e = false) ∧
    ∃ t, Host.Core.run core 3 (riot.setSchedule [.bus (.io32 0x1C 1), .tick, .bus (.io32 0x24 0)]) = .next t :=
  ⟨rfl, rfl, rfl, rfl, by decide, _, rfl⟩

/-- After RESET: a tick, a pin change, an IFR read and a timer read, none of them a load or a restore. -/
theorem witness_ResetCancelsTheExpiry :
    (∀ e ∈ [Event.tick, .setInput .a 7 false, .bus (.io32 0x25 0), .bus (.io32 0x24 0)],
      loadsTimer e = false ∧ restores e = false) ∧
    ∃ t, Host.Core.run core 4
      (riot.setSchedule [.tick, .setInput .a 7 false, .bus (.io32 0x25 0), .bus (.io32 0x24 0)]) = .next t :=
  ⟨by decide, _, rfl⟩

theorem witness_ReadsWithoutSideEffects :
    (∃ t, exec .riotRdTimer riot = .next t) ∧ (∃ t, exec (.riotRdRam 127) riot = .next t) ∧
    (∃ t, exec .miotRdDdrb miot = .next t) ∧ (∃ t, exec (.miotRdRom ⟨10, 1023⟩) miot = .next t) :=
  ⟨⟨_, rfl⟩, ⟨_, rfl⟩, ⟨_, rfl⟩, _, rfl⟩

theorem witness_RepeatedAccessesAreIdempotent :
    (∃ t, exec (portRead riot.variant .a) riot = .next t) ∧ (∃ t, exec (latchWrite miot.variant .b 0xFF) miot = .next t) ∧
    (∃ t, exec (ddrWrite riot.variant .a 0x80) riot = .next t) ∧
    (∃ t, exec (timerLoad riot.variant 0b11#2 true 0x00) riot = .next t) ∧
    (∃ t, exec (edgeWrite .rising true) riot = .next t) ∧ (∃ t, exec (.riotWrRam 127 0x01) riot = .next t) ∧
    (∃ t u, exec (ifrRead riot.variant) riot = .next t ∧ exec (ifrRead riot.variant) t = .next u) :=
  ⟨⟨_, rfl⟩, ⟨_, rfl⟩, ⟨_, rfl⟩, ⟨_, rfl⟩, ⟨_, rfl⟩, ⟨_, rfl⟩, _, _, rfl, rfl⟩

theorem witness_EdgeComparison : riot.chip = .riot ⟨.falling, false, false, true⟩ ∧ miot.chip = .miot := ⟨rfl, rfl⟩

theorem witness_EdgeControlWritesConfigure :
    riot.chip = .riot ⟨.falling, false, false, true⟩ ∧ ∃ t, exec (edgeWrite .rising true) riot = .next t := ⟨rfl, _, rfl⟩

theorem witness_PolarityChangeMakesNoEdge :
    EdgeInv riot ∧ riot.chip = .riot ⟨.falling, false, false, true⟩ ∧ ∃ t, exec (edgeWrite .rising true) riot = .next t :=
  ⟨edgeInv_riot, rfl, _, rfl⟩

theorem witness_EdgeFlagFollowsMatchingTransitions :
    EdgeInv riot ∧ riot.chip = .riot ⟨.falling, false, false, true⟩ ∧
    (∃ t, deliver (.setInput .a 7 false) riot = .next t) ∧
    readsIfr (.setInput .a 7 false) = false ∧ configuresEdge (.setInput .a 7 false) = false ∧
    Event.setInput .a 7 false ≠ .reset ∧ restores (.setInput .a 7 false) = false :=
  ⟨edgeInv_riot, rfl, ⟨_, rfl⟩, rfl, rfl, by decide, rfl⟩

theorem witness_IfrReadAnswersAndClearsBothFlags :
    riot.chip = .riot ⟨.falling, false, false, true⟩ ∧ miot.chip = .miot ∧ (5 : Fin 8).val < 6 := ⟨rfl, rfl, by decide⟩

theorem witness_RamWriteStoresOneByte : riot.variant = .riot ∧ miot.variant = .miot ∧ 126 ≠ (127#7).toNat := by decide

theorem witness_RamReadAnswersTheByte :
    riot.variant = .riot ∧ miot.variant = .miot ∧ Memory.read [(127, 0x12)] (127#7).toNat = some 0x12 ∧
    Memory.read riot.ram (127#7).toNat = none ∧ ∃ t, deliver .reset riot = .next t :=
  ⟨rfl, rfl, rfl, rfl, _, rfl⟩

/-- The last offset of the default window, and of a window that is no power of two. -/
theorem witness_RomWriteHasNoEffect :
    (miot.variant = .miot ∧ 10 = romOffsetWidth miot.params.romSize ∧ (1023#10).toNat < miot.params.romSize) ∧
    (miotWithRom768.variant = .miot ∧ 10 = romOffsetWidth miotWithRom768.params.romSize ∧
      (767#10).toNat < miotWithRom768.params.romSize) := by decide

theorem witness_RomReadAnswersTheContents :
    (miotWithRom.variant = .miot ∧ 10 = romOffsetWidth miotWithRom.params.romSize ∧
      (0#10).toNat < miotWithRom.params.romSize ∧ Memory.read miotWithRom.params.rom (0#10).toNat = some 0xD8) ∧
    (miot.variant = .miot ∧ 10 = romOffsetWidth miot.params.romSize ∧
      (1023#10).toNat < miot.params.romSize ∧ Memory.read miot.params.rom (1023#10).toNat = none) := by decide

theorem witness_OnlyARamWriteChangesRam :
    (∃ t, exec (.riotWrRam 127 0x01) riot = .next t) ∧ storedOffset (.riotWrRam 127 0x01) = some 127 ∧
    (∃ t, deliver .tick riot = .next t) ∧ restores .tick = false :=
  ⟨⟨_, rfl⟩, rfl, ⟨_, rfl⟩, rfl⟩

theorem witness_OnlyTheNamedRegistersChange :
    (∃ t, exec .riotRdIfr riot = .next t) ∧ timerLoadOf .riotRdIfr = none ∧ isEdgeWrite .riotRdIfr = false ∧
    (∃ t, exec (.miotWrT1 0x01) miot = .next t) ∧ miot.chip = .miot :=
  ⟨⟨_, rfl⟩, rfl, by decide, ⟨_, rfl⟩, rfl⟩

theorem witness_InterruptLineIsTheMaskedOr : Pb7Ordinary riot ∧ Pb7Ordinary miot := ⟨.inl rfl, .inr rfl⟩

theorem witness_IrqIsHeldUntilItIsCleared :
    (∃ t, deliver .tick (withEdge .falling true true true) = .next t) ∧ irq (withEdge .falling true true true) = true ∧
    readsIfr .tick = false ∧ loadsTimer .tick = false ∧ configuresEdge .tick = false ∧ Event.tick ≠ .reset ∧
    restores .tick = false :=
  ⟨⟨_, rfl⟩, by decide, rfl, rfl, rfl, by decide, rfl⟩

/-- Each of the sources takes IRQ from 0 to 1: a crossing, a load of count 0, a matching edge, an enabling write. -/
theorem witness_IrqRisesOnlyFromItsSources :
    (irq (withTimer .counting 1 .div1 true false 0 riot) = false ∧
      look irq (deliver .tick (withTimer .counting 1 .div1 true false 0 riot)) = some true) ∧
    (irq riot = false ∧ look irq (deliver (.bus (.io32 0x1C 0)) riot) = some true) ∧
    (irq (withEdge .falling true false true) = false ∧
      look irq (deliver (.setInput .a 7 false) (withEdge .falling true false true)) = some true) ∧
    (irq (withEdge .falling false true true) = false ∧
      look irq (deliver (.bus (.io32 0x06 0)) (withEdge .falling false true true)) = some true) := by decide

theorem witness_TimerEnableChangesOnlyAtALoad :
    (∃ t, deliver (.bus (.io32 0x24 0)) riot = .next t) ∧ loadsTimer (.bus (.io32 0x24 0)) = false ∧
    Event.bus (.io32 0x24 0) ≠ .reset ∧ restores (.bus (.io32 0x24 0)) = false := ⟨⟨_, rfl⟩, rfl, by decide, rfl⟩

theorem witness_ResetEventSetsTheResetValues :
    riot.chip = .riot ⟨.falling, false, false, true⟩ ∧ miot.chip = .miot := ⟨rfl, rfl⟩

theorem witness_ResetIsIdempotentAndQuiet : (∃ t, deliver .reset riot = .next t) ∧ Pb7Ordinary miot := ⟨⟨_, rfl⟩, .inr rfl⟩

theorem witness_EveryStepKeepsTheInvariant : ChipInv riot ∧ ∃ t, step (riot.setSchedule [.tick]) = .next t :=
  ⟨chipInv_riot, _, rfl⟩

theorem witness_EveryStepKeepsTheParameters : ∃ t, step (miot.setSchedule [.reset]) = .next t := ⟨_, rfl⟩

theorem witness_TimeMovesOnlyAtTicks :
    (∃ t, deliver .tick riot = .next t) ∧ restores .tick = false ∧ Event.reset ≠ .tick := ⟨⟨_, rfl⟩, rfl, by decide⟩

theorem witness_RestoreOfASnapshotReplacesTheChip :
    (ChipInv riot ∧ (withPortA 1 2 3 4 riot).variant = riot.variant) ∧ (ChipInv miot ∧ miot.variant = miot.variant) ∧
    riot.variant ≠ miot.variant := ⟨⟨chipInv_riot, rfl⟩, ⟨chipInv_miot, rfl⟩, by decide⟩

/-- Both sides of the equivalence: an offset inside, one at ROM_SIZE, and one of another width. -/
theorem witness_RomOffsetWidthIsTheLeastThatFits :
    (768 ≤ 2 ^ 10) ∧ miotWithRom768.variant = .miot ∧
    (∃ t, deliver (.bus (.rom 10 0x6FF 0)) miotWithRom768 = .next t) ∧
    deliver (.bus (.rom 10 0x700 0)) miotWithRom768 = .fault .outsideRomWindow ∧
    deliver (.bus (.rom 9 0x200 0)) miotWithRom768 = .fault .outsideRomWindow :=
  ⟨by decide, rfl, ⟨_, rfl⟩, rfl, rfl⟩

/-- The match in each timer state: IDLE, the last tick of a count and ten ticks after the crossing. -/
theorem witness_EveryEventKeepsTheIncrementalMatch :
    IncMatches incIdle riot.timer riot.now ∧
    IncMatches ⟨.counting, 1, 7, .div8, true, false⟩ (withTimer .counting 0x0A .div8 true false 79 riot).timer 79 ∧
    IncMatches ⟨.spinning, 0xF6, 0, .div8, true, true⟩ (withTimer .spinning 0x0A .div8 true true 90 riot).timer 90 ∧
    (∃ t, deliver .tick (withTimer .counting 0x0A .div8 true false 79 riot) = .next t) ∧ restores .tick = false := by
  refine ⟨⟨rfl, rfl, rfl, ?_, ?_⟩, ⟨rfl, rfl, rfl, ?_, ?_⟩, ⟨rfl, rfl, rfl, ?_, ?_⟩, ⟨_, rfl⟩, rfl⟩ <;> decide

end Sys2Proof.Tests
end

section
/-! PROOFS. The statements of 00_scope.md: the step over the schedule (O6), the prescale table (O21), and the parameters that no
step changes (O54). -/

/-! ## Decoding a timer load -/

namespace Sys2Proof

/-- The operation a table decodes a word to is made by a row of it that the word selects. -/
theorem decodeWord_selected {n : Nat} (rows : List (DecodeRow n)) (w : BitVec n) (d : Byte) (i : Instr)
    (h : decodeWord rows w d = .ok i) : ∃ r ∈ rows, selects w r = true ∧ i = r.make w d := by
  unfold decodeWord at h
  split at h
  case h_1 r hr =>
    injection h with h
    exact ⟨r, List.mem_of_find?_eq_some hr, List.find?_some hr, h.symm⟩
  case h_2 => cases h

end Sys2Proof

namespace Sys2Proof.Machine

/-- R95: a row that makes a timer load looks at A1:A0, and its pattern has the load's selector there. -/
def CarriesSelector {n : Nat} (r : DecodeRow n) : Prop :=
  ∀ (w : BitVec n) (d : Byte) (sel : BitVec 2) (ie : Bool) (c : Byte),
    timerLoadOf (r.make w d) = some (sel, ie, c) → r.mask.extractLsb' 0 2 = 0b11#2 ∧ r.pattern.extractLsb' 0 2 = sel

/-- R64: the RIOT register window's rows, each by itself: its eight load rows carry their selector, the others make no load. -/
theorem io32Rows_carrySelector : ∀ r ∈ io32Rows, CarriesSelector r := by
  simp [io32Rows, CarriesSelector, timerLoadOf]

/-- R65: the same of the MIOT register window's rows. -/
theorem io16Rows_carrySelector : ∀ r ∈ io16Rows, CarriesSelector r := by
  simp [io16Rows, CarriesSelector, timerLoadOf]

/-- R63: a word has its row's pattern in A1:A0 where the row looks at both bits. -/
theorem selects_extract_low {n : Nat} (w : BitVec n) (r : DecodeRow n) (h : selects w r = true)
    (hm : r.mask.extractLsb' 0 2 = 0b11#2) : r.pattern.extractLsb' 0 2 = w.extractLsb' 0 2 := by
  have hp : w &&& r.mask = r.pattern := by simpa [selects] using h
  have hones : (0b11#2 : BitVec 2) = BitVec.allOnes 2 := rfl
  rw [← hp, BitVec.extractLsb'_and, hm, hones, BitVec.and_allOnes]

/-- In a table whose load rows carry their selector, a word that decodes to a load has the load's selector in A1:A0. -/
theorem decodeWord_selector {n : Nat} (rows : List (DecodeRow n)) (hrows : ∀ r ∈ rows, CarriesSelector r)
    (w : BitVec n) (d : Byte) (i : Instr) (sel : BitVec 2) (ie : Bool) (c : Byte) (hd : decodeWord rows w d = .ok i)
    (hl : timerLoadOf i = some (sel, ie, c)) : sel = w.extractLsb' 0 2 := by
  obtain ⟨r, hr, hs, rfl⟩ := decodeWord_selected rows w d i hd
  obtain ⟨hm, rfl⟩ := hrows r hr w d sel ie c hl
  exact selects_extract_low w r hs hm

/-! ## What delivering an event does -/

/-- R61: a transaction that decodes runs its operation. -/
theorem deliver_bus_eq_exec (tr : Transaction) (i : Instr) (s : State) (h : decode tr = .ok i) :
    deliver (.bus tr) s = exec i s := by
  simp [deliver, runBus, h]

/-- R10: delivering an event keeps the construction-time parameters. -/
theorem deliver_params (e : Event) (s t : State) (h : deliver e s = .next t) : t.params = s.params := by
  rcases deliver_cases e s t h with ⟨_, i, _, _, _, rfl⟩ | ⟨_, rfl⟩ | ⟨p, i, l, _, rfl⟩ | ⟨p, v, _, rfl⟩ | ⟨_, rfl⟩ |
    ⟨_, _, _, rfl⟩ | ⟨p, _, _, rfl⟩
  · obtain ⟨_, _, hp, _⟩ := effectOf_frame i s
    exact hp
  · rfl
  · obtain ⟨_, _, _, hp, _⟩ := setInput_frame p i l s
    exact hp
  · obtain ⟨_, _, _, hp, _⟩ := setInputByte_frame p v s
    exact hp
  · rw [resetChip_eq]
  · rfl
  · cases p <;> rfl

/-- R7, R10: a step keeps the variant and the construction-time parameters. -/
theorem step_variant_params (s t : State) (h : step s = .next t) : t.variant = s.variant ∧ t.params = s.params := by
  rcases step_cases s t h with ⟨_, rfl⟩ | ⟨e, rest, _, hd⟩
  · exact ⟨rfl, rfl⟩
  · exact ⟨deliver_variant e (s.setSchedule rest) t hd, deliver_params e (s.setSchedule rest) t hd⟩

/-- R31: the ROM's bytes are part of the parameters. -/
theorem romByte_eq_of_params (s t : State) (h : t.params = s.params) (off : Nat) : romByte t off = romByte s off := by
  simp only [romByte, h]

/-! ## The statements -/

/-- Settles O54: every event delivered keeps the variant and the parameters, and the ROM's bytes are among the parameters. -/
theorem everyStepKeepsTheParameters : Obligations.EveryStepKeepsTheParameters := by
  intro s t h
  obtain ⟨hv, hp⟩ := step_variant_params s t h
  exact ⟨hv, hp, romByte_eq_of_params s t hp⟩

/-- Settles O6: the step delivers the next event, and a transaction delivered runs the operation it decodes to. -/
theorem stepRunsTheDecodedOperation : Obligations.StepRunsTheDecodedOperation := by
  intro s
  refine ⟨step_nil s, fun tr i rest hs hd => ?_, step_cons s⟩
  exact (step_cons s _ rest hs).trans (deliver_bus_eq_exec tr i _ hd)

/-- Settles O21: the table by evaluation, the selector's place from the rows of each register window. -/
theorem prescaleTable : Obligations.PrescaleTable :=
  ⟨by decide, by decide, by decide, by decide,
    decodeWord_selector io32Rows io32Rows_carrySelector, decodeWord_selector io16Rows io16Rows_carrySelector⟩

end Sys2Proof.Machine
end

section
/-! PROOFS. The statements of 10_state.md: the time (O55), the restore of a snapshot (O56) and the ports' outputs (O19). -/

namespace Sys2Proof.Machine

/-! ## Time -/

/-- R29: an event other than a restore moves the time by one tick if it is a TICK, and by nothing if it is not. -/
theorem deliver_now (e : Event) (s t : State) (h : deliver e s = .next t) (hr : restores e = false) :
    t.now = if e = .tick then s.now + 1 else s.now := by
  rcases deliver_cases e s t h with ⟨_, i, rfl, _, _, rfl⟩ | ⟨rfl, rfl⟩ | ⟨p, i, l, rfl, rfl⟩ | ⟨p, v, rfl, rfl⟩ |
    ⟨rfl, rfl⟩ | ⟨_, rfl, _⟩ | ⟨p, _, rfl, rfl⟩
  · obtain ⟨hn, _⟩ := effectOf_frame i s
    exact hn
  · rfl
  · obtain ⟨_, _, hn, _⟩ := setInput_frame p i l s
    exact hn
  · obtain ⟨_, _, hn, _⟩ := setInputByte_frame p v s
    exact hn
  · rw [resetChip_eq]
    rfl
  · cases hr
  · cases p <;> rfl

/-! ## Snapshot and restore -/

@[simp] theorem chipOf_edgeRecord (c : Chip) : chipOf (edgeRecord c) = c := by
  cases c <;> rfl

@[simp] theorem edgeRecord_chipOf (e : Option EdgeDetector) : edgeRecord (chipOf e) = e := by
  cases e <;> rfl

/-- R37: the whole effect of a restore. -/
theorem restoreFields_eq (snap : Snapshot) (s : State) :
    restoreFields snap s =
      { s with
        pa := snap.pa
        pb := snap.pb
        timer := snap.timer
        chip := chipOf snap.edge
        now := snap.now
        ram := snap.ram
        dataOut := none } := rfl

/-- R37: a restored chip reads as the snapshot. -/
@[simp] theorem snapshot_restoreFields (snap : Snapshot) (s : State) : snapshot (restoreFields snap s) = snap := by
  simp [restoreFields_eq, snapshot]

/-- R176: the shape a restore is checked for is the machine's invariant. -/
theorem reachableShape_iff (s : State) : reachableShape s = true ↔ ChipInv s := by
  simp only [reachableShape, ChipInv, Bool.and_eq_true, timerReachable_iff, edgeReachable_iff, ramReachable_iff, and_assoc]

theorem mayRestore_iff (snap : Snapshot) (s : State) :
    mayRestore snap s = true ↔ (chipOf snap.edge).variant = s.variant ∧ ChipInv (restoreFields snap s) := by
  simp only [mayRestore, Bool.and_eq_true, decide_eq_true_eq, reachableShape_iff]

/-- The invariant speaks only of what a snapshot holds. -/
theorem chipInv_congr_snapshot {s t : State} (h : snapshot t = snapshot s) : ChipInv t ↔ ChipInv s := by
  simp only [snapshot, Snapshot.mk.injEq] at h
  obtain ⟨hpa, _, htimer, hedge, hnow, hram⟩ := h
  have hchip : t.chip = s.chip := by simpa using congrArg chipOf hedge
  simp only [ChipInv, EdgeInv, RamInv, pa7Level, State.variant, hpa, htimer, hchip, hnow, hram]

theorem deliver_restore (snap : Snapshot) (s : State) (h : mayRestore snap s = true) :
    deliver (.restore snap) s = .next (restoreFields snap s) := if_pos h

theorem deliver_restore_refused (snap : Snapshot) (s : State) (h : ¬ mayRestore snap s = true) :
    deliver (.restore snap) s = .refused .unreachableSnapshot := if_neg h

/-- R37, R176: the snapshot of a state of this variant that meets the invariant may be restored. -/
theorem mayRestore_snapshot (s s0 : State) (h0 : ChipInv s0) (hv : s.variant = s0.variant) :
    mayRestore (snapshot s0) s = true := by
  refine (mayRestore_iff _ _).2 ⟨?_, (chipInv_congr_snapshot (snapshot_restoreFields _ _)).2 h0⟩
  simp [snapshot, hv, State.variant_eq]

/-- R7: a snapshot of the other variant may not. -/
theorem not_mayRestore_snapshot (s s0 : State) (hv : s.variant ≠ s0.variant) :
    ¬ mayRestore (snapshot s0) s = true := by
  intro h
  obtain ⟨hs, _⟩ := (mayRestore_iff _ _).1 h
  exact hv (by simpa [snapshot, State.variant_eq] using hs.symm)

/-- A step delivers the event at the state with the rest of the schedule, so it is enough to know the event's delivery there. -/
theorem stepsTo_of_deliver {e : Event} {s t : State}
    (h : ∀ rest, deliver e (s.setSchedule rest) = .next (t.setSchedule rest)) : StepsTo e s t := by
  intro rest
  exact (step_cons _ e rest rfl).trans (h rest)

/-- R37: the step that delivers the restore of such a snapshot. -/
theorem stepsTo_restore_snapshot (s s0 : State) (h0 : ChipInv s0) (hv : s.variant = s0.variant) :
    StepsTo (.restore (snapshot s0)) s (restoreFields (snapshot s0) s) :=
  stepsTo_of_deliver fun rest => deliver_restore _ _ (mayRestore_snapshot (s.setSchedule rest) s0 h0 hv)

/-! ## Outputs -/

/-- R92: the PB7 rule of a MIOT reaches only bit 7, and only under a PB7_IRQ_MODE other than NONE. -/
theorem bitOf_governPb7 (open7 : Nat → Byte → Byte → Byte → Bool → Bool → Bool) (s : State) (b : Byte) (i : Fin 8)
    (h : i = 7 → Pb7Ordinary s) : bitOf (governPb7 open7 s b) i = bitOf b i := by
  unfold governPb7
  split
  case h_1 rule hchip hmode =>
    have hi : i ≠ 7 := by
      intro hi
      rcases h hi with hv | hm
      · simp [State.variant_eq, hchip] at hv
      · simp [hmode] at hm
    rw [bitOf_withBit, if_neg hi]
  case h_2 => rfl

/-- R35: a pin's drive is its direction bit. -/
theorem bitOf_portOE (s : State) (p : PortName) (i : Fin 8) (h : p = .b → i = 7 → Pb7Ordinary s) :
    bitOf (portOE p s) i = bitOf (portOf p s).ddr i := by
  cases p with
  | a => rfl
  | b => exact bitOf_governPb7 _ s _ i (h rfl)

/-- R35: a pin's output level is its latch bit. -/
theorem bitOf_portO (s : State) (p : PortName) (i : Fin 8) (h : p = .b → i = 7 → Pb7Ordinary s) :
    bitOf (portO p s) i = bitOf (portOf p s).latch i := by
  cases p with
  | a => rfl
  | b => exact bitOf_governPb7 _ s _ i (h rfl)

/-- R35, R90: the byte-wide output shows the latch on outputs and FILL on inputs. -/
theorem bitOf_portByte (s : State) (p : PortName) (i : Fin 8) (h : p = .b → i = 7 → Pb7Ordinary s) :
    bitOf (portByte p s) i = if bitOf (portOf p s).ddr i then bitOf (portOf p s).latch i else s.params.undrivenLevel := by
  rw [portByte, bitOf_pick, bitOf_fill, bitOf_portOE s p i h, bitOf_portO s p i h]

/-! ## The statements -/

/-- Settles O55: what each event adds to the time. -/
theorem timeMovesOnlyAtTicks : Obligations.TimeMovesOnlyAtTicks := by
  intro e s t h hr
  have hn := deliver_now e s t h hr
  refine ⟨fun he => by rw [hn, if_pos he], fun he => by rw [hn, if_neg he], ?_⟩
  rw [hn]
  split <;> omega

/-- Settles O56: the restore check of a snapshot is the invariant of the state it was taken of, and the restore's whole effect
gives the fields. -/
theorem restoreOfASnapshotReplacesTheChip : Obligations.RestoreOfASnapshotReplacesTheChip := by
  refine ⟨fun s s0 h0 hv => ?_, fun s s0 hv => deliver_restore_refused _ s (not_mayRestore_snapshot s s0 hv)⟩
  exact ⟨restoreFields (snapshot s0) s, stepsTo_restore_snapshot s s0 h0 hv, rfl, rfl, rfl, chipOf_edgeRecord s0.chip, rfl, rfl,
    rfl, rfl, rfl, snapshot_restoreFields _ _⟩

/-- Settles O19: each output bit by its own lemma. -/
theorem outputsFollowTheState : Obligations.OutputsFollowTheState := by
  intro s p i h
  exact ⟨bitOf_portOE s p i h, bitOf_portO s p i h, bitOf_portByte s p i h⟩

end Sys2Proof.Machine
end

section
/-! PROOFS. The statements of 20_memory.md: reads without side effects (O33), repeated accesses (O34), and what an operation leaves
alone of memory (O44) and of the registers (O45). -/

namespace Sys2Proof.Machine

/-! ## The same access twice -/

/-- An operation whose effect changes nothing the second time answers, repeated, the state it left: R7 and R10 keep what decides
whether it runs. -/
theorem exec_repeat {i : Instr} {s t : State} (h : exec i s = .next t)
    (hi : effectOf i (effectOf i s) = effectOf i s) : exec i t = .next t := by
  obtain ⟨hw, rfl⟩ := (exec_next_iff i s t).1 h
  obtain ⟨_, _, hp, _⟩ := effectOf_frame i s
  exact (exec_next_iff i _ _).2 ⟨by rwa [effectOf_variant, hp], hi.symm⟩

/-- R45: the operation answers the byte `b`, which does not depend on the byte given back before, and does nothing else. -/
def AnswersOnly (i : Instr) (b : State → Byte) : Prop :=
  (∀ s, effectOf i s = answer (b s) s) ∧ ∀ s o, b (s.setDataOut o) = b s

/-- R45, R46: such a read changes only the byte given back, and answers it again. -/
theorem AnswersOnly.repeats {i : Instr} {b : State → Byte} {s t : State} (hi : AnswersOnly i b)
    (h : exec i s = .next t) : t = { s with dataOut := t.dataOut } ∧ exec i t = .next t := by
  obtain ⟨heff, hb⟩ := hi
  have htwice : effectOf i (effectOf i s) = effectOf i s := by
    simp only [heff, answer, hb, State.setDataOut_setDataOut]
  refine ⟨?_, exec_repeat h htwice⟩
  obtain ⟨_, rfl⟩ := (exec_next_iff i s t).1 h
  rw [heff, answer_eq]

/-! ## Effects that change nothing the second time -/

/-- R120: a second comparison of the same level finds no edge. -/
@[simp] theorem observedChip_observedChip (level : Bool) (c : Chip) :
    observedChip level (observedChip level c) = observedChip level c := by
  refine observedChip_same level _ fun e he => ?_
  cases c with
  | miot => cases he
  | riot e0 =>
    injection he with he
    rw [← he]

/-- R79: sampling the same levels again gives the same input levels. -/
@[simp] theorem samplePort_samplePort (levels : Byte) (p : Port) :
    samplePort levels (samplePort levels p) = samplePort levels p := by
  have h : pick p.ddr (pick p.ddr p.input levels) levels = pick p.ddr p.input levels := by
    refine byte_ext _ _ fun i => ?_
    simp only [bitOf_pick]
    split <;> rfl
  simp only [samplePort, h]

/-- R46: a Port A read samples the same levels again and compares the same PA7. -/
theorem readPortA_readPortA (s : State) : readPortA (readPortA s) = readPortA s := by
  have henv : ∀ pa out c, envLevels .a { s with pa := pa, dataOut := out, chip := c } = envLevels .a s := fun _ _ _ => rfl
  simp only [readPortA_eq, henv, samplePort_samplePort, observedChip_observedChip]

/-- R46: a Port B read samples the same levels again. -/
theorem readPortB_readPortB (s : State) : readPortB (readPortB s) = readPortB s := by
  have henv : ∀ pb out, envLevels .b { s with pb := pb, dataOut := out } = envLevels .b s := fun _ _ => rfl
  have hbyte : ∀ pb out, portBByte { s with pb := pb, dataOut := out } = portBByte { s with pb := pb } := fun _ _ => rfl
  simp only [readPortB_eq, henv, hbyte, samplePort_samplePort]

theorem writePortA_writePortA (d : Byte) (s : State) : writePortA d (writePortA d s) = writePortA d s := by
  simp only [writePortA_eq, observedChip_observedChip]

theorem writeDdrA_writeDdrA (d : Byte) (s : State) : writeDdrA d (writeDdrA d s) = writeDdrA d s := by
  simp only [writeDdrA_eq, observedChip_observedChip]

/-- R122: the same edge-control write again configures the same polarity and enable. -/
theorem configureEdge_configureEdge (pol : Polarity) (ie : Bool) (s : State) :
    silent (configureEdge pol ie (silent (configureEdge pol ie s))) = silent (configureEdge pol ie s) := by
  simp only [silent_eq, configureEdge_eq]
  cases s.chip <;> rfl

/-- Storing the same byte again leaves the memory, its list among it. -/
theorem Memory.write_write_same (m : Memory) (k : Nat) (v : Byte) :
    Memory.write (Memory.write m k v) k v = Memory.write m k v := by
  induction m with
  | nil => simp [Memory.write]
  | cons c rest ih =>
    obtain ⟨a, b⟩ := c
    rcases Nat.lt_trichotomy k a with h | rfl | h
    · simp [Memory.write, h]
    · simp [Memory.write]
    · simp [Memory.write, Nat.not_lt_of_gt h, Nat.ne_of_gt h, ih]

theorem writeRam_writeRam (off : Nat) (d : Byte) (s : State) :
    writeRam off d (writeRam off d s) = writeRam off d s := by
  simp only [writeRam_eq, Memory.write_write_same]

/-- R127, R128: an IFR read leaves no flag for the next one to answer. -/
theorem ifrValue_readIfr (s : State) : ifrValue (readIfr s) = 0x00 := by
  have hedge : edgeFlag (mapChip (fun e => { e with flag := false }) s.chip) = false := by
    cases s.chip <;> rfl
  simp [ifrValue, readIfr_eq, hedge]

/-! ## Operations of a variant's table, repeated -/

/-- R46: a repeated port data read. -/
theorem exec_portRead_repeat (v : Variant) (p : PortName) (s t : State) (h : exec (portRead v p) s = .next t) :
    exec (portRead v p) t = .next t := by
  refine exec_repeat h ?_
  cases p with
  | a => cases v <;> exact readPortA_readPortA s
  | b => cases v <;> exact readPortB_readPortB s

/-- R46: a repeated latch write. -/
theorem exec_latchWrite_repeat (v : Variant) (p : PortName) (d : Byte) (s t : State)
    (h : exec (latchWrite v p d) s = .next t) : exec (latchWrite v p d) t = .next t := by
  refine exec_repeat h ?_
  cases p with
  | a => cases v <;> exact writePortA_writePortA d s
  | b => cases v <;> rfl

/-- R46: a repeated direction write. -/
theorem exec_ddrWrite_repeat (v : Variant) (p : PortName) (d : Byte) (s t : State)
    (h : exec (ddrWrite v p d) s = .next t) : exec (ddrWrite v p d) t = .next t := by
  refine exec_repeat h ?_
  cases p with
  | a => cases v <;> exact writeDdrA_writeDdrA d s
  | b => cases v <;> rfl

/-- R46, R96: a repeated load in the same tick. -/
theorem exec_timerLoad_repeat (sel : BitVec 2) (ie : Bool) (d : Byte) (s t : State)
    (h : exec (timerLoad s.variant sel ie d) s = .next t) : exec (timerLoad s.variant sel ie d) t = .next t := by
  rw [exec_timerLoad] at h
  injection h with h
  subst h
  exact exec_timerLoad (loadTimer sel ie d s) sel ie d

/-- R46: a repeated edge-control write. -/
theorem exec_edgeWrite_repeat (pol : Polarity) (ie : Bool) (s t : State) (h : exec (edgeWrite pol ie) s = .next t) :
    exec (edgeWrite pol ie) t = .next t := by
  refine exec_repeat h ?_
  cases pol <;> cases ie <;> exact configureEdge_configureEdge _ _ s

/-- R46: the second of two IFR reads answers 0x00. -/
theorem exec_ifrRead_twice (s t u : State) (ht : exec (ifrRead s.variant) s = .next t)
    (hu : exec (ifrRead s.variant) t = .next u) : u.dataOut = some 0x00 := by
  rw [exec_ifrRead s _ rfl] at ht
  injection ht with ht
  subst ht
  have hv : (readIfr s).variant = s.variant := mapChip_variant _ _
  rw [exec_ifrRead _ _ hv] at hu
  injection hu with hu
  rw [← hu, readIfr_eq, ifrValue_readIfr]

/-! ## What an operation can do to memory -/

/-- R47: an operation is a RAM write at the offset it stores to, or leaves the RAM. -/
theorem effectOf_ram_cases (i : Instr) (s : State) :
    (∃ off d, storedOffset i = some off ∧ effectOf i s = writeRam off d s) ∨ (effectOf i s).ram = s.ram := by
  cases i
  case riotWrRam off d => exact .inl ⟨_, _, rfl, rfl⟩
  case miotWrRam off d => exact .inl ⟨_, _, rfl, rfl⟩
  all_goals exact .inr rfl

/-- A RAM byte is read off the RAM alone. -/
theorem ramByte_eq_of_ram {s t : State} (h : t.ram = s.ram) (k : Nat) : ramByte t k = ramByte s k := by
  simp only [ramByte, h]

/-- R47, R134: an operation leaves every RAM byte but the one it stores. -/
theorem ramByte_effectOf (i : Instr) (s : State) (k : Nat) (hk : ∀ a, storedOffset i = some a → k ≠ a) :
    ramByte (effectOf i s) k = ramByte s k := by
  rcases effectOf_ram_cases i s with ⟨off, d, hoff, heff⟩ | hram
  · rw [heff]
    exact ramByte_writeRam_other off k d s (hk off hoff)
  · exact ramByte_eq_of_ram hram k

/-! ## What an operation can do to the ports -/

/-- R45, R47: what an operation can do to a port: its latch write, its direction write, its read's sample, or nothing. -/
theorem effectOf_port_cases (p : PortName) (i : Instr) (s : State) :
    (∃ d, (i = latchWrite .riot p d ∨ i = latchWrite .miot p d) ∧
      portOf p (effectOf i s) = { portOf p s with latch := d }) ∨
    (∃ d, (i = ddrWrite .riot p d ∨ i = ddrWrite .miot p d) ∧
      portOf p (effectOf i s) = { portOf p s with ddr := d }) ∨
    ((i = portRead .riot p ∨ i = portRead .miot p) ∧
      portOf p (effectOf i s) = samplePort (envLevels p s) (portOf p s)) ∨
    portOf p (effectOf i s) = portOf p s := by
  cases p with
  | a =>
    cases i
    case riotWrPa d => exact .inl ⟨d, .inl rfl, rfl⟩
    case miotWrPa d => exact .inl ⟨d, .inr rfl, rfl⟩
    case riotWrDdra d => exact .inr (.inl ⟨d, .inl rfl, rfl⟩)
    case miotWrDdra d => exact .inr (.inl ⟨d, .inr rfl, rfl⟩)
    case riotRdPa => exact .inr (.inr (.inl ⟨.inl rfl, rfl⟩))
    case miotRdPa => exact .inr (.inr (.inl ⟨.inr rfl, rfl⟩))
    all_goals exact .inr (.inr (.inr rfl))
  | b =>
    cases i
    case riotWrPb d => exact .inl ⟨d, .inl rfl, rfl⟩
    case miotWrPb d => exact .inl ⟨d, .inr rfl, rfl⟩
    case riotWrDdrb d => exact .inr (.inl ⟨d, .inl rfl, rfl⟩)
    case miotWrDdrb d => exact .inr (.inl ⟨d, .inr rfl, rfl⟩)
    case riotRdPb => exact .inr (.inr (.inl ⟨.inl rfl, rfl⟩))
    case miotRdPb => exact .inr (.inr (.inl ⟨.inr rfl, rfl⟩))
    all_goals exact .inr (.inr (.inr rfl))

/-- R32, R47: the operation that changes a field of a port is, in one variant's table, the port's write of that field, or for the
input levels its read. -/
theorem effectOf_port_changes (p : PortName) (i : Instr) (s : State) :
    ((portOf p (effectOf i s)).latch ≠ (portOf p s).latch → ∃ d, i = latchWrite .riot p d ∨ i = latchWrite .miot p d) ∧
    ((portOf p (effectOf i s)).ddr ≠ (portOf p s).ddr → ∃ d, i = ddrWrite .riot p d ∨ i = ddrWrite .miot p d) ∧
    ((portOf p (effectOf i s)).input ≠ (portOf p s).input → i = portRead .riot p ∨ i = portRead .miot p) := by
  rcases effectOf_port_cases p i s with ⟨d, hi, h⟩ | ⟨d, hi, h⟩ | ⟨hi, h⟩ | h <;> rw [h]
  · exact ⟨fun _ => ⟨d, hi⟩, absurd rfl, absurd rfl⟩
  · exact ⟨absurd rfl, fun _ => ⟨d, hi⟩, absurd rfl⟩
  · exact ⟨absurd rfl, absurd rfl, fun _ => hi⟩
  · exact ⟨absurd rfl, absurd rfl, absurd rfl⟩

/-! ## What an operation can do to the timer and the edge detector -/

/-- R127: an IFR read is the one of a variant's table. -/
theorem isIfrRead_iff (i : Instr) : isIfrRead i = true ↔ i = .riotRdIfr ∨ i = .miotRdIfr := by
  cases i <;> simp [isIfrRead]

/-- R32, R33: an operation that is no load leaves all of the timer but the flag. -/
theorem effectOf_timer_of_no_load (i : Instr) (s : State) (hl : timerLoadOf i = none) :
    (effectOf i s).timer = { s.timer with flag := (effectOf i s).timer.flag } := by
  rcases effectOf_timer_cases i s with ⟨_, _, _, h, _⟩ | ⟨_, _, h⟩ | ⟨_, _, h⟩
  · rw [hl] at h
    cases h
  · rw [h, readIfr_eq]
  · rw [h]

/-- R32: only a load or an IFR read changes the timer flag. -/
theorem effectOf_timerFlag_changes (i : Instr) (s : State) (hne : (effectOf i s).timer.flag ≠ s.timer.flag) :
    timerLoadOf i ≠ none ∨ i = .riotRdIfr ∨ i = .miotRdIfr := by
  rcases effectOf_timer_cases i s with ⟨_, _, _, h, _⟩ | ⟨_, h, _⟩ | ⟨_, _, h⟩
  · exact .inl (by simp [h])
  · exact .inr ((isIfrRead_iff i).1 h)
  · exact absurd (by rw [h]) hne

/-- R32, R33: what an operation of a RIOT can do to the edge detector: its polarity and enable change only at an edge-control
write, its flag and last level only at an access that compares PA7 or at an IFR read. -/
theorem effectOf_edge_changes (i : Instr) (s : State) (e : EdgeDetector) (hv : i.variant = .riot) (hc : s.chip = .riot e) :
    ∃ e', (effectOf i s).chip = .riot e' ∧
      (isEdgeWrite i = false → e'.pol = e.pol ∧ e'.ie = e.ie) ∧
      (e'.flag ≠ e.flag ∨ e'.last ≠ e.last →
        i = .riotRdPa ∨ i = .riotRdIfr ∨ ∃ d, i = .riotWrPa d ∨ i = .riotWrDdra d) := by
  rcases effectOf_chip_cases i s with ⟨hi, h⟩ | ⟨pol, ie, rfl, h⟩ | ⟨_, _, h, hi⟩ | ⟨_, _, h, _⟩
  · refine ⟨{ e with flag := false }, by rw [h, readIfr_eq, hc]; rfl, fun _ => ⟨rfl, rfl⟩, fun _ => ?_⟩
    rcases (isIfrRead_iff i).1 hi with rfl | rfl
    · exact .inr (.inl rfl)
    · cases hv
  · refine ⟨{ e with pol := pol, ie := ie }, by rw [h, silent_eq, configureEdge_eq, hc]; rfl, fun hw => ?_, fun hne => ?_⟩
    · rw [isEdgeWrite_edgeWrite] at hw
      cases hw
    · simp at hne
  · refine ⟨_, h.trans (congrArg _ hc), fun _ => ⟨rfl, rfl⟩, fun _ => ?_⟩
    rcases hi with rfl | rfl | ⟨d, rfl | rfl | rfl | rfl⟩
    · exact .inl rfl
    · cases hv
    · exact .inr (.inr ⟨d, .inl rfl⟩)
    · exact .inr (.inr ⟨d, .inr rfl⟩)
    · cases hv
    · cases hv
  · exact ⟨e, by rw [h, hc], fun _ => ⟨rfl, rfl⟩, fun hne => by simp at hne⟩

/-- R30: a chip of the MIOT variant has no edge detector. -/
theorem State.variant_miot_iff (s : State) : s.variant = .miot ↔ s.chip = .miot := by
  rw [State.variant_eq]
  cases s.chip <;> simp

/-! ## The statements -/

/-- Settles O33: each of the reads answers a byte of the registers, the time, the RAM or the ROM, and does nothing else. -/
theorem readsWithoutSideEffects : Obligations.ReadsWithoutSideEffects := by
  intro i off7 off6 off s t hi h
  have repeats (b : State → Byte) (hb : AnswersOnly i b) := hb.repeats h
  simp only [List.mem_cons, List.not_mem_nil, or_false] at hi
  rcases hi with rfl | rfl | rfl | rfl | rfl | rfl | rfl | rfl | rfl
  · exact repeats (fun s => s.pa.ddr) ⟨fun _ => rfl, fun _ _ => rfl⟩
  · exact repeats (fun s => s.pb.ddr) ⟨fun _ => rfl, fun _ _ => rfl⟩
  · exact repeats timerValue ⟨fun _ => rfl, fun _ _ => rfl⟩
  · exact repeats (ramByte · off7.toNat) ⟨fun _ => rfl, fun _ _ => rfl⟩
  · exact repeats (fun s => s.pa.ddr) ⟨fun _ => rfl, fun _ _ => rfl⟩
  · exact repeats (fun s => s.pb.ddr) ⟨fun _ => rfl, fun _ _ => rfl⟩
  · exact repeats timerValue ⟨fun _ => rfl, fun _ _ => rfl⟩
  · exact repeats (ramByte · off6.toNat) ⟨fun _ => rfl, fun _ _ => rfl⟩
  · exact repeats (romByte · off.bits.toNat) ⟨fun _ => rfl, fun _ _ => rfl⟩

/-- Settles O34: the effect of each of these accesses changes nothing the second time, and an IFR read leaves no flag to
answer. -/
theorem repeatedAccessesAreIdempotent : Obligations.RepeatedAccessesAreIdempotent := by
  refine ⟨fun p s => exec_portRead_repeat s.variant p s, fun p d s => exec_latchWrite_repeat s.variant p d s,
    fun p d s => exec_ddrWrite_repeat s.variant p d s, exec_timerLoad_repeat, exec_edgeWrite_repeat, ?_, exec_ifrRead_twice⟩
  intro off7 off6 d i s t hi h
  simp only [List.mem_cons, List.not_mem_nil, or_false] at hi
  rcases hi with rfl | rfl
  · exact exec_repeat h (writeRam_writeRam off7.toNat d s)
  · exact exec_repeat h (writeRam_writeRam off6.toNat d s)

/-- Settles O44: an operation stores at its offset or leaves the RAM, and every other event but a restore leaves it. -/
theorem onlyARamWriteChangesRam : Obligations.OnlyARamWriteChangesRam := by
  refine ⟨fun i s t h k hk => ?_, fun e s t h hr k hk => ?_⟩
  · obtain ⟨_, rfl⟩ := (exec_next_iff i s t).1 h
    exact ramByte_effectOf i s k hk
  · rcases deliver_cases e s t h with ⟨tr, i, rfl, hd, _, rfl⟩ | ⟨_, rfl⟩ | ⟨p, i, l, _, rfl⟩ | ⟨p, v, _, rfl⟩ | ⟨_, rfl⟩ |
      ⟨_, rfl, _⟩ | ⟨p, _, _, rfl⟩
    · exact ramByte_effectOf i s k fun a ha => hk tr i a rfl hd ha
    · rfl
    · obtain ⟨_, hram, _⟩ := setInput_frame p i l s
      exact ramByte_eq_of_ram hram k
    · obtain ⟨_, hram, _⟩ := setInputByte_frame p v s
      exact ramByte_eq_of_ram hram k
    · rfl
    · cases hr
    · cases p <;> rfl

/-- Settles O45: the ports, the timer and the edge detector each by what an operation can do to them, the rest by the operations'
frame. -/
theorem onlyTheNamedRegistersChange : Obligations.OnlyTheNamedRegistersChange := by
  intro i s t h
  obtain ⟨hw, rfl⟩ := (exec_next_iff i s t).1 h
  have hv : i.variant = s.variant := wellFormedFor_variant i _ _ hw
  obtain ⟨hpaLatch, hpaDdr, hpaInput⟩ := effectOf_port_changes .a i s
  obtain ⟨hpbLatch, hpbDdr, hpbInput⟩ := effectOf_port_changes .b i s
  obtain ⟨hnow, hsched, hparams, henvA, henvB⟩ := effectOf_frame i s
  have hedge (e : EdgeDetector) (hc : s.chip = .riot e) :=
    effectOf_edge_changes i s e (by rw [hv, State.variant_eq, hc, Chip.variant_riot]) hc
  have hmiot (hc : s.chip = .miot) : (effectOf i s).chip = .miot := by
    rwa [← State.variant_miot_iff, effectOf_variant, State.variant_miot_iff]
  exact ⟨hpaLatch, hpaDdr, hpaInput, hpbLatch, hpbDdr, hpbInput, effectOf_timer_of_no_load i s,
    effectOf_timerFlag_changes i s, hedge, hmiot, hparams, henvA, henvB, hnow, hsched⟩

end Sys2Proof.Machine
end

section
/-! PROOFS. The statements of 30_encoding.md: the decode tables as partitions of the access words (O2, O3) and their mirrors
(O5), the round trip of an encoded operation (O1), the spec's listings (O4), the ROM window's width (O57), and ticks as steps
(O29). -/

namespace Sys2Proof

/-! ## A table whose words select one row each -/

/-- R68: every access word selects exactly one row of the table. -/
def SelectsOneRow {n : Nat} (rows : List (DecodeRow n)) : Prop := ∀ w, (rows.filter (selects w)).length = 1

section
variable {n : Nat} {rows : List (DecodeRow n)} (hone : SelectsOneRow rows)
include hone

theorem SelectsOneRow.exists_selected (w : BitVec n) : ∃ r ∈ rows, selects w r = true := by
  obtain ⟨r, hr⟩ := List.length_eq_one_iff.1 (hone w)
  exact ⟨r, List.mem_filter.1 (hr ▸ List.mem_singleton_self r)⟩

/-- R63: a word decodes by the row it selects, wherever in the table that row stands. -/
theorem SelectsOneRow.decodeWord_eq {r : DecodeRow n} (hr : r ∈ rows) {w : BitVec n} (hs : selects w r = true) (d : Byte) :
    decodeWord rows w d = .ok (r.make w d) := by
  obtain ⟨q, hq⟩ := List.length_eq_one_iff.1 (hone w)
  have hrq : r = q := List.mem_singleton.1 (hq ▸ List.mem_filter.2 ⟨hr, hs⟩)
  have hfind : rows.find? (selects w) = some r := by rw [← List.head?_filter, hq, hrq]; rfl
  rw [decodeWord, hfind]

/-- R63 with the row's mask and pattern in place of `selects`, for all rows at once. -/
theorem SelectsOneRow.decodeWord_rows :
    ∀ r ∈ rows, ∀ (w : BitVec n) (d : Byte), w &&& r.mask = r.pattern → decodeWord rows w d = .ok (r.make w d) :=
  fun _ hr _ d hw => hone.decodeWord_eq hr (beq_iff_eq.2 hw) d

/-- R68: every word decodes, to an operation of the format all the rows' operations have. -/
theorem SelectsOneRow.decodeWord_total {f : Format} (hf : ∀ r ∈ rows, ∀ w d, (r.make w d).format = f) (w : BitVec n)
    (d : Byte) : ∃ i, decodeWord rows w d = .ok i ∧ i.format = f := by
  obtain ⟨r, hr, hs⟩ := hone.exists_selected w
  exact ⟨_, hone.decodeWord_eq hr hs d, hf r hr w d⟩

/-- R69: in a table whose operations take nothing from the word, two words decode alike if they agree on every bit that the
rows selected by the first look at. -/
theorem SelectsOneRow.decodeWord_congr (hmake : ∀ r ∈ rows, ∀ w w' d, r.make w d = r.make w' d) {m w w' : BitVec n}
    (hm : ∀ r ∈ rows, selects w r = true → m &&& r.mask = r.mask) (hw : w &&& m = w' &&& m) (d : Byte) :
    decodeWord rows w d = decodeWord rows w' d := by
  obtain ⟨r, hr, hs⟩ := hone.exists_selected w
  have hmask : w' &&& r.mask = w &&& r.mask := by
    rw [← hm r hr hs, ← BitVec.and_assoc, ← BitVec.and_assoc, hw]
  have hs' : selects w' r = true := by rwa [selects, hmask]
  rw [hone.decodeWord_eq hr hs, hone.decodeWord_eq hr hs', hmake r hr w w']

end

/-! ## The five tables -/

theorem io32Rows_selectOne : SelectsOneRow io32Rows := by
  unfold SelectsOneRow
  decide

theorem io16Rows_selectOne : SelectsOneRow io16Rows := by
  unfold SelectsOneRow
  decide

/-- R61: in a read row and a write row that look at the top bit only, the top bit chooses. -/
theorem topBit_selectOne (n : Nat) (f g : BitVec (n + 1) → Byte → Instr) :
    SelectsOneRow [⟨BitVec.twoPow (n + 1) n, BitVec.twoPow (n + 1) n, f⟩, ⟨BitVec.twoPow (n + 1) n, 0#(n + 1), g⟩] := by
  intro w
  have hne : ¬ 0#(n + 1) = BitVec.twoPow (n + 1) n := fun h => by
    simpa using congrArg (BitVec.getLsbD · n) h
  cases hm : w.msb with
  | true => simp [selects, and_topBit, hm, Ne.symm hne]
  | false => simp [selects, and_topBit, hm, hne]

theorem ram128Rows_selectOne : SelectsOneRow ram128Rows := topBit_selectOne 7 _ _

theorem ram64Rows_selectOne : SelectsOneRow ram64Rows := topBit_selectOne 6 _ _

theorem romRows_selectOne (n : Nat) : SelectsOneRow (romRows n) := topBit_selectOne n _ _

theorem io32Rows_format : ∀ r ∈ io32Rows, ∀ w d, (r.make w d).format = .io32 := by
  simp [io32Rows, Instr.format]

theorem io16Rows_format : ∀ r ∈ io16Rows, ∀ w d, (r.make w d).format = .io16 := by
  simp [io16Rows, Instr.format]

theorem ram128Rows_format : ∀ r ∈ ram128Rows, ∀ w d, (r.make w d).format = .ram128 := by
  simp [ram128Rows, Instr.format]

theorem ram64Rows_format : ∀ r ∈ ram64Rows, ∀ w d, (r.make w d).format = .ram64 := by
  simp [ram64Rows, Instr.format]

theorem romRows_format (n : Nat) : ∀ r ∈ romRows n, ∀ w d, (r.make w d).format = .rom n := by
  simp [romRows, Instr.format]

/-- R68: every transaction decodes, to an operation of its own format. -/
theorem decode_total (t : Transaction) : ∃ i, decode t = .ok i ∧ i.format = t.format := by
  cases t with
  | io32 w d => exact io32Rows_selectOne.decodeWord_total io32Rows_format w d
  | io16 w d => exact io16Rows_selectOne.decodeWord_total io16Rows_format w d
  | ram128 w d => exact ram128Rows_selectOne.decodeWord_total ram128Rows_format w d
  | ram64 w d => exact ram64Rows_selectOne.decodeWord_total ram64Rows_format w d
  | rom n w d => exact (romRows_selectOne n).decodeWord_total (romRows_format n) w d

theorem format_of_decode {t : Transaction} {i : Instr} (h : decode t = .ok i) : i.format = t.format := by
  obtain ⟨j, hj, hf⟩ := decode_total t
  obtain rfl : i = j := Except.ok.inj (h.symm.trans hj)
  exact hf

/-! ## The rows of the opcode table -/

theorem decode_io32_rows :
    ∀ r ∈ io32Rows, ∀ w d, w &&& r.mask = r.pattern → decode (.io32 w d) = .ok (r.make w d) :=
  io32Rows_selectOne.decodeWord_rows

theorem decode_io16_rows :
    ∀ r ∈ io16Rows, ∀ w d, w &&& r.mask = r.pattern → decode (.io16 w d) = .ok (r.make w d) :=
  io16Rows_selectOne.decodeWord_rows

theorem decode_ram128_rows :
    ∀ r ∈ ram128Rows, ∀ w d, w &&& r.mask = r.pattern → decode (.ram128 w d) = .ok (r.make w d) :=
  ram128Rows_selectOne.decodeWord_rows

theorem decode_ram64_rows :
    ∀ r ∈ ram64Rows, ∀ w d, w &&& r.mask = r.pattern → decode (.ram64 w d) = .ok (r.make w d) :=
  ram64Rows_selectOne.decodeWord_rows

theorem decode_rom_rows (n : Nat) :
    ∀ r ∈ romRows n, ∀ w d, w &&& r.mask = r.pattern → decode (.rom n w d) = .ok (r.make w d) :=
  (romRows_selectOne n).decodeWord_rows

/-- R61, R135: at every offset width, a ROM access word with its top bit set is a read. -/
theorem decode_rom_read (n : Nat) (w : BitVec (n + 1)) (d : Byte) (h : w.getLsbD n = true) :
    decode (.rom n w d) = .ok (.miotRdRom ⟨n, w.extractLsb' 0 n⟩) := by
  have hmsb : w.msb = true := by rwa [BitVec.msb_eq_getLsbD_last]
  rw [decode_rom, if_pos hmsb, BitVec.setWidth_eq_extractLsb' (Nat.le_succ n)]

/-- R61, R136: at every offset width, a ROM access word with its top bit clear is a write. -/
theorem decode_rom_write (n : Nat) (w : BitVec (n + 1)) (d : Byte) (h : w.getLsbD n = false) :
    decode (.rom n w d) = .ok (.miotWrRom ⟨n, w.extractLsb' 0 n⟩ d) := by
  have hmsb : w.msb = false := by rwa [BitVec.msb_eq_getLsbD_last]
  rw [decode_rom, hmsb, if_neg Bool.false_ne_true, BitVec.setWidth_eq_extractLsb' (Nat.le_succ n)]

/-! ## Mirrors -/

/-- R63, R64: no operation of the RIOT register window takes an operand from the access word. -/
theorem io32Rows_make_word : ∀ r ∈ io32Rows, ∀ w w' d, r.make w d = r.make w' d := by
  simp [io32Rows]

/-- D3: where A2 = 0 the rows look at the read bit and A2:A0, and A4 and A3 are don't-care. -/
theorem io32Rows_mask_port : ∀ w : BitVec 6, w &&& 0x04 = 0 →
    ∀ r ∈ io32Rows, selects w r = true → 0x27#6 &&& r.mask = r.mask := by
  decide

/-- D3: a read with A2 = 1 is told by A0 alone. -/
theorem io32Rows_mask_read : ∀ w : BitVec 6, w &&& 0x24 = 0x24 →
    ∀ r ∈ io32Rows, selects w r = true → 0x25#6 &&& r.mask = r.mask := by
  decide

/-! ## Encoding and back -/

/-- R73: the decoder reads an operation from its canonical transaction. -/
theorem decode_encode (i : Instr) : decode (encode i) = .ok i := by
  cases i
  case riotRdRam | riotWrRam => simp [encode, decode_ram128, accessWord_msb, accessWord_offset]
  case miotRdRam | miotWrRam => simp [encode, decode_ram64, accessWord_msb, accessWord_offset]
  case miotRdRom | miotWrRom => simp [encode, decode_rom, accessWord_msb, accessWord_offset]
  all_goals rfl

/-- R73: in every row's canonical transaction either the top bit is a write's or the data lane is 0. -/
theorem encode_read_lane (i : Instr) : transactionIsRead (encode i) = true → transactionData (encode i) = 0 := by
  cases i
  case riotRdRam | riotWrRam | miotRdRam | miotWrRam | miotRdRom | miotWrRom =>
    simp [encode, transactionIsRead, transactionData, accessWord_msb]
  all_goals simp [encode, transactionIsRead, transactionData, BitVec.msb_eq_decide]

/-- R74: the access word at the head of a listing is read back. -/
theorem takeWord_transactionWord (t : Transaction) (rest : List Byte) :
    takeWord (formatBytes t.format) (wordBytes (formatBytes t.format) (transactionWord t) ++ rest) =
      .ok (transactionWord t, rest) :=
  takeWord_wordBytes _ _ _ ((transactionWord_lt t).trans_le (formatWidth_le_bytes t.format))

/-- R74: a transaction is read back from its listing, whatever follows; a read's listing has no data byte, so its lane is 0. -/
theorem takeTransaction_transactionBytes (t : Transaction) (rest : List Byte)
    (hlane : transactionIsRead t = true → transactionData t = 0) :
    takeTransaction t.format (transactionBytes t ++ rest) = .ok (t, rest) := by
  have hfits : ¬ 2 ^ formatWidth t.format ≤ transactionWord t := Nat.not_le.2 (transactionWord_lt t)
  cases hread : transactionIsRead t with
  | true =>
    have ht : transactionOf t.format (transactionWord t) 0#8 = t := by
      have h := transactionOf_parts t
      rwa [hlane hread] at h
    simp [takeTransaction, transactionBytes, hread, takeWord_transactionWord, hfits, wordIsRead_eq, ht]
  | false =>
    simp [takeTransaction, transactionBytes, hread, takeWord_transactionWord, hfits, wordIsRead_eq, transactionOf_parts]

/-- R74: an operation is read back from its listing, whatever follows. -/
theorem decodeBytes_encodeBytes (i : Instr) (rest : List Byte) :
    decodeBytes i.format (encodeBytes i ++ rest) = .ok (i, rest) := by
  have htake := takeTransaction_transactionBytes (encode i) rest (encode_read_lane i)
  rw [← format_of_decode (decode_encode i)] at htake
  simp [decodeBytes, encodeBytes, htake, decode_encode]

/-! ## The ROM window -/

/-- R62: the offset width fits in `w` bits exactly if ROM_SIZE does. -/
theorem romOffsetWidth_le_iff (n w : Nat) : romOffsetWidth n ≤ w ↔ n ≤ 2 ^ w := by
  have hpos : 0 < 2 ^ w := Nat.two_pow_pos w
  unfold romOffsetWidth
  split
  case isTrue h => omega
  case isFalse h =>
    have hlog : Nat.log2 (n - 1) < w ↔ n - 1 < 2 ^ w := Nat.log2_lt (by omega)
    omega

/-- R62: a ROM whose size is a power of two has that many offset bits. -/
theorem romOffsetWidth_two_pow (w : Nat) : romOffsetWidth (2 ^ w) = w :=
  eq_of_forall_ge_iff fun v => (romOffsetWidth_le_iff (2 ^ w) v).trans (Nat.pow_le_pow_iff_right Nat.one_lt_two)

end Sys2Proof

namespace Sys2Proof.Machine

/-- R48, R49: on a MIOT a transaction of the ROM window completes exactly if the window has its offset. -/
theorem deliver_rom_completes_iff (s : State) (n : Nat) (w : BitVec (n + 1)) (d : Byte) (hv : s.variant = .miot) :
    (∃ t, deliver (.bus (.rom n w d)) s = .next t) ↔ romWindowHas s.params.romSize ⟨n, w.setWidth n⟩ = true := by
  rw [deliver_bus_eq_exec _ _ s (decode_rom n w d)]
  cases w.msb with
  | true => simp [exec, execMiotRdRom, onRomWindow_next_iff, hv]
  | false => simp [exec, execMiotWrRom, onRomWindow_next_iff, hv]

/-- R52: the step delivers a scheduled TICK. -/
theorem step_tick (s : State) (rest : List Event) :
    step (s.setSchedule (.tick :: rest)) = .next ((tick s).setSchedule rest) := rfl

/-- A run goes on from the state its first step leaves. -/
theorem run_succ_of_step {s t : State} (h : step s = .next t) (n : Nat) :
    Host.Core.run core (n + 1) s = Host.Core.run core n t := by
  have hc : core.step s = .next t := h
  simp only [Host.Core.run, hc]

/-! ## The statements -/

/-- Settles O1: as a transaction by `decode_encode`, as a listing by reading its word and its data byte back. -/
theorem decodeOfEncodeIsTheOperation : Obligations.DecodeOfEncodeIsTheOperation :=
  fun i rest => ⟨decode_encode i, decodeBytes_encodeBytes i rest⟩

/-- Settles O2: the register tables word by word, the RAM and ROM tables by the top bit. -/
theorem everyAccessWordSelectsExactlyOneRow : Obligations.EveryAccessWordSelectsExactlyOneRow :=
  ⟨io32Rows_selectOne, io16Rows_selectOne, ram128Rows_selectOne, ram64Rows_selectOne, romRows_selectOne, decode_total⟩

/-- Settles O3: each table's rows decode the words that match them, since no word matches two. -/
theorem decodesEveryRowOfTheOpcodeTable : Obligations.DecodesEveryRowOfTheOpcodeTable := by
  have hrows := And.intro decode_io32_rows (And.intro decode_ram128_rows (And.intro decode_io16_rows
    (And.intro decode_ram64_rows (And.intro (decode_rom_rows 10) (And.intro decode_rom_read decode_rom_write)))))
  simp only [io32Rows, ram128Rows, io16Rows, ram64Rows, romRows, List.forall_mem_cons, List.not_mem_nil, false_implies,
    implies_true, true_and, and_assoc] at hrows
  exact hrows

/-- Settles O5: a transaction runs the operation it decodes to, and so does the canonical one; mirrors agree on all the bits
that the selected row looks at. -/
theorem mirrorsActAsTheCanonicalOffset : Obligations.MirrorsActAsTheCanonicalOffset := by
  refine ⟨fun t i s h => ?_, fun w w' d hA2 hw => ?_, fun w w' d hread hw => ?_⟩
  · rw [deliver_bus_eq_exec t i s h, deliver_bus_eq_exec _ i s (decode_encode i)]
  · exact io32Rows_selectOne.decodeWord_congr io32Rows_make_word (io32Rows_mask_port w hA2) hw d
  · exact io32Rows_selectOne.decodeWord_congr io32Rows_make_word (io32Rows_mask_read w hread) hw d

/-- Settles O29, by induction on the number of TICKs. -/
theorem ticksAreStepsOfTheMachine : Obligations.TicksAreStepsOfTheMachine := by
  intro n s rest
  induction n generalizing s with
  | zero => rfl
  | succ n ih =>
    rw [List.replicate_succ, List.cons_append, run_succ_of_step (step_tick s _), ih (tick s), afterTicks]

/-- Settles O57: the width by `romOffsetWidth_le_iff`, the words a MIOT completes by its ROM window. -/
theorem romOffsetWidthIsTheLeastThatFits : Obligations.RomOffsetWidthIsTheLeastThatFits := by
  refine ⟨fun n => ⟨(romOffsetWidth_le_iff n _).1 le_rfl, fun w => (romOffsetWidth_le_iff n w).2⟩,
    romOffsetWidth_two_pow 10, fun s width word d hv => ?_, fun off => ?_⟩
  · rw [deliver_rom_completes_iff s width word d hv, romWindowHas_iff, ← BitVec.setWidth_eq_extractLsb' (Nat.le_succ width)]
  · exact (romWindowHas_iff _ off).2 ⟨(romOffsetWidth_two_pow off.width).symm, off.bits.isLt⟩

/-- Settles O4: the decoder run on each listing. -/
theorem decodesTheSpecsListings : Obligations.DecodesTheSpecsListings :=
  ⟨rfl, rfl, rfl, rfl, rfl, rfl, rfl, rfl, rfl, rfl, rfl⟩

end Sys2Proof.Machine
end

section
/-! PROOFS. The statements of 40_ports.md: the port reads (O9, O10, O11, O14, O18), the port writes (O12, O13) and their round trip
(O15), the reported pin changes (O16, O17), and what does not reach the edge detector (O20). -/

namespace Sys2Proof.Machine

/-! ## Bits of the ports -/

/-- R79: bit by bit, the resolved level is the latch or the input. -/
theorem bitOf_resolved (q : Port) (i : Fin 8) :
    bitOf (resolved q) i = if bitOf q.ddr i then bitOf q.latch i else bitOf q.input i := bitOf_pick _ _ _ i

/-- R79: after a sample, the input-configured pins resolve to the environment's levels. -/
theorem bitOf_resolved_samplePort (levels : Byte) (q : Port) (i : Fin 8) :
    bitOf (resolved (samplePort levels q)) i = if bitOf q.ddr i then bitOf q.latch i else bitOf levels i := by
  rw [bitOf_resolved]
  simp only [samplePort, bitOf_pick]
  split <;> rfl

/-- R36: bit by bit, the environment presents the driven level or UNDRIVEN_LEVEL. -/
theorem bitOf_pinLevels (undriven : Bool) (pins : Pins) (i : Fin 8) :
    bitOf (pinLevels undriven pins) i = if bitOf pins.driven i then bitOf pins.level i else undriven := by
  rw [pinLevels, bitOf_pick, bitOf_fill]

/-- R88: a pin driven to a level presents it, and the other pins present what they did. -/
theorem bitOf_pinLevels_drivePin (undriven : Bool) (pins : Pins) (i j : Fin 8) (level : Bool) :
    bitOf (pinLevels undriven (drivePin i level pins)) j =
      if j = i then level else bitOf (pinLevels undriven pins) j := by
  simp only [bitOf_pinLevels, drivePin, bitOf_withBit]
  by_cases h : j = i
  · simp only [if_pos h, if_true]
  · simp only [if_neg h]

/-- R89: eight driven pins present their byte. -/
theorem pinLevels_allDriven (undriven : Bool) (v : Byte) : pinLevels undriven { driven := 0xFF, level := v } = v := by
  have hones : ∀ i, bitOf 0xFF i = true := by decide
  refine byte_ext _ _ fun i => ?_
  rw [bitOf_pinLevels, if_pos (hones i)]

/-- Replacing the eight bits of a byte one after the other, 0 to 7, leaves nothing of it. -/
theorem withBit_eight (x v : Byte) :
    withBit (withBit (withBit (withBit (withBit (withBit (withBit (withBit x 0 (bitOf v 0)) 1 (bitOf v 1)) 2 (bitOf v 2))
      3 (bitOf v 3)) 4 (bitOf v 4)) 5 (bitOf v 5)) 6 (bitOf v 6)) 7 (bitOf v 7) = v := by
  refine byte_ext _ _ fun i => ?_
  fin_cases i <;> simp [bitOf_withBit]

/-- Whether PB7 is an ordinary bit is a matter of the variant and the parameters. -/
theorem pb7Ordinary_congr {s t : State} (hv : t.variant = s.variant) (hp : t.params = s.params) :
    Pb7Ordinary t ↔ Pb7Ordinary s := by
  simp only [Pb7Ordinary, hv, hp]

/-- R84, R92: the byte a Port B read gives is the resolved one, but for bit 7 under another PB7_IRQ_MODE than NONE. -/
theorem bitOf_portBByte (s : State) (i : Fin 8) (h : i = 7 → Pb7Ordinary s) :
    bitOf (portBByte s) i = bitOf (resolved s.pb) i :=
  bitOf_governPb7 Config.pb7Read s (resolved s.pb) i h

/-- R79, R84: after a sample that byte has the latch on outputs and the environment's level on inputs. -/
theorem bitOf_portBByte_samplePort (levels : Byte) (s : State) (i : Fin 8) (h : i = 7 → Pb7Ordinary s) :
    bitOf (portBByte { s with pb := samplePort levels s.pb }) i =
      if bitOf s.pb.ddr i then bitOf s.pb.latch i else bitOf levels i := by
  have hsampled : Pb7Ordinary { s with pb := samplePort levels s.pb } ↔ Pb7Ordinary s := pb7Ordinary_congr rfl rfl
  rw [bitOf_portBByte _ i fun hi => hsampled.2 (h hi), bitOf_resolved_samplePort]

/-- R92: on a MIOT under another PB7_IRQ_MODE than NONE the open rule gives bit 7. -/
theorem bitOf_portBByte_governed (s : State) (rule : Nat) (hv : s.variant = .miot)
    (hm : s.params.pb7IrqMode = .governed rule) :
    bitOf (portBByte s) 7 = Config.pb7Read rule s.pb.latch s.pb.ddr s.pb.input s.timer.ie s.timer.flag := by
  rw [State.variant_miot_iff] at hv
  simp only [portBByte, hv, hm, bitOf_withBit, if_true]

/-! ## Port accesses of the two tables -/

/-- An operation that stands in both tables with one effect runs on both variants. -/
theorem runsOn_of_effectOf {s t : State} {r m : Instr} (hr : ∀ n, r.wellFormedFor .riot n = true)
    (hm : ∀ n, m.wellFormedFor .miot n = true) (hrt : effectOf r s = t) (hmt : effectOf m s = t) : RunsOn s r m t :=
  ⟨fun hv => (exec_next_iff r s t).2 ⟨hv ▸ hr _, hrt.symm⟩, fun hv => (exec_next_iff m s t).2 ⟨hv ▸ hm _, hmt.symm⟩⟩

/-- R33, R175: what an operation never changes: the variant, the parameters and the environment. -/
theorem exec_frame {i : Instr} {s t : State} (h : exec i s = .next t) :
    t.variant = s.variant ∧ t.params = s.params ∧ ∀ p, envOf p t = envOf p s := by
  obtain ⟨_, rfl⟩ := (exec_next_iff i s t).1 h
  obtain ⟨_, _, hparams, henvA, henvB⟩ := effectOf_frame i s
  refine ⟨effectOf_variant i s, hparams, fun p => ?_⟩
  cases p with
  | a => exact henvA
  | b => exact henvB

/-- R81, R85: a latch write of the chip's own table completes. -/
theorem exec_latchWrite_completes (s : State) (v : Variant) (p : PortName) (d : Byte) (h : s.variant = v) :
    ∃ t, exec (latchWrite v p d) s = .next t := by
  refine ⟨_, exec_on_variant _ s (h.trans ?_) ?_⟩ <;> cases v <;> cases p <;> rfl

/-- R83, R86: a direction write of the chip's own table completes. -/
theorem exec_ddrWrite_completes (s : State) (v : Variant) (p : PortName) (d : Byte) (h : s.variant = v) :
    ∃ t, exec (ddrWrite v p d) s = .next t := by
  refine ⟨_, exec_on_variant _ s (h.trans ?_) ?_⟩ <;> cases v <;> cases p <;> rfl

section
variable {v : Variant} {p : PortName} {d : Byte} {s t : State}

/-- R81, R85: a latch write stores its byte. -/
theorem portOf_latchWrite (h : exec (latchWrite v p d) s = .next t) : portOf p t = { portOf p s with latch := d } := by
  obtain ⟨_, rfl⟩ := (exec_next_iff _ s t).1 h
  cases v <;> cases p <;> rfl

/-- R83, R86: a direction write stores its byte. -/
theorem portOf_ddrWrite (h : exec (ddrWrite v p d) s = .next t) : portOf p t = { portOf p s with ddr := d } := by
  obtain ⟨_, rfl⟩ := (exec_next_iff _ s t).1 h
  cases v <;> cases p <;> rfl

/-- R80, R84: a port read samples. -/
theorem portOf_portRead (h : exec (portRead v p) s = .next t) :
    portOf p t = samplePort (envLevels p s) (portOf p s) := by
  obtain ⟨_, rfl⟩ := (exec_next_iff _ s t).1 h
  cases v <;> cases p <;> rfl

end

/-- R80, R84: a port read of the chip's own table completes and answers the latch on outputs and the environment's level on
inputs. -/
theorem exec_portRead (s : State) (v : Variant) (p : PortName) (h : s.variant = v) :
    ∃ t b, exec (portRead v p) s = .next t ∧ t.dataOut = some b ∧
      ∀ i, (p = .b → i = 7 → Pb7Ordinary s) →
        bitOf b i = if bitOf (portOf p s).ddr i then bitOf (portOf p s).latch i else bitOf (envLevels p s) i := by
  cases p with
  | a =>
    refine ⟨readPortA s, resolved (samplePort (envLevels .a s) s.pa), ?_, by rw [readPortA_eq], fun i _ => ?_⟩
    · cases v <;> exact exec_on_variant _ _ h rfl
    · exact bitOf_resolved_samplePort _ _ i
  | b =>
    refine ⟨readPortB s, portBByte { s with pb := samplePort (envLevels .b s) s.pb }, ?_, by rw [readPortB_eq],
      fun i hi => ?_⟩
    · cases v <;> exact exec_on_variant _ _ h rfl
    · exact bitOf_portBByte_samplePort _ s i (hi rfl)

/-! ## Pin changes the host reports -/

/-- R88, R89: port `p`'s environment and input levels replaced, as a pin change reports them, before any edge comparison. -/
def reportPins (p : PortName) (pins : Pins) (input : Byte) (s : State) : State :=
  setPortOf p { portOf p s with input := input } (silent (setEnvOf p pins s))

@[simp] theorem portOf_reportPins (p : PortName) (pins : Pins) (input : Byte) (s : State) :
    portOf p (reportPins p pins input s) = { portOf p s with input := input } := by
  cases p <;> rfl

@[simp] theorem envOf_reportPins (p : PortName) (pins : Pins) (input : Byte) (s : State) :
    envOf p (reportPins p pins input s) = pins := by
  cases p <;> rfl

/-- A later report about the same port replaces an earlier one. -/
@[simp] theorem reportPins_reportPins (p : PortName) (pins pins' : Pins) (input input' : Byte) (s : State) :
    reportPins p pins input (reportPins p pins' input' s) = reportPins p pins input s := by
  cases p <;> rfl

/-- R88: a SET_INPUT reports one pin, and compares if it is PA7. -/
theorem setInput_eq_reportPins (p : PortName) (i : Fin 8) (level : Bool) (s : State) :
    setInput p i level s =
      if p = .a ∧ i = 7 then
        observe (reportPins p (drivePin i level (envOf p s)) (withBit (portOf p s).input i level) s)
      else reportPins p (drivePin i level (envOf p s)) (withBit (portOf p s).input i level) s := by
  cases p <;> rfl

/-- R89: a SET_INPUT_BYTE reports eight pins, and compares if they are Port A's. -/
theorem setInputByte_eq_reportPins (p : PortName) (v : Byte) (s : State) :
    setInputByte p v s =
      if p = .a then observe (reportPins p { driven := 0xFF, level := v } v s)
      else reportPins p { driven := 0xFF, level := v } v s := by
  cases p <;> rfl

/-- R89: the environment that drove the eight pins one after the other drives its byte. -/
theorem drivePin_eight (pins : Pins) (v : Byte) :
    drivePin 7 (bitOf v 7) (drivePin 6 (bitOf v 6) (drivePin 5 (bitOf v 5) (drivePin 4 (bitOf v 4)
      (drivePin 3 (bitOf v 3) (drivePin 2 (bitOf v 2) (drivePin 1 (bitOf v 1) (drivePin 0 (bitOf v 0) pins))))))) =
      { driven := 0xFF, level := v } := by
  simp only [drivePin, withBit_eight, Pins.mk.injEq, and_true]
  exact withBit_eight pins.driven 0xFF

/-- R89: eight SET_INPUT events, the one for pin 7 and so the one comparison last: each report replaces the one before, so they
leave the state of one SET_INPUT_BYTE. -/
theorem setInput_eight (p : PortName) (v : Byte) (s : State) :
    setInput p 7 (bitOf v 7) (setInput p 6 (bitOf v 6) (setInput p 5 (bitOf v 5) (setInput p 4 (bitOf v 4)
      (setInput p 3 (bitOf v 3) (setInput p 2 (bitOf v 2) (setInput p 1 (bitOf v 1) (setInput p 0 (bitOf v 0) s))))))) =
      setInputByte p v s := by
  simp [setInput_eq_reportPins, setInputByte_eq_reportPins, drivePin_eight, withBit_eight]

/-- R88: the pin's input level, whatever the direction of the pin. -/
theorem portOf_setInput (p : PortName) (i : Fin 8) (level : Bool) (s : State) :
    portOf p (setInput p i level s) = { portOf p s with input := withBit (portOf p s).input i level } := by
  rw [setInput_eq_reportPins]
  split <;> exact portOf_reportPins p _ _ s

/-- R88: the environment's level of the pin, whatever the direction of the pin. -/
theorem bitOf_envLevels_setInput (p : PortName) (i j : Fin 8) (level : Bool) (s : State) :
    bitOf (envLevels p (setInput p i level s)) j = if j = i then level else bitOf (envLevels p s) j := by
  have henv : envOf p (setInput p i level s) = drivePin i level (envOf p s) := by
    rw [setInput_eq_reportPins]
    split <;> exact envOf_reportPins p _ _ s
  obtain ⟨_, _, _, hparams, _⟩ := setInput_frame p i level s
  rw [envLevels, henv, hparams, bitOf_pinLevels_drivePin, envLevels]

/-- R88, R121: a SET_INPUT compares the PA7 level it leaves, if it is PA7's. -/
theorem setInput_chip_of_pa7 (level : Bool) (s : State) :
    (setInput .a 7 level s).chip = observedChip (pa7Level (setInput .a 7 level s)) s.chip := by
  rw [setInput_pa7, observe_eq]
  rfl

/-- R88: a SET_INPUT of another pin compares nothing. -/
theorem setInput_chip_of_ordinary (p : PortName) (i : Fin 8) (level : Bool) (s : State) (h : ¬(p = .a ∧ i = 7)) :
    (setInput p i level s).chip = s.chip := by
  rw [setInput_ordinary p i level s h]
  cases p <;> rfl

/-- R119: PA7 resolves to the same level if it is an output, or an input with the same input level. -/
theorem pa7Level_eq_of_input {s t : State} (hddr : t.pa.ddr = s.pa.ddr) (hlatch : t.pa.latch = s.pa.latch)
    (h : bitOf s.pa.ddr 7 = true ∨ bitOf t.pa.input 7 = bitOf s.pa.input 7) : pa7Level t = pa7Level s := by
  simp only [pa7Level, hddr, hlatch]
  rcases h with h | h
  · rw [if_pos h, if_pos h]
  · rw [h]

/-- R88, C4: with PA7 an output no SET_INPUT changes its resolved level. -/
theorem pa7Level_setInput_of_output (p : PortName) (i : Fin 8) (level : Bool) (s : State)
    (h : bitOf s.pa.ddr 7 = true) : pa7Level (setInput p i level s) = pa7Level s := by
  cases p with
  | a =>
    have hpa : (setInput .a i level s).pa = { s.pa with input := withBit s.pa.input i level } :=
      portOf_setInput .a i level s
    exact pa7Level_eq_of_input (by rw [hpa]) (by rw [hpa]) (.inl h)
  | b => rfl

/-- R88: what a SET_INPUT of Port A leaves alone. -/
theorem setInput_a_frame (i : Fin 8) (level : Bool) (s : State) :
    setInput .a i level s =
      { s with
        pa := (setInput .a i level s).pa
        envA := (setInput .a i level s).envA
        chip := (setInput .a i level s).chip
        dataOut := none } := by
  rw [setInput_eq_reportPins]
  split <;> rfl

/-- R88: what a SET_INPUT of Port B leaves alone. -/
theorem setInput_b_frame (i : Fin 8) (level : Bool) (s : State) :
    setInput .b i level s =
      { s with
        pb := (setInput .b i level s).pb
        envB := (setInput .b i level s).envB
        dataOut := none } := rfl

/-- R88: a pin that SET_INPUT has set, once a direction write makes it an input, reads its level. -/
theorem setInput_then_input_reads (s : State) (p : PortName) (i : Fin 8) (level : Bool) (dd : Byte)
    (hdd : bitOf dd i = false) (h7 : p = .b → i = 7 → Pb7Ordinary s) :
    ∃ u v b, exec (ddrWrite s.variant p dd) (setInput p i level s) = .next u ∧ bitOf (portOf p u).input i = level ∧
      exec (portRead s.variant p) u = .next v ∧ v.dataOut = some b ∧ bitOf b i = level := by
  obtain ⟨_, _, _, hparams, _, hvariant⟩ := setInput_frame p i level s
  obtain ⟨u, hu⟩ := exec_ddrWrite_completes (setInput p i level s) s.variant p dd hvariant
  have hport := portOf_ddrWrite hu
  obtain ⟨huv, hup, huenv⟩ := exec_frame hu
  have hlevels : envLevels p u = envLevels p (setInput p i level s) := by rw [envLevels, hup, huenv, envLevels]
  have hordinary : Pb7Ordinary u ↔ Pb7Ordinary s := pb7Ordinary_congr (huv.trans hvariant) (hup.trans hparams)
  obtain ⟨v, b, hv, hb, hbits⟩ := exec_portRead u s.variant p (huv.trans hvariant)
  refine ⟨u, v, b, hu, ?_, hv, hb, ?_⟩
  · rw [hport, portOf_setInput]
    exact (bitOf_withBit _ i i level).trans (if_pos rfl)
  · rw [hbits i fun hp hi => hordinary.2 (h7 hp hi), hport, hdd, if_neg Bool.false_ne_true, hlevels,
      bitOf_envLevels_setInput, if_pos rfl]

/-- R89: the port's input levels are then the byte. -/
theorem portOf_setInputByte (p : PortName) (v : Byte) (s : State) :
    portOf p (setInputByte p v s) = { portOf p s with input := v } := by
  rw [setInputByte_eq_reportPins]
  split <;> exact portOf_reportPins p _ _ s

/-- R89: the environment's levels are then the byte. -/
theorem envLevels_setInputByte (p : PortName) (v : Byte) (s : State) : envLevels p (setInputByte p v s) = v := by
  have henv : envOf p (setInputByte p v s) = { driven := 0xFF, level := v } := by
    rw [setInputByte_eq_reportPins]
    split <;> exact envOf_reportPins p _ _ s
  rw [envLevels, henv, pinLevels_allDriven]

/-- R89, R121: a SET_INPUT_BYTE of Port A compares the PA7 level it leaves. -/
theorem setInputByte_a_chip (v : Byte) (s : State) :
    (setInputByte .a v s).chip = observedChip (pa7Level (setInputByte .a v s)) s.chip := by
  rw [setInputByte_a, observe_eq]
  rfl

/-- The step that delivers a SET_INPUT. -/
theorem stepsTo_setInput (p : PortName) (i : Fin 8) (level : Bool) (s : State) :
    StepsTo (.setInput p i level) s (setInput p i level s) :=
  stepsTo_of_deliver fun rest => congrArg Host.Outcome.next (setInput_setSchedule p i level s rest)

/-- The step that delivers a SET_INPUT_BYTE. -/
theorem stepsTo_setInputByte (p : PortName) (v : Byte) (s : State) :
    StepsTo (.setInputByte p v) s (setInputByte p v s) := by
  refine stepsTo_of_deliver fun rest => congrArg Host.Outcome.next ?_
  cases p with
  | a => simp only [setInputByte_a, observe_eq]; rfl
  | b => rfl

/-- A run whose first event steps to `t` goes on from there. -/
theorem run_of_stepsTo {e : Event} {s t : State} (h : StepsTo e s t) (n : Nat) (rest : List Event) :
    Host.Core.run core (n + 1) (s.setSchedule (e :: rest)) = Host.Core.run core n (t.setSchedule rest) :=
  run_succ_of_step (h rest) n

/-! ## What does not reach the edge detector -/

/-- R144: IRQ is made of the edge detector and the timer. -/
theorem irq_congr {s t : State} (hc : t.chip = s.chip) (ht : t.timer = s.timer) : irq t = irq s := by
  simp only [irq, hc, ht]

/-- R144: so what leaves the edge detector and the timer leaves IRQ too. -/
theorem quiet_of_chip_timer {s t : State} (hc : t.chip = s.chip) (ht : t.timer = s.timer) :
    t.chip = s.chip ∧ t.timer = s.timer ∧ irq t = irq s := ⟨hc, ht, irq_congr hc ht⟩

/-- R131: where PA7 was observed, a comparison of its resolved level finds nothing new. -/
theorem EdgeInv.observedChip_eq {s : State} (hinv : EdgeInv s) {level : Bool} (h : level = pa7Level s) :
    observedChip level s.chip = s.chip :=
  observedChip_same level s.chip fun e he => (hinv e he).trans h.symm

/-- R94: a Port B operation and a direction read leave the edge detector and the timer. -/
theorem exec_quiet_of_portB {i : Instr} {d : Byte} {s t : State} (hi : i ∈ [.riotRdPb, .riotRdDdrb, .riotWrPb d,
    .riotWrDdrb d, .riotRdDdra, .miotRdPb, .miotRdDdrb, .miotWrPb d, .miotWrDdrb d, .miotRdDdra])
    (h : exec i s = .next t) : t.chip = s.chip ∧ t.timer = s.timer := by
  obtain ⟨_, rfl⟩ := (exec_next_iff i s t).1 h
  simp only [List.mem_cons, List.not_mem_nil, or_false] at hi
  rcases hi with rfl | rfl | rfl | rfl | rfl | rfl | rfl | rfl | rfl | rfl <;> exact ⟨rfl, rfl⟩

/-- R121: a Port A access of either table leaves the timer, and compares the PA7 level it leaves. -/
theorem exec_portA_chip_timer {i : Instr} {v : Variant} {s t : State}
    (hi : i = portRead v .a ∨ ∃ d, i = latchWrite v .a d ∨ i = ddrWrite v .a d) (h : exec i s = .next t) :
    t.chip = observedChip (pa7Level t) s.chip ∧ t.timer = s.timer := by
  obtain ⟨_, rfl⟩ := (exec_next_iff i s t).1 h
  rcases hi with rfl | ⟨d, rfl | rfl⟩
  · cases v <;> simp only [portRead, effectOf, readPortA_eq, pa7Level_eq_resolved, and_self]
  · cases v <;> simp only [latchWrite, effectOf, writePortA_eq, pa7Level_eq_resolved, and_self]
  · cases v <;> simp only [ddrWrite, effectOf, writeDdrA_eq, pa7Level_eq_resolved, and_self]

/-- R94, R131: so from a state that has observed PA7, one that leaves PA7's level leaves the edge detector, the timer and IRQ. -/
theorem exec_quiet_of_pa7 {i : Instr} {v : Variant} {s t : State} (hinv : EdgeInv s)
    (hi : i = portRead v .a ∨ ∃ d, i = latchWrite v .a d ∨ i = ddrWrite v .a d) (h : exec i s = .next t)
    (h7 : pa7Level t = pa7Level s) : t.chip = s.chip ∧ t.timer = s.timer ∧ irq t = irq s := by
  obtain ⟨hchip, htimer⟩ := exec_portA_chip_timer hi h
  exact quiet_of_chip_timer (hchip.trans (hinv.observedChip_eq h7)) htimer

/-! ## The statements -/

/-- Settles O9: the whole effect of a Port A read. -/
theorem portAReadGivesResolvedLevels : Obligations.PortAReadGivesResolvedLevels := by
  intro s
  exact ⟨_, _, runsOn_of_effectOf (fun _ => rfl) (fun _ => rfl) (readPortA_eq s) (readPortA_eq s), rfl,
    bitOf_resolved_samplePort _ _, bitOf_pick _ _ _, rfl, rfl, fun _ => rfl⟩

/-- Settles O10: the whole effect of a Port B read, its bit 7 ordinary or governed. -/
theorem portBReadGivesResolvedLevels : Obligations.PortBReadGivesResolvedLevels := by
  intro s
  refine ⟨_, _, runsOn_of_effectOf (fun _ => rfl) (fun _ => rfl) (readPortB_eq s) (readPortB_eq s), rfl,
    fun i hi => ?_, fun rule hv hm => ?_, bitOf_pick _ _ _, rfl, fun _ => rfl⟩
  · exact bitOf_portBByte_samplePort _ s i hi.neg_resolve_left
  · exact bitOf_portBByte_governed _ rule hv hm

/-- Settles O11: the read answers the environment's level, and that is UNDRIVEN_LEVEL. -/
theorem undrivenInputsReadTheUndrivenLevel : Obligations.UndrivenInputsReadTheUndrivenLevel := by
  intro s p i hddr hdriven h7
  obtain ⟨t, b, ht, hb, hbits⟩ := exec_portRead s s.variant p rfl
  refine ⟨t, b, ht, hb, ?_⟩
  rw [hbits i h7, hddr, if_neg Bool.false_ne_true, envLevels, bitOf_pinLevels, hdriven, if_neg Bool.false_ne_true]

/-- Settles O12: the whole effects of the two writes. -/
theorem portAWritesStoreAndObserve : Obligations.PortAWritesStoreAndObserve := by
  intro s d
  refine ⟨⟨_, runsOn_of_effectOf (fun _ => rfl) (fun _ => rfl) (writePortA_eq d s) (writePortA_eq d s), ?_, rfl, fun _ => rfl⟩,
    ⟨_, runsOn_of_effectOf (fun _ => rfl) (fun _ => rfl) (writeDdrA_eq d s) (writeDdrA_eq d s), ?_, rfl, fun _ => rfl⟩⟩
  · rw [bitOf_resolved]
  · rw [bitOf_resolved]

/-- Settles O13: the writes' rows by their place in the tables, the whole effects of the two writes, and the outputs of the
state they leave. -/
theorem portBWritesStoreTheirRegister : Obligations.PortBWritesStoreTheirRegister := by
  refine ⟨decode_io32_rows _ (List.mem_of_getElem? (i := 6) rfl), decode_io16_rows _ (List.mem_of_getElem? (i := 6) rfl),
    decode_io32_rows _ (List.mem_of_getElem? (i := 7) rfl), decode_io16_rows _ (List.mem_of_getElem? (i := 7) rfl),
    fun s d => ⟨?_, ?_⟩⟩
  · refine ⟨_, runsOn_of_effectOf (fun _ => rfl) (fun _ => rfl) (writePortB_eq d s) (writePortB_eq d s), rfl, rfl,
      fun _ => rfl, fun i hi => ?_⟩
    exact ⟨bitOf_portO _ .b i fun _ => hi.neg_resolve_left, bitOf_portByte _ .b i fun _ => hi.neg_resolve_left⟩
  · refine ⟨_, runsOn_of_effectOf (fun _ => rfl) (fun _ => rfl) (writeDdrB_eq d s) (writeDdrB_eq d s), rfl, rfl,
      fun _ => rfl, fun i hi => ?_⟩
    exact ⟨bitOf_portOE _ .b i fun _ => hi.neg_resolve_left, bitOf_portByte _ .b i fun _ => hi.neg_resolve_left⟩

/-- Settles O15: the writes and the change of the environment each leave what the read then resolves, bit by bit. -/
theorem portRoundTrip : Obligations.PortRoundTrip := by
  intro s p dd w pins h7
  obtain ⟨t1, h1⟩ := exec_ddrWrite_completes s s.variant p dd rfl
  obtain ⟨hv1, hp1, _⟩ := exec_frame h1
  obtain ⟨t2, h2⟩ := exec_latchWrite_completes t1 s.variant p w hv1
  obtain ⟨hv2, hp2, _⟩ := exec_frame h2
  have h3 : deliver (.envChange p pins) t2 = .next (silent (setEnvOf p pins t2)) := rfl
  have hv3 : (silent (setEnvOf p pins t2)).variant = s.variant := (deliver_variant _ _ _ h3).trans (hv2.trans hv1)
  have hp3 : (silent (setEnvOf p pins t2)).params = s.params := (deliver_params _ _ _ h3).trans (hp2.trans hp1)
  have hport3 : portOf p (silent (setEnvOf p pins t2)) = { portOf p s with ddr := dd, latch := w } := by
    have hkept : portOf p (silent (setEnvOf p pins t2)) = portOf p t2 := by cases p <;> rfl
    rw [hkept, portOf_latchWrite h2, portOf_ddrWrite h1]
  have henv3 : envOf p (silent (setEnvOf p pins t2)) = pins := by cases p <;> rfl
  obtain ⟨t4, b, h4, hb, hbits⟩ := exec_portRead _ s.variant p hv3
  refine ⟨t1, t2, _, t4, h1, h2, h3, h4, hb.trans (congrArg some (byte_ext _ _ fun i => ?_))⟩
  rw [hbits i fun hp _ => (pb7Ordinary_congr hv3 hp3).2 (h7 hp), hport3, envLevels, hp3, henv3]
  exact (bitOf_pick dd w _ i).symm

/-- Settles O16: what a SET_INPUT does to the pin, to the edge detector and to nothing else, and the read after it. -/
theorem setInputUpdatesThePinAndObserves : Obligations.SetInputUpdatesThePinAndObserves := by
  intro s p i level
  refine ⟨setInput p i level s, stepsTo_setInput p i level s, fun j => bitOf_envLevels_setInput p i j level s, fun j => ?_,
    by rw [portOf_setInput], by rw [portOf_setInput], ?_, setInput_chip_of_ordinary p i level s,
    pa7Level_setInput_of_output p i level s, ?_, ?_, setInput_then_input_reads s p i level⟩
  · rw [portOf_setInput, bitOf_withBit]
  · rintro ⟨rfl, rfl⟩
    exact setInput_chip_of_pa7 level s
  · rintro rfl
    exact setInput_a_frame i level s
  · rintro rfl
    exact setInput_b_frame i level s

/-- Settles O17: eight steps of the schedule, then `setInput_eight`. -/
theorem setInputByteIsEightSetInputs : Obligations.SetInputByteIsEightSetInputs := by
  intro s p v
  refine ⟨setInputByte p v s, stepsTo_setInputByte p v s, ?_, ?_, fun rest => ?_⟩
  · rw [portOf_setInputByte]
  · exact envLevels_setInputByte p v s
  · iterate 8 rw [run_of_stepsTo (stepsTo_setInput _ _ _ _)]
    rw [setInput_eight]
    rfl

/-- Settles O20: the Port B operations and the ordinary pins leave the edge detector; a comparison of an unchanged PA7 does too. -/
theorem onlyPa7FeedsTheEdgeDetector : Obligations.OnlyPa7FeedsTheEdgeDetector := by
  refine ⟨fun i d s t hi h => ?_, fun p i level s t hp h => ?_, fun v s t h => ?_, fun d s t hinv h7 h => ?_,
    fun d s t hinv h7 h => ?_, fun s t hinv h7 h => ?_, fun v s t hinv h7 h => ?_⟩
  · obtain ⟨hchip, htimer⟩ := exec_quiet_of_portB hi h
    exact quiet_of_chip_timer hchip htimer
  · injection h with h
    subst h
    obtain ⟨htimer, _⟩ := setInput_frame p i level s
    exact quiet_of_chip_timer (setInput_chip_of_ordinary p i level s hp) htimer
  · injection h with h
    subst h
    exact ⟨rfl, rfl, rfl⟩
  · refine exec_quiet_of_pa7 hinv (.inr ⟨d, .inl rfl⟩) h ?_
    have hpa : t.pa = { s.pa with latch := d } := portOf_latchWrite h
    simp only [pa7Level, hpa, h7]
  · refine exec_quiet_of_pa7 hinv (.inr ⟨d, .inr rfl⟩) h ?_
    have hpa : t.pa = { s.pa with ddr := d } := portOf_ddrWrite h
    simp only [pa7Level, hpa, h7]
  · refine exec_quiet_of_pa7 hinv (.inl rfl) h ?_
    have hpa : t.pa = samplePort (envLevels .a s) s.pa := portOf_portRead h
    refine pa7Level_eq_of_input (by rw [hpa]; rfl) (by rw [hpa]; rfl) (h7.imp_right fun hlevel => ?_)
    simp only [hpa, samplePort, bitOf_pick, hlevel, ite_self]
  · injection h with h
    subst h
    have hlevel : pa7Level (setInputByte .a v s) = pa7Level s := pa7Level_eq_of_input rfl rfl h7
    exact quiet_of_chip_timer ((setInputByte_a_chip v s).trans (hinv.observedChip_eq hlevel)) rfl

/-- Settles O14: the whole effect of a direction read. -/
theorem directionReadsAnswerTheRegister : Obligations.DirectionReadsAnswerTheRegister :=
  fun _ => ⟨runsOn_of_effectOf (fun _ => rfl) (fun _ => rfl) rfl rfl, runsOn_of_effectOf (fun _ => rfl) (fun _ => rfl) rfl rfl⟩

/-- Settles O18: `Sample` and `Resolved` are the choice of R18, bit by bit. -/
theorem sampleRefreshesInputPinsOnly : Obligations.SampleRefreshesInputPinsOnly := by
  refine ⟨fun s p => ⟨fun i => ?_, ?_⟩, fun q => ⟨rfl, bitOf_resolved q⟩⟩
  · have hport : portOf p (sample p s) = samplePort (envLevels p s) (portOf p s) := by cases p <;> rfl
    rw [hport]
    simp only [samplePort, bitOf_pick]
    cases bitOf (portOf p s).ddr i <;> rfl
  · cases p <;> rfl

end Sys2Proof.Machine
end

section
/-! PROOFS. The statements of 41_timer.md: the load (O22, O24), the read (O23), the tick (O25), the laws of the ticks after a load
(O26, O27, O28), the one crossing per load (O30), the machine's invariant (O53) and the incremental form (O58, O31). -/

namespace Sys2Proof.Machine

/-! ## The counting and the spinning timer -/

/-- R105: the count while COUNTING, with the elapsed ticks in whole periods. -/
theorem timerValue_of_counting {s : State} (h : s.timer.state = .counting) :
    timerValue s = BitVec.ofNat 8 (s.timer.value.toNat - timerElapsed s / divisor s.timer.prescale) := by
  simp only [timerValue, h, Nat.shiftRight_eq_div_pow, divisor]

/-- R105: the count while SPINNING. -/
theorem timerValue_of_spinning {s : State} (h : s.timer.state = .spinning) :
    timerValue s = BitVec.ofInt 8 ((timerSpan s.timer : Int) - (timerElapsed s : Int)) := by
  simp only [timerValue, h]

/-- `m` whole periods of `p` ticks and a part of the next one are `m` periods. -/
theorem whole_periods {m j p : Nat} (hj : j < p) : (m * p + j) / p = m := by
  rw [Nat.add_comm, Nat.add_mul_div_right _ _ (Nat.zero_lt_of_lt hj), Nat.div_eq_of_lt hj, Nat.zero_add]

/-- R105: within the span fewer periods have passed than were loaded. -/
theorem elapsed_div_lt_value {t : Timer} {n : Nat} (h : n < timerSpan t) : n / divisor t.prescale < t.value.toNat := by
  rw [timerSpan_eq] at h
  exact Nat.div_lt_of_lt_mul (by rwa [Nat.mul_comm])

@[simp] theorem expire_state (t : Timer) : (expire t).state = .spinning := rfl

@[simp] theorem expire_tLoad (t : Timer) : (expire t).tLoad = t.tLoad := rfl

@[simp] theorem timerSpan_expire (t : Timer) : timerSpan (expire t) = timerSpan t := rfl

/-- R114: `Expire()` runs only from COUNTING. -/
theorem tickTimer_of_not_counting (now : Nat) (t : Timer) (h : t.state ≠ .counting) : tickTimer now t = t :=
  if_neg fun hc => h hc.1

theorem tickTimer_of_ne_expiry (now : Nat) (t : Timer) (h : now ≠ timerExpiry t) : tickTimer now t = t :=
  if_neg fun hc => h hc.2

theorem tickTimer_of_expiry (now : Nat) (t : Timer) (hc : t.state = .counting) (h : now = timerExpiry t) :
    tickTimer now t = expire t := if_pos ⟨hc, h⟩

/-! ## The load -/

/-- R27: the span of a loaded count. -/
theorem timerSpan_loadedTimer (sel : BitVec 2) (ie : Bool) (d : Byte) (now : Nat) :
    timerSpan (loadedTimer sel ie d now) = d.toNat * divisor (prescaleOf sel) := timerSpan_eq _

/-- R107: the count of 0 is the one with no span. -/
theorem span_eq_zero_iff (d : Byte) (p : Prescale) : d.toNat * divisor p = 0 ↔ d = 0 := by
  rw [Nat.mul_eq_zero, or_iff_left (divisor_pos p).ne', BitVec.toNat_eq]
  rfl

/-- R109: the flag after the crossing of a load is the load's enable. -/
@[simp] theorem expire_loadedTimer_flag (sel : BitVec 2) (ie : Bool) (d : Byte) (now : Nat) :
    (expire (loadedTimer sel ie d now)).flag = ie := by
  rw [expire_eq]
  exact Bool.or_false ie

/-- R107: a load of count 0. -/
theorem loadTimer_zero (sel : BitVec 2) (ie : Bool) (s : State) :
    loadTimer sel ie 0 s = { s with timer := expire (loadedTimer sel ie 0 s.now), dataOut := none } := rfl

/-- R96: a load of any other count. -/
theorem loadTimer_of_ne_zero {d : Byte} (hd : d ≠ 0) (sel : BitVec 2) (ie : Bool) (s : State) :
    loadTimer sel ie d s = { s with timer := loadedTimer sel ie d s.now, dataOut := none } := by
  rw [loadTimer_eq, if_neg hd]

/-- R96, R107: what a load makes of the whole state, in the form the statement has. -/
theorem loadEffect_loadTimer (s : State) (sel : BitVec 2) (ie : Bool) (d : Byte) :
    LoadEffect s sel ie d (loadTimer sel ie d s) := by
  rcases eq_or_ne d 0 with rfl | hd
  · rw [loadTimer_zero]
    exact ⟨rfl, rfl, rfl, rfl, fun h => absurd rfl h, fun _ => ⟨rfl, expire_loadedTimer_flag sel ie 0 s.now⟩, rfl⟩
  · rw [loadTimer_of_ne_zero hd]
    exact ⟨rfl, rfl, rfl, rfl, fun _ => ⟨rfl, rfl⟩, fun h => absurd h hd, rfl⟩

/-- R96, R144: IRQ after a load. -/
theorem irq_loadTimer (s : State) (sel : BitVec 2) (ie : Bool) (d : Byte) :
    irq (loadTimer sel ie d s) = ((d == 0 && ie) || edgeRequest s.chip) := by
  rcases eq_or_ne d 0 with rfl | hd
  · have hreq : timerRequest (expire (loadedTimer sel ie 0 s.now)) = ie := by
      rw [timerRequest, expire_loadedTimer_flag]
      exact Bool.and_self ie
    rw [loadTimer_zero, irq, hreq]
    rfl
  · rw [loadTimer_of_ne_zero hd, beq_eq_false_iff_ne.2 hd]
    rfl

/-- R96: a load that stands in both tables runs on both variants. -/
theorem runsOn_load {r m : Instr} {sel : BitVec 2} {ie : Bool} {d : Byte} {s : State}
    (hr : ∀ n, r.wellFormedFor .riot n = true) (hm : ∀ n, m.wellFormedFor .miot n = true)
    (hrl : effectOf r s = loadTimer sel ie d s) (hml : effectOf m s = loadTimer sel ie d s) :
    ∃ t, RunsOn s r m t ∧ LoadEffect s sel ie d t ∧ irq t = ((d == 0 && ie) || edgeRequest s.chip) :=
  ⟨_, runsOn_of_effectOf hr hm hrl hml, loadEffect_loadTimer s sel ie d, irq_loadTimer s sel ie d⟩

/-! ## Ticks after a load -/

theorem afterTicks_succ (n : Nat) (s : State) : afterTicks (n + 1) s = tick (afterTicks n s) := by
  induction n generalizing s with
  | zero => rfl
  | succ n ih => exact ih (tick s)

/-- R108, R111: `n` ticks after a load the timer has expired exactly if `n` has reached the span, and is as loaded before. -/
theorem afterTicks_loadTimer_timer (n : Nat) (sel : BitVec 2) (ie : Bool) (d : Byte) (s : State) :
    (afterTicks n (loadTimer sel ie d s)).timer =
      if d.toNat * divisor (prescaleOf sel) ≤ n then expire (loadedTimer sel ie d s.now) else loadedTimer sel ie d s.now := by
  induction n with
  | zero =>
    simp only [Nat.le_zero, span_eq_zero_iff]
    rfl
  | succ n ih =>
    obtain ⟨hnow, _⟩ := afterTicks_frame n (loadTimer sel ie d s)
    have htick : (afterTicks (n + 1) (loadTimer sel ie d s)).timer =
        tickTimer (s.now + n + 1) (afterTicks n (loadTimer sel ie d s)).timer := by
      rw [afterTicks_succ, tick_eq, hnow]
      rfl
    have hexp : timerExpiry (loadedTimer sel ie d s.now) = s.now + d.toNat * divisor (prescaleOf sel) := by
      rw [timerExpiry, timerSpan_loadedTimer]
      rfl
    rw [htick, ih]
    rcases Nat.lt_trichotomy (d.toNat * divisor (prescaleOf sel)) (n + 1) with hlt | heq | hgt
    · rw [if_pos (Nat.le_of_lt_succ hlt), if_pos hlt.le]
      exact tickTimer_of_not_counting _ _ (by simp)
    · rw [if_neg (by omega), if_pos heq.le]
      exact tickTimer_of_expiry _ _ rfl (by omega)
    · rw [if_neg (by omega), if_neg (by omega)]
      exact tickTimer_of_ne_expiry _ _ (by omega)

/-- R27: the ticks are those since the load. -/
theorem timerElapsed_afterTicks_loadTimer (n : Nat) (sel : BitVec 2) (ie : Bool) (d : Byte) (s : State) :
    timerElapsed (afterTicks n (loadTimer sel ie d s)) = n := by
  obtain ⟨hnow, _⟩ := afterTicks_frame n (loadTimer sel ie d s)
  have htLoad : (afterTicks n (loadTimer sel ie d s)).timer.tLoad = s.now := by
    rw [afterTicks_loadTimer_timer]
    split <;> rfl
  rw [timerElapsed, hnow, htLoad]
  exact Nat.add_sub_cancel_left s.now n

/-- R110: the count before the crossing. -/
theorem timerValue_afterTicks_lt (n : Nat) (sel : BitVec 2) (ie : Bool) (d : Byte) (s : State)
    (h : n < d.toNat * divisor (prescaleOf sel)) :
    timerValue (afterTicks n (loadTimer sel ie d s)) = BitVec.ofNat 8 (d.toNat - n / divisor (prescaleOf sel)) := by
  have ht := afterTicks_loadTimer_timer n sel ie d s
  rw [if_neg (by omega)] at ht
  rw [timerValue_of_counting (by rw [ht]; rfl), timerElapsed_afterTicks_loadTimer, ht]
  rfl

/-- R112: the count `j` ticks after the crossing. -/
theorem timerValue_afterTicks_crossing (j : Nat) (sel : BitVec 2) (ie : Bool) (d : Byte) (s : State) :
    timerValue (afterTicks (d.toNat * divisor (prescaleOf sel) + j) (loadTimer sel ie d s)) =
      BitVec.ofInt 8 (-(j : Int)) := by
  have ht := afterTicks_loadTimer_timer (d.toNat * divisor (prescaleOf sel) + j) sel ie d s
  rw [if_pos (by omega)] at ht
  rw [timerValue_of_spinning (by rw [ht]; rfl), timerElapsed_afterTicks_loadTimer, ht, timerSpan_expire,
    timerSpan_loadedTimer]
  congr 1
  omega

/-- R106: a timer read of the chip's own table, after any ticks, answers the count. -/
theorem exec_timerRead_afterTicks (n : Nat) (t : State) :
    exec (timerRead t.variant) (afterTicks n t) = .next (readTimer (afterTicks n t)) := by
  obtain ⟨_, _, hv⟩ := afterTicks_frame n t
  exact exec_timerRead _ _ hv

/-- R112: the read `j` ticks after the crossing. -/
theorem exec_timerRead_after_crossing (j : Nat) (sel : BitVec 2) (ie : Bool) (d : Byte) (s : State) :
    ∃ u, exec (timerRead s.variant) (afterTicks (d.toNat * divisor (prescaleOf sel) + j) (loadTimer sel ie d s)) = .next u ∧
      u.dataOut = some (BitVec.ofInt 8 (-(j : Int))) :=
  ⟨_, exec_timerRead_afterTicks _ (loadTimer sel ie d s), congrArg some (timerValue_afterTicks_crossing j sel ie d s)⟩

/-! ## What an event can do to the timer and to the incremental form -/

theorem incEvent_bus (tr : Transaction) (i : Instr) (c : IncTimer) (h : decode tr = .ok i) :
    incEvent (.bus tr) c = incInstr i c := by
  simp only [incEvent, h]

/-- R96, R108, R115, R127, R161: every event but a restore is a load, an IFR read, a tick or a RESET for the timer and for the
incremental form alike, or leaves the time and both forms. -/
theorem deliver_timer_forms (e : Event) (s t : State) (h : deliver e s = .next t) (hs : restores e = false) :
    (∃ sel ie d, t = loadTimer sel ie d s ∧ ∀ c, incEvent e c = incLoad sel ie d) ∨
    (t = readIfr s ∧ ∀ c, incEvent e c = incClear c) ∨
    (t = tick s ∧ ∀ c, incEvent e c = incTick c) ∨
    (t = resetChip s ∧ ∀ c, incEvent e c = incReset c) ∨
    (t.timer = s.timer ∧ t.now = s.now ∧ ∀ c, incEvent e c = c) := by
  rcases deliver_cases e s t h with ⟨tr, i, rfl, hd, _, rfl⟩ | ⟨rfl, rfl⟩ | ⟨p, i, l, rfl, rfl⟩ | ⟨p, v, rfl, rfl⟩ |
    ⟨rfl, rfl⟩ | ⟨_, rfl, _, _⟩ | ⟨p, _, rfl, rfl⟩
  · obtain ⟨hnow, _⟩ := effectOf_frame i s
    rcases effectOf_timer_cases i s with ⟨sel, ie, d, hl, heff⟩ | ⟨hl, hi, heff⟩ | ⟨hl, hi, htimer⟩
    · exact .inl ⟨sel, ie, d, heff, fun c => by simp only [incEvent_bus _ _ c hd, incInstr, hl]⟩
    · exact .inr (.inl ⟨heff, fun c => by simp only [incEvent_bus _ _ c hd, incInstr, hl, hi, if_true]⟩)
    · exact .inr (.inr (.inr (.inr ⟨htimer, hnow, fun c => by simp [incEvent_bus _ _ c hd, incInstr, hl, hi]⟩)))
  · exact .inr (.inr (.inl ⟨rfl, fun _ => rfl⟩))
  · obtain ⟨htimer, _, hnow, _⟩ := setInput_frame p i l s
    exact .inr (.inr (.inr (.inr ⟨htimer, hnow, fun _ => rfl⟩)))
  · obtain ⟨htimer, _, hnow, _⟩ := setInputByte_frame p v s
    exact .inr (.inr (.inr (.inr ⟨htimer, hnow, fun _ => rfl⟩)))
  · exact .inr (.inr (.inr (.inl ⟨rfl, fun _ => rfl⟩)))
  · cases hs
  · exact .inr (.inr (.inr (.inr ⟨by cases p <;> rfl, by cases p <;> rfl, fun _ => rfl⟩)))

/-! ## The timer invariant -/

/-- R109: a timer that expires at or after its crossing, with a flag only if enabled, meets the invariant. -/
theorem timerInv_expire {t : Timer} {now : Nat} (h : timerExpiry t ≤ now) (hf : t.flag = false) :
    TimerInv (expire t) now := by
  refine ⟨nofun, nofun, fun _ => ⟨h, fun hflag => ?_⟩⟩
  simpa [expire_eq, hf] using hflag

/-- R96, R107: a load establishes the invariant, whatever the timer was before. -/
theorem timerInv_loadTimer (sel : BitVec 2) (ie : Bool) (d : Byte) (s : State) :
    TimerInv (loadTimer sel ie d s).timer s.now := by
  have hexp : timerExpiry (loadedTimer sel ie d s.now) = s.now + timerSpan (loadedTimer sel ie d s.now) := rfl
  rcases eq_or_ne d 0 with rfl | hd
  · refine timerInv_expire (hexp.trans ?_).le rfl
    rw [timerSpan_loadedTimer, (span_eq_zero_iff 0 _).2 rfl, Nat.add_zero]
  · have hpos : 0 < timerSpan (loadedTimer sel ie d s.now) := timerSpan_pos _ hd
    have hlt : s.now < timerExpiry (loadedTimer sel ie d s.now) := by omega
    rw [loadTimer_of_ne_zero hd]
    exact ⟨nofun, fun _ => ⟨Nat.le_refl _, hlt, rfl⟩, nofun⟩

/-- R108: a tick keeps the invariant: COUNTING reaches its crossing and expires, or is still before it. -/
theorem TimerInv.tick {t : Timer} {now : Nat} (h : TimerInv t now) : TimerInv (tickTimer (now + 1) t) (now + 1) := by
  obtain ⟨hidle, hcount, hspin⟩ := h
  rcases tickTimer_cases (now + 1) t with ⟨hc, hexp, ht⟩ | ⟨hne, ht⟩
  · obtain ⟨_, _, hf⟩ := hcount hc
    rw [ht]
    exact timerInv_expire hexp.ge hf
  · rw [ht]
    refine ⟨hidle, fun hc => ?_, fun hs => ?_⟩
    · obtain ⟨hload, hlt, hf⟩ := hcount hc
      have hexp : now + 1 ≠ timerExpiry t := hne.resolve_left (not_not_intro hc)
      exact ⟨by omega, by omega, hf⟩
    · obtain ⟨hle, hf⟩ := hspin hs
      exact ⟨by omega, hf⟩

/-- R127: clearing the flag keeps the invariant. -/
theorem TimerInv.clear {t : Timer} {now : Nat} (h : TimerInv t now) : TimerInv { t with flag := false } now := by
  obtain ⟨hidle, hcount, hspin⟩ := h
  refine ⟨fun hi => ⟨(hidle hi).1, rfl⟩, fun hc => ?_, fun hs => ⟨(hspin hs).1, nofun⟩⟩
  obtain ⟨hload, hlt, _⟩ := hcount hc
  exact ⟨hload, hlt, rfl⟩

/-- R105, R109, R114: every event but a restore keeps the timer invariant. -/
theorem TimerInv.deliver {e : Event} {s t : State} (hinv : TimerInv s.timer s.now) (h : deliver e s = .next t)
    (hs : restores e = false) : TimerInv t.timer t.now := by
  rcases deliver_timer_forms e s t h hs with ⟨sel, ie, d, rfl, _⟩ | ⟨rfl, _⟩ | ⟨rfl, _⟩ | ⟨rfl, _⟩ | ⟨htimer, hnow, _⟩
  · exact timerInv_loadTimer sel ie d s
  · exact hinv.clear
  · exact hinv.tick
  · exact ⟨fun _ => ⟨rfl, rfl⟩, nofun, nofun⟩
  · rwa [htimer, hnow]

/-! ## The edge invariant -/

theorem mapChip_eq_riot {f : EdgeDetector → EdgeDetector} {c : Chip} {e : EdgeDetector} (h : mapChip f c = .riot e) :
    ∃ e0, c = .riot e0 ∧ e = f e0 := by
  cases c with
  | miot => cases h
  | riot e0 =>
    injection h with h
    exact ⟨e0, rfl, h.symm⟩

/-- R120: after a comparison of the level it leaves, a state has observed it. -/
theorem edgeInv_of_observed {t : State} {c : Chip} (h : t.chip = observedChip (pa7Level t) c) : EdgeInv t := by
  intro e he
  rw [h] at he
  cases c with
  | miot => cases he
  | riot e0 =>
    injection he with he
    rw [← he]

/-- A change of the edge detector that keeps its last level, with PA7 as it was, keeps the invariant. -/
theorem EdgeInv.mapChip {s t : State} {f : EdgeDetector → EdgeDetector} (hinv : EdgeInv s)
    (hchip : t.chip = mapChip f s.chip) (hf : ∀ e, (f e).last = e.last) (h7 : pa7Level t = pa7Level s) : EdgeInv t := by
  intro e he
  obtain ⟨e0, he0, rfl⟩ := mapChip_eq_riot (hchip.symm.trans he)
  rw [hf, hinv e0 he0, h7]

theorem EdgeInv.congr {s t : State} (hinv : EdgeInv s) (hchip : t.chip = s.chip) (h7 : pa7Level t = pa7Level s) :
    EdgeInv t := fun e he => (hinv e (hchip ▸ he)).trans h7.symm

/-- R120, R121, R127, R122: every operation keeps the edge invariant. -/
theorem EdgeInv.effectOf {s : State} (hinv : EdgeInv s) (i : Instr) : EdgeInv (effectOf i s) := by
  rcases effectOf_chip_cases i s with ⟨_, h⟩ | ⟨pol, ie, _, h⟩ | ⟨_, _, h, _⟩ | ⟨_, _, hchip, hpa⟩
  · rw [h]
    exact hinv.mapChip rfl (fun _ => rfl) rfl
  · rw [h]
    exact hinv.mapChip rfl (fun _ => rfl) rfl
  · exact edgeInv_of_observed h
  · exact hinv.congr hchip (by simp only [pa7Level, hpa])

/-- R163: with PA7 an input after RESET, its level is the input level. -/
theorem pa7Level_resetChip (s : State) : pa7Level (resetChip s) = bitOf s.pa.input 7 := by
  have h0 : bitOf (0#8) 7 = false := by decide
  simp [pa7Level, resetChip_eq, resetPort, h0]

/-- R163: RESET observes the PA7 level it leaves. -/
theorem edgeInv_resetChip (s : State) : EdgeInv (resetChip s) := by
  intro e he
  rw [pa7Level_resetChip]
  rw [resetChip_eq] at he
  obtain ⟨_, _, rfl⟩ := mapChip_eq_riot he
  rfl

/-- R120, R121: every event but a restore keeps the edge invariant. -/
theorem EdgeInv.deliver {e : Event} {s t : State} (hinv : EdgeInv s) (h : deliver e s = .next t)
    (hs : restores e = false) : EdgeInv t := by
  cases e with
  | bus tr =>
    obtain ⟨i, _, hx⟩ := deliver_bus_next tr s t h
    obtain ⟨_, rfl⟩ := (exec_next_iff i s t).1 hx
    exact hinv.effectOf i
  | reset =>
    injection h with h
    rw [← h]
    exact edgeInv_resetChip s
  | restore snap => cases hs
  | _ =>
    rcases deliver_chip_cases _ s t h rfl rfl nofun hs with hobs | ⟨hchip, h7⟩
    · exact edgeInv_of_observed hobs
    · exact hinv.congr hchip h7

/-! ## The RAM invariant -/

/-- R9: an operation stores inside the RAM of its variant. -/
theorem storedOffset_lt (i : Instr) (off : Nat) (h : storedOffset i = some off) : off < Config.ramSize i.variant := by
  cases i
  case riotWrRam o d =>
    injection h with h
    rw [← h]
    exact o.isLt
  case miotWrRam o d =>
    injection h with h
    rw [← h]
    exact o.isLt
  all_goals cases h

theorem RamInv.congr {s t : State} (hinv : RamInv s) (hram : t.ram = s.ram) (hv : t.variant = s.variant) : RamInv t := by
  rwa [RamInv, hram, hv]

/-- R134: a store inside the window keeps the RAM canonical and inside it. -/
theorem RamInv.writeRam {s : State} (hinv : RamInv s) (off : Nat) (d : Byte) (h : off < Config.ramSize s.variant) :
    RamInv (writeRam off d s) := by
  obtain ⟨hwf, hin⟩ := hinv
  refine ⟨Memory.wf_write _ _ _ hwf, fun c hc => ?_⟩
  rcases Memory.mem_write _ _ _ c hc with rfl | hc
  · exact h
  · exact hin c hc

/-- R31: every event but a restore keeps the RAM invariant. -/
theorem RamInv.deliver {e : Event} {s t : State} (hinv : RamInv s) (h : deliver e s = .next t)
    (hs : restores e = false) : RamInv t := by
  have hv := deliver_variant e s t h
  rcases deliver_cases e s t h with ⟨_, i, rfl, _, hw, rfl⟩ | ⟨_, rfl⟩ | ⟨p, i, l, _, rfl⟩ | ⟨p, v, _, rfl⟩ | ⟨_, rfl⟩ |
    ⟨_, rfl, _⟩ | ⟨p, _, _, rfl⟩
  · rcases effectOf_ram_cases i s with ⟨off, d, hoff, heff⟩ | hram
    · rw [heff]
      refine hinv.writeRam off d ?_
      rw [← wellFormedFor_variant i _ _ hw]
      exact storedOffset_lt i off hoff
    · exact hinv.congr hram hv
  · exact hinv.congr rfl hv
  · obtain ⟨_, hram, _⟩ := setInput_frame p i l s
    exact hinv.congr hram hv
  · obtain ⟨_, hram, _⟩ := setInputByte_frame p v s
    exact hinv.congr hram hv
  · exact hinv.congr rfl hv
  · cases hs
  · exact hinv.congr (by cases p <;> rfl) hv

/-! ## The invariant of the machine -/

/-- R37, R176: a restore that answers a next state was allowed, and is its whole effect. -/
theorem deliver_restore_next {snap : Snapshot} {s t : State} (h : deliver (.restore snap) s = .next t) :
    mayRestore snap s = true ∧ t = restoreFields snap s := by
  by_cases hm : mayRestore snap s = true
  · rw [deliver_restore snap s hm] at h
    injection h with h
    exact ⟨hm, h.symm⟩
  · rw [deliver_restore_refused snap s hm] at h
    cases h

/-- R176: every event keeps the invariant, a restore because it is refused unless what it restores meets it. -/
theorem ChipInv.deliver {e : Event} {s t : State} (hinv : ChipInv s) (h : deliver e s = .next t) : ChipInv t := by
  cases e with
  | restore snap =>
    obtain ⟨hm, rfl⟩ := deliver_restore_next h
    obtain ⟨_, hrestored⟩ := (mayRestore_iff snap s).1 hm
    exact hrestored
  | _ =>
    obtain ⟨htimer, hedge, hram⟩ := hinv
    exact ⟨htimer.deliver h rfl, hedge.deliver h rfl, hram.deliver h rfl⟩

/-! ## The incremental form -/

/-- With `m` whole periods and `pre` ticks of the next one passed and `n` periods left, the next tick ends the last period exactly
if it ends a period and one is left. -/
theorem succ_eq_periods_iff {m n p pre : Nat} (hn : 1 ≤ n) (hpre : pre < p) :
    m * p + pre + 1 = (m + n) * p ↔ pre + 1 = p ∧ n = 1 := by
  rw [Nat.add_mul]
  constructor
  · intro h
    have hn1 : n = 1 := by
      by_contra hne
      have h2 : 2 * p ≤ n * p := Nat.mul_le_mul_right p (by omega)
      omega
    subst hn1
    omega
  · rintro ⟨h, rfl⟩
    omega

/-- R115: a COUNTING match reaches the crossing exactly if the tick ends the last period. -/
theorem IncMatches.crosses_iff {c : IncTimer} {t : Timer} {now : Nat} (h : IncMatches c t now)
    (hc : c.state = .counting) :
    now + 1 = timerExpiry t ↔ c.pre + 1 = divisor t.prescale ∧ c.cnt.toNat = 1 := by
  obtain ⟨_, _, _, hcount, _⟩ := h
  obtain ⟨_, hload, h1, hle, hpre, hel⟩ := hcount hc
  rw [← succ_eq_periods_iff (m := t.value.toNat - c.cnt.toNat) h1 hpre, timerExpiry, timerSpan_eq, ← hel,
    Nat.sub_add_cancel hle]
  omega

/-- R115, R105: matching timers read alike. -/
theorem IncMatches.incRead_eq {c : IncTimer} {s : State} (h : IncMatches c s.timer s.now) : incRead c = timerValue s := by
  obtain ⟨hstate, _, _, hcount, hspin⟩ := h
  cases hc : c.state with
  | idle => simp only [incRead, timerValue, ← hstate, hc]
  | counting =>
    obtain ⟨_, _, h1, hle, hpre, hel⟩ := hcount hc
    have hq : timerElapsed s / divisor s.timer.prescale = s.timer.value.toNat - c.cnt.toNat := by
      rw [timerElapsed, hel, whole_periods hpre]
    rw [timerValue_of_counting (hstate.symm.trans hc), hq, Nat.sub_sub_self hle, BitVec.ofNat_toNat, BitVec.setWidth_eq]
    simp only [incRead, hc]
  | spinning =>
    obtain ⟨_, hcnt⟩ := hspin hc
    rw [timerValue_of_spinning (hstate.symm.trans hc), timerElapsed]
    simpa only [incRead, hc] using hcnt

/-- R115: two IDLE timers match by their enable and flag alone. -/
theorem incMatches_of_idle {c : IncTimer} {t : Timer} {now : Nat} (hc : c.state = .idle) (ht : t.state = .idle)
    (hie : c.ie = t.ie) (hf : c.flag = t.flag) : IncMatches c t now :=
  ⟨hc.trans ht.symm, hie, hf, by simp [hc], by simp [hc]⟩

/-- R109, R115: timers with the same enable and flag match after both expire, if the crossing is now and the counter is 0. -/
theorem incMatches_expire {c : IncTimer} {t : Timer} {now : Nat} (hie : c.ie = t.ie) (hf : c.flag = t.flag)
    (hcnt : c.cnt = 0) (hexp : now = timerExpiry t) : IncMatches (incExpire c) (expire t) now := by
  have hel : now - t.tLoad = timerSpan t := by rw [hexp, timerExpiry, Nat.add_sub_cancel_left]
  refine ⟨rfl, hie, by simp only [incExpire, expire, hie, hf], nofun, fun _ => ⟨?_, ?_⟩⟩
  · rw [hexp]
    exact Nat.le_add_right _ _
  · simp only [incExpire, timerSpan_expire, expire_tLoad, hcnt, hel, Int.sub_self]
    rfl

/-- R96, R115: a load makes them match. -/
theorem incMatches_load (sel : BitVec 2) (ie : Bool) (d : Byte) (s : State) :
    IncMatches (incLoad sel ie d) (loadTimer sel ie d s).timer s.now := by
  rcases eq_or_ne d 0 with rfl | hd
  · refine incMatches_expire rfl rfl rfl ?_
    rw [timerExpiry, timerSpan_loadedTimer, (span_eq_zero_iff 0 _).2 rfl]
    rfl
  · have h0 : d.toNat ≠ 0 := fun h => hd (BitVec.eq_of_toNat_eq h)
    rw [loadTimer_of_ne_zero hd, incLoad, if_neg hd]
    refine ⟨rfl, rfl, rfl, fun _ => ⟨rfl, Nat.le_refl _, Nat.one_le_iff_ne_zero.2 h0, Nat.le_refl _, divisor_pos _, ?_⟩, nofun⟩
    simp [loadedTimer]

/-- R115: a tick inside a prescale period. -/
theorem incTick_of_mid_period {c : IncTimer} (hc : c.state = .counting) (h : c.pre + 1 ≠ divisor c.prescale) :
    incTick c = { c with pre := c.pre + 1 } := by
  simp only [incTick, hc, if_neg h]

/-- R115: a tick that ends a prescale period. -/
theorem incTick_of_period_end {c : IncTimer} (hc : c.state = .counting) (h : c.pre + 1 = divisor c.prescale) :
    incTick c = if c.cnt - 1 = 0 then incExpire { c with pre := 0, cnt := c.cnt - 1 }
      else { c with pre := 0, cnt := c.cnt - 1 } := by
  simp only [incTick, hc, if_pos h]

/-- R115: a tick of a COUNTING match is one more tick of the period, one more period, or the crossing. -/
theorem IncMatches.tick_counting {c : IncTimer} {t : Timer} {now : Nat} (h : IncMatches c t now)
    (hc : c.state = .counting) : IncMatches (incTick c) (tickTimer (now + 1) t) (now + 1) := by
  have hcross := h.crosses_iff hc
  obtain ⟨hstate, hie, hf, hcount, _⟩ := h
  obtain ⟨hp, hload, h1, hle, hpre, hel⟩ := hcount hc
  have hspin : c.state ≠ .spinning := by simp [hc]
  have hcnt : (c.cnt - 1).toNat = c.cnt.toNat - 1 := BitVec.toNat_sub_of_le h1
  rw [← hp] at hcross
  by_cases hperiod : c.pre + 1 = divisor c.prescale
  · have hlast : c.cnt - 1 = 0 ↔ c.cnt.toNat = 1 := by
      rw [BitVec.toNat_eq, hcnt]
      change c.cnt.toNat - 1 = 0 ↔ _
      omega
    rw [incTick_of_period_end hc hperiod]
    split
    case isTrue hzero =>
      have hexp := hcross.2 ⟨hperiod, hlast.1 hzero⟩
      rw [tickTimer_of_expiry _ _ (hstate.symm.trans hc) hexp]
      exact incMatches_expire hie hf hzero hexp
    case isFalse hne =>
      have hcnt1 : c.cnt.toNat ≠ 1 := mt hlast.2 hne
      rw [tickTimer_of_ne_expiry _ _ fun h => hcnt1 (hcross.1 h).2]
      refine ⟨hstate, hie, hf, fun _ => ?_, fun hs => absurd hs hspin⟩
      simp only [hcnt]
      refine ⟨hp, by omega, by omega, by omega, divisor_pos _, ?_⟩
      have hm : t.value.toNat - (c.cnt.toNat - 1) = t.value.toNat - c.cnt.toNat + 1 := by omega
      rw [hm, Nat.succ_mul, ← hp, ← hperiod]
      rw [← hp, ← hperiod] at hel
      omega
  · rw [incTick_of_mid_period hc hperiod, tickTimer_of_ne_expiry _ _ fun h => hperiod (hcross.1 h).1]
    have hpre' : c.pre + 1 < divisor t.prescale := lt_of_le_of_ne hpre (hp ▸ hperiod)
    have hel' : now + 1 - t.tLoad = (t.value.toNat - c.cnt.toNat) * divisor t.prescale + (c.pre + 1) := by omega
    exact ⟨hstate, hie, hf, fun _ => ⟨hp, by omega, h1, hle, hpre', hel'⟩, fun hs => absurd hs hspin⟩

/-- One less, modulo 256. -/
theorem ofInt_sub_one (x : Int) : BitVec.ofInt 8 (x - 1) = BitVec.ofInt 8 x - 1 := by
  rw [Int.sub_eq_add_neg, BitVec.ofInt_add, BitVec.ofInt_neg, BitVec.sub_eq_add_neg]
  rfl

/-- R115: a tick keeps the match. -/
theorem IncMatches.tick {c : IncTimer} {t : Timer} {now : Nat} (h : IncMatches c t now) :
    IncMatches (incTick c) (tickTimer (now + 1) t) (now + 1) := by
  cases hc : c.state with
  | counting => exact h.tick_counting hc
  | idle =>
    obtain ⟨hstate, hie, hf, _, _⟩ := h
    have htick : incTick c = c := by simp only [incTick, hc]
    rw [htick, tickTimer_of_not_counting _ _ (by simp [← hstate, hc])]
    exact incMatches_of_idle hc (hstate.symm.trans hc) hie hf
  | spinning =>
    obtain ⟨hstate, hie, hf, _, hspin⟩ := h
    obtain ⟨hload, hcnt⟩ := hspin hc
    have htick : incTick c = { c with cnt := c.cnt - 1 } := by simp only [incTick, hc]
    rw [htick, tickTimer_of_not_counting _ _ (by simp [← hstate, hc])]
    refine ⟨hstate, hie, hf, by simp [hc], fun _ => ⟨by omega, ?_⟩⟩
    simp only [hcnt, ← ofInt_sub_one]
    congr 1
    omega

/-- R115: every event but a restore keeps the match. -/
theorem IncMatches.deliver {e : Event} {s t : State} {c : IncTimer} (hm : IncMatches c s.timer s.now)
    (h : deliver e s = .next t) (hs : restores e = false) : IncMatches (incEvent e c) t.timer t.now := by
  rcases deliver_timer_forms e s t h hs with ⟨sel, ie, d, rfl, hi⟩ | ⟨rfl, hi⟩ | ⟨rfl, hi⟩ | ⟨rfl, hi⟩ | ⟨htimer, hnow, hi⟩
  · rw [hi]
    exact incMatches_load sel ie d s
  · obtain ⟨hstate, hie, _, hcount, hspin⟩ := hm
    rw [hi]
    exact ⟨hstate, hie, rfl, hcount, hspin⟩
  · rw [hi]
    exact hm.tick
  · rw [hi]
    exact incMatches_of_idle rfl rfl rfl rfl
  · rw [hi, htimer, hnow]
    exact hm

/-- A run of one more step takes its first step. -/
theorem step_of_run_succ {n : Nat} {s t : State} (h : Host.Core.run core (n + 1) s = .next t) :
    ∃ u, step s = .next u ∧ Host.Core.run core n u = .next t := by
  cases hu : step s with
  | next u => exact ⟨u, rfl, (run_succ_of_step hu n).symm.trans h⟩
  | fault r =>
    have hc : core.step s = .fault r := hu
    simp only [Host.Core.run, hc] at h
    cases h
  | refused r =>
    have hc : core.step s = .refused r := hu
    simp only [Host.Core.run, hc] at h
    cases h

/-- R115: a schedule without a restore keeps the match. -/
theorem IncMatches.run {es : List Event} {s t : State} {c : IncTimer} (hm : IncMatches c s.timer s.now)
    (hes : ∀ e ∈ es, restores e = false) (hsch : s.schedule = es) (h : Host.Core.run core es.length s = .next t) :
    IncMatches (incRun es c) t.timer t.now := by
  induction es generalizing s c with
  | nil =>
    injection h with h
    rwa [← h]
  | cons e rest ih =>
    obtain ⟨u, hstep, hrun⟩ := step_of_run_succ h
    rw [step_cons s e rest hsch] at hstep
    obtain ⟨he, hrest⟩ := List.forall_mem_cons.1 hes
    exact ih (hm.deliver (s := s.setSchedule rest) hstep he) hrest (deliver_schedule e _ u hstep) hrun

/-! ## The statements -/

/-- Settles O53: with nothing scheduled the state stays, and every event keeps the three parts of the invariant. -/
theorem everyStepKeepsTheInvariant : Obligations.EveryStepKeepsTheInvariant := by
  intro s t hinv h
  rcases step_cases s t h with ⟨_, rfl⟩ | ⟨e, rest, _, hd⟩
  · exact hinv
  · exact ((chipInv_congr_snapshot (t := s.setSchedule rest) rfl).2 hinv).deliver hd

/-- Settles O58: the match by what an event does to both forms, the read because matching timers read alike. -/
theorem everyEventKeepsTheIncrementalMatch : Obligations.EveryEventKeepsTheIncrementalMatch := by
  intro e s t c hm h hs
  have hm' := hm.deliver h hs
  exact ⟨hm', hm'.incRead_eq⟩

/-- Settles O22: each of the eight rows is the load of both tables, whose effect is `loadEffect_loadTimer`. -/
theorem timerLoadsSetEveryField : Obligations.TimerLoadsSetEveryField := by
  intro s d
  refine ⟨?_, ?_, ?_, ?_, ?_, ?_, ?_, ?_⟩ <;> exact runsOn_load (fun _ => rfl) (fun _ => rfl) rfl rfl

/-- Settles O23: the count by the state of the timer; while COUNTING the invariant bounds the periods that have passed. -/
theorem timerReadReturnsTheCount : Obligations.TimerReadReturnsTheCount := by
  intro s
  refine ⟨_, _, runsOn_of_effectOf (fun _ => rfl) (fun _ => rfl) (readTimer_eq s) (readTimer_eq s), rfl,
    fun hidle => ?_, fun hinv hcount => ?_, fun _ hspin => ?_⟩
  · simp only [timerValue, hidle]
  · obtain ⟨_, hc, _⟩ := hinv
    obtain ⟨hload, hlt, _⟩ := hc hcount
    rw [timerExpiry] at hlt
    have hq := elapsed_div_lt_value (t := s.timer) (n := s.now - s.timer.tLoad) (by omega)
    have hv := s.timer.value.isLt
    rw [timerValue_of_counting hcount, timerElapsed, BitVec.toNat_ofNat, Nat.mod_eq_of_lt ((Nat.sub_le _ _).trans_lt hv)]
    exact ⟨Nat.sub_add_cancel hq.le, Nat.sub_pos_of_lt hq, Nat.sub_le _ _⟩
  · rw [timerValue_of_spinning hspin, timerElapsed, timerSpan_eq, BitVec.toNat_ofInt]
    omega

/-- Settles O24: the crossing of a count of 0 is at the load, so the reads are those 0 and 1 ticks after a crossing. -/
theorem zeroCountLoadCrossesAtOnce : Obligations.ZeroCountLoadCrossesAtOnce := by
  intro s sel ie
  obtain ⟨_, _, _, _, _, hzero, _⟩ := loadEffect_loadTimer s sel ie 0x00
  obtain ⟨hstate, hflag⟩ := hzero rfl
  obtain ⟨u, hu, hu0⟩ := exec_timerRead_after_crossing 0 sel ie 0x00 s
  obtain ⟨v, hv, hv1⟩ := exec_timerRead_after_crossing 1 sel ie 0x00 s
  have hspan (j : Nat) : (0x00 : Byte).toNat * divisor (prescaleOf sel) + j = j := by simp
  rw [hspan] at hu hv
  refine ⟨_, u, v, exec_timerLoad s sel ie 0x00, hstate, hflag, fun hie => ?_, hu, hu0, hv, hv1⟩
  rw [irq_loadTimer, hie]
  rfl

/-- Settles O26: before the crossing by the count of whole periods, and for `k = v` by the read at the crossing. -/
theorem countdownReadsCountMinusPeriods : Obligations.CountdownReadsCountMinusPeriods := by
  intro s sel ie v k j hk hj hjk
  rcases Nat.lt_or_eq_of_le hk with hlt | rfl
  · have hn : k * divisor (prescaleOf sel) + j < v.toNat * divisor (prescaleOf sel) := calc
      _ < (k + 1) * divisor (prescaleOf sel) := by rw [Nat.succ_mul]; omega
      _ ≤ _ := Nat.mul_le_mul_right _ hlt
    refine ⟨_, _, exec_timerLoad s sel ie v, exec_timerRead_afterTicks _ (loadTimer sel ie v s), ?_⟩
    rw [readTimer_eq, timerValue_afterTicks_lt _ _ _ _ _ hn, whole_periods hj]
  · obtain rfl : j = 0 := by omega
    obtain ⟨u, hu, h0⟩ := exec_timerRead_after_crossing 0 sel ie v s
    refine ⟨_, u, exec_timerLoad s sel ie v, hu, h0.trans ?_⟩
    rw [Nat.sub_self]
    rfl

/-- Settles O27: the timer `n` ticks after a load is the expired one exactly from the span on. -/
theorem flagSetsExactlyAtTheZeroCrossing : Obligations.FlagSetsExactlyAtTheZeroCrossing := by
  intro s sel ie v
  refine ⟨_, exec_timerLoad s sel ie v, fun n => ?_⟩
  rw [afterTicks_loadTimer_timer]
  split
  case isTrue h => rw [expire_loadedTimer_flag, decide_eq_true h, Bool.and_true]
  case isFalse h => rw [decide_eq_false h, Bool.and_false, loadedTimer]

/-- Settles O28: the read by the ticks since the crossing; after the IFR read no tick changes a SPINNING timer. -/
theorem spinWrapsWithoutFurtherInterrupts : Obligations.SpinWrapsWithoutFurtherInterrupts := by
  intro s sel ie v j
  obtain ⟨u, hu, hj⟩ := exec_timerRead_after_crossing j sel ie v s
  obtain ⟨_, _, hv⟩ := afterTicks_frame (v.toNat * divisor (prescaleOf sel) + j) (loadTimer sel ie v s)
  have hspin : (readIfr (afterTicks (v.toNat * divisor (prescaleOf sel) + j) (loadTimer sel ie v s))).timer.state =
      .spinning := by
    rw [readIfr_eq, afterTicks_loadTimer_timer, if_pos (Nat.le_add_right _ _)]
    rfl
  refine ⟨_, u, _, exec_timerLoad s sel ie v, hu, hj, exec_ifrRead _ _ hv, fun n => ?_⟩
  rw [afterTicks_not_counting n _ (by simp [hspin])]
  exact ⟨rfl, hspin⟩

/-- Settles O30: a tick leaves a SPINNING timer, an IFR read clears its flag, and nothing else reaches it. -/
theorem oneCrossingPerLoad : Obligations.OneCrossingPerLoad := by
  intro e s t h hspin hl hr hs
  rcases deliver_timer_cases e s t h hl hr hs with ⟨_, rfl⟩ | ⟨_, rfl⟩ | ⟨_, _, ht⟩
  · have ht : (tick s).timer = s.timer := tickTimer_of_not_counting _ _ (by simp [hspin])
    rw [ht]
    exact ⟨hspin, id⟩
  · exact ⟨hspin, nofun⟩
  · rw [ht]
    exact ⟨hspin, id⟩

/-- Settles O31: two IDLE timers match, and a schedule without a restore keeps the match. -/
theorem incrementalFormGivesTheSameReads : Obligations.IncrementalFormGivesTheSameReads := by
  intro es s t c hs hc hie hf hes h
  have hstart : IncMatches c s.timer s.now := incMatches_of_idle hc hs hie hf
  have hm : IncMatches (incRun es c) t.timer t.now := hstart.run (s := s.setSchedule es) hes rfl h
  have hread := hm.incRead_eq
  obtain ⟨hstate', hie', hf', _⟩ := hm
  exact ⟨hread, hstate', hf', hie'⟩

/-- Settles O25: the whole effect of a TICK, at the crossing and away from it. -/
theorem tickAdvancesTimeAndCrosses : Obligations.TickAdvancesTimeAndCrosses := by
  intro s
  refine ⟨tick s, stepsTo_of_deliver fun _ => rfl, rfl, fun hc hexp => ?_, fun hn => if_neg hn⟩
  have ht : (tick s).timer = expire s.timer := tickTimer_of_expiry _ _ hc hexp
  refine ⟨ht, fun hie => ?_⟩
  simp [irq, timerRequest, ht, expire_eq, hie]

end Sys2Proof.Machine
end

section
/-! PROOFS. The statements of 42_edge_and_flags.md: the edge comparison (O35), the edge-control writes (O36, O37), the events that
set the edge flag (O38), and the IFR read (O39). -/

namespace Sys2Proof.Machine

/-! ## The edge comparison -/

/-- R120: on RIOT the comparison replaces the edge detector's record. -/
theorem observedChip_riot (level : Bool) (e : EdgeDetector) : observedChip level (.riot e) = .riot (compareEdge level e) :=
  (mapChip_compareEdge level (.riot e)).symm

/-- R120: a comparison sets the flag at a change the polarity watches, and never clears it. -/
theorem compareEdge_flag_iff (level : Bool) (e : EdgeDetector) :
    (compareEdge level e).flag = true ↔ e.flag = true ∨ (level ≠ e.last ∧ watches e.pol level = true) := by
  rw [compareEdge]
  split
  case isTrue h => exact iff_of_true rfl (.inr h)
  case isFalse h => exact (or_iff_left h).symm

/-- R120: the changes a polarity watches, by polarity. -/
theorem watches_iff (pol : Polarity) (level : Bool) :
    watches pol level = true ↔ (pol = .rising ∧ level = true) ∨ (pol = .falling ∧ level = false) := by
  cases pol <;> simp [watches]

/-- R120: RISING watches a change to 1, and FALLING one to 0. -/
theorem watches_iff_rising_iff (pol : Polarity) (level : Bool) :
    watches pol level = true ↔ (pol = .rising ↔ level = true) := by
  cases pol <;> simp [watches]

/-- R131: where PA7 was observed, `Observe()` does nothing. -/
theorem EdgeInv.observe_eq_self {s : State} (hinv : EdgeInv s) : observe s = s := by
  rw [observe_eq, hinv.observedChip_eq rfl]

/-! ## Flags and the interrupt output -/

/-- R144: IRQ on RIOT. -/
theorem irq_of_riot {s : State} {e : EdgeDetector} (hc : s.chip = .riot e) :
    irq s = ((s.timer.flag && s.timer.ie) || (e.flag && e.ie)) := by
  rw [irq, hc]
  rfl

/-- R127: clearing the edge flag leaves no edge request. -/
@[simp] theorem edgeRequest_mapChip_clear (c : Chip) :
    edgeRequest (mapChip (fun e => { e with flag := false }) c) = false := by
  cases c <;> rfl

/-- R132: an IFR read drops IRQ. -/
theorem irq_readIfr (s : State) : irq (readIfr s) = false := by
  simp [irq, timerRequest, readIfr_eq]

/-- R128: the byte of an IFR read, bit by bit. -/
theorem bitOf_ifrValue (s : State) (i : Fin 8) :
    bitOf (ifrValue s) i = if i = 7 then s.timer.flag else if i = 6 then edgeFlag s.chip else false := by
  rw [ifrValue]
  generalize s.timer.flag = timer
  generalize edgeFlag s.chip = edge
  revert timer edge i
  decide

/-- R128: without an edge flag the byte is the timer flag's bit alone. -/
theorem ifrValue_of_no_edge (s : State) (h : edgeFlag s.chip = false) : ifrValue s = 0x80 ∨ ifrValue s = 0x00 := by
  rw [ifrValue, h]
  cases s.timer.flag
  · exact .inr rfl
  · exact .inl rfl

/-! ## The statements -/

/-- Settles O38: an event compares the level it leaves, or leaves the edge detector and the level; the last level is the one
before the event by the invariant. -/
theorem edgeFlagFollowsMatchingTransitions : Obligations.EdgeFlagFollowsMatchingTransitions := by
  intro ev s t e hinv hc h hifr hcfg hreset hrestore
  rcases deliver_chip_cases ev s t h hifr hcfg hreset hrestore with hobs | ⟨hchip, h7⟩
  · refine ⟨compareEdge (pa7Level t) e, by rw [hobs, hc, observedChip_riot], rfl, rfl, ?_⟩
    rw [compareEdge_flag_iff, hinv e hc, watches_iff_rising_iff]
  · exact ⟨e, hchip.trans hc, rfl, rfl, (or_iff_left fun ⟨hne, _⟩ => hne h7).symm⟩

/-- Settles O36: the whole effect of an edge-control write, at each polarity and enable. -/
theorem edgeControlWritesConfigure : Obligations.EdgeControlWritesConfigure := by
  intro s e hc
  refine ⟨exec_edgeWrite s e .falling false hc, exec_edgeWrite s e .rising false hc, exec_edgeWrite s e .falling true hc,
    exec_edgeWrite s e .rising true hc, fun pol ie t h => ?_⟩
  rw [exec_edgeWrite s e pol ie hc] at h
  injection h with h
  rw [← h]
  exact irq_of_riot (e := { e with pol := pol, ie := ie }) rfl

/-- Settles O37: the write keeps the flag, and the invariant, with which a comparison finds nothing new. -/
theorem polarityChangeMakesNoEdge : Obligations.PolarityChangeMakesNoEdge := by
  intro s t e pol ie hinv hc h
  obtain ⟨_, ht⟩ := (exec_next_iff _ s t).1 h
  have hinv' : EdgeInv t := ht ▸ hinv.effectOf (edgeWrite pol ie)
  rw [exec_edgeWrite s e pol ie hc] at h
  injection h with h
  exact ⟨by rw [← h]; rfl, hinv'.observe_eq_self⟩

/-- Settles O39: the bits of the byte, and the whole effect of the read on each variant. -/
theorem ifrReadAnswersAndClearsBothFlags : Obligations.IfrReadAnswersAndClearsBothFlags := by
  intro s
  have hedge : bitOf (ifrValue s) 6 = edgeFlag s.chip := bitOf_ifrValue s 6
  refine ⟨readIfr s, ifrValue s, runsOn_of_effectOf (fun _ => rfl) (fun _ => rfl) rfl rfl, rfl, bitOf_ifrValue s 7,
    fun e hc => ?_, fun hc => ?_, fun i hi => ?_, irq_readIfr s, rfl⟩
  · rw [hedge, readIfr_eq, hc]
    exact ⟨rfl, rfl⟩
  · have hno : edgeFlag s.chip = false := by rw [hc]; rfl
    refine ⟨hedge.trans hno, ?_, ifrValue_of_no_edge s hno⟩
    rw [readIfr_eq, hc]
    rfl
  · rw [bitOf_ifrValue, if_neg (by omega), if_neg (by omega)]

/-- Settles O35: the comparison's record, field by field, and IRQ from it. -/
theorem edgeComparison : Obligations.EdgeComparison := by
  refine ⟨fun s e hc => ?_, fun s hc => ?_⟩
  · have hobs : observe s = { s with chip := .riot (compareEdge (pa7Level s) e) } := by
      rw [observe_eq, hc, observedChip_riot]
    refine ⟨compareEdge (pa7Level s) e, hobs, rfl, rfl, rfl, ?_, ?_⟩
    · rw [compareEdge_flag_iff, watches_iff]
    · rw [hobs]
      exact irq_of_riot rfl
  · rw [observe_eq, hc, observedChip, ← hc]

end Sys2Proof.Machine
end

section
/-! PROOFS. The statements of 43_ram_rom.md: the RAM write and read (O40, O41), the ROM write and read (O42, O43), and the
accesses that stop (O8). -/

namespace Sys2Proof.Machine

/-! ## The byte at an offset -/

theorem ramByte_of_stored {s : State} {k : Nat} {c : Byte} (h : Memory.read s.ram k = some c) : ramByte s k = c := by
  rw [ramByte, h, Option.getD_some]

theorem ramByte_of_not_stored {s : State} {k : Nat} (h : Memory.read s.ram k = none) : ramByte s k = Config.ramInit k := by
  rw [ramByte, h, Option.getD_none]

theorem romByte_of_supplied {s : State} {k : Nat} {c : Byte} (h : Memory.read s.params.rom k = some c) :
    romByte s k = c := by
  rw [romByte, h, Option.getD_some]

theorem romByte_of_not_supplied {s : State} {k : Nat} (h : Memory.read s.params.rom k = none) :
    romByte s k = Config.romContents k := by
  rw [romByte, h, Option.getD_none]

/-! ## RAM accesses of the two tables -/

/-- R134: what a RAM write does, in either variant's table, and what the table's RAM read answers after it. -/
theorem ramWrite_stores {w r : Instr} {off : Nat} {d : Byte} {s : State} (hw : exec w s = .next (writeRam off d s))
    (hr : exec r (writeRam off d s) = .next (readRam off (writeRam off d s))) :
    ∃ t u, exec w s = .next t ∧ ramByte t off = d ∧ (∀ k, k ≠ off → ramByte t k = ramByte s k) ∧
      t = { s with ram := t.ram, dataOut := none } ∧ irq t = irq s ∧ exec r t = .next u ∧ u.dataOut = some d := by
  have hbyte : ramByte (writeRam off d s) off = d := ramByte_writeRam_same off d s
  exact ⟨writeRam off d s, readRam off (writeRam off d s), hw, hbyte, fun k => ramByte_writeRam_other off k d s,
    rfl, irq_congr rfl rfl, hr, congrArg some hbyte⟩

/-- R133: what a RAM read answers, in either variant's table. -/
theorem ramRead_answers {r : Instr} {off : Nat} {s : State} (hr : exec r s = .next (readRam off s)) :
    ∃ b, exec r s = .next { s with dataOut := some b } ∧ (∀ c, Memory.read s.ram off = some c → b = c) ∧
      (Memory.read s.ram off = none → b = Config.ramInit off) :=
  ⟨ramByte s off, hr, fun _ => ramByte_of_stored, ramByte_of_not_stored⟩

/-! ## ROM accesses -/

section
variable {s : State} {off : RomOffset} (hv : s.variant = .miot) (hwidth : off.width = romOffsetWidth s.params.romSize)
  (hoff : off.bits.toNat < s.params.romSize)
include hv hwidth hoff

/-- R135: a ROM read in the window completes. -/
theorem exec_romRead : exec (.miotRdRom off) s = .next (readRom off.bits.toNat s) :=
  exec_on_variant (.miotRdRom off) s hv ((romWindowHas_iff _ off).2 ⟨hwidth, hoff⟩)

/-- R136: a ROM write in the window completes. -/
theorem exec_romWrite (d : Byte) : exec (.miotWrRom off d) s = .next (writeRom s) :=
  exec_on_variant (.miotWrRom off d) s hv ((romWindowHas_iff _ off).2 ⟨hwidth, hoff⟩)

end

/-- R136: a ROM read, in the window or not, has the outcome after a ROM write that it had before. -/
theorem exec_romRead_after_romWrite (k : RomOffset) (s : State) :
    exec (.miotRdRom k) (writeRom s) = exec (.miotRdRom k) s := rfl

/-! ## The statements -/

/-- Settles O40: R134's words are the canonical ones, and both variants' writes have one effect. -/
theorem ramWriteStoresOneByte : Obligations.RamWriteStoresOneByte :=
  ⟨fun off d => decode_encode (.riotWrRam off d), fun off d => decode_encode (.miotWrRam off d),
    fun s off d hv => ramWrite_stores (exec_on_variant (.riotWrRam off d) s hv rfl)
      (exec_on_variant (.riotRdRam off) (writeRam off.toNat d s) hv rfl),
    fun s off d hv => ramWrite_stores (exec_on_variant (.miotWrRam off d) s hv rfl)
      (exec_on_variant (.miotRdRam off) (writeRam off.toNat d s) hv rfl)⟩

/-- Settles O8: on the other variant's chip by `exec_eq_fault`, outside the ROM window by `exec_outside`. -/
theorem operationsOfTheOtherVariantStop : Obligations.OperationsOfTheOtherVariantStop :=
  fun i s => ⟨fun hv => exec_eq_fault i s (Ne.symm hv), fun hv hr => exec_outside i s hv.symm hr⟩

/-- Settles O41: both variants' reads have one effect, and a RESET is no RAM write. -/
theorem ramReadAnswersTheByte : Obligations.RamReadAnswersTheByte := by
  obtain ⟨_, hevent⟩ := onlyARamWriteChangesRam
  exact ⟨fun s off hv => ramRead_answers (exec_on_variant (.riotRdRam off) s hv rfl),
    fun s off hv => ramRead_answers (exec_on_variant (.miotRdRam off) s hv rfl),
    fun s t k h => hevent .reset s t h rfl k (fun _ _ _ he => nomatch he)⟩

/-- Settles O42: the write's whole effect is that no byte is given back, and neither a ROM read, IRQ nor a RAM byte depends on
that. -/
theorem romWriteHasNoEffect : Obligations.RomWriteHasNoEffect :=
  ⟨fun off d => decode_encode (.miotWrRom ⟨10, off⟩ d), fun s _ d hv hwidth hoff =>
    ⟨writeRom s, exec_romWrite hv hwidth hoff d, writeRom_eq s, irq_congr rfl rfl, ramByte_eq_of_ram rfl,
      fun k => exec_romRead_after_romWrite k s⟩⟩

/-- Settles O43: the read answers `romByte`, and changes nothing else. -/
theorem romReadAnswersTheContents : Obligations.RomReadAnswersTheContents :=
  fun s off hv hwidth hoff =>
    ⟨romByte s off.bits.toNat, exec_romRead hv hwidth hoff, fun _ => romByte_of_supplied, romByte_of_not_supplied⟩

end Sys2Proof.Machine
end

section
/-! PROOFS. The statements of 60_exceptions.md: completion (O7), the interrupt output (O46), what holds it (O47) and what raises it
(O48), and the timer fields that only a load writes (O49). -/

namespace Sys2Proof.Machine

/-! ## Completion -/

/-- R48, R49: ROM_SIZE bounds no offset of another window. -/
theorem Instr.inRomWindow_of_window_ne_rom (i : Instr) (n : Nat) (h : i.format.window ≠ .rom) : i.inRomWindow n = true := by
  cases i
  case miotRdRom | miotWrRom => exact absurd rfl h
  all_goals rfl

/-- R49: a transaction and the operation it decodes to lie in the same ROM windows. -/
theorem inRomWindow_of_decode {tr : Transaction} {i : Instr} (h : decode tr = .ok i) (n : Nat) :
    i.inRomWindow n = tr.inRomWindow n := by
  have hf := format_of_decode h
  cases tr with
  | rom width w d =>
    rw [decode_rom] at h
    obtain rfl := Except.ok.inj h
    split <;> rfl
  | _ => exact Instr.inRomWindow_of_window_ne_rom i n (by rw [hf]; nofun)

/-- R68: a transaction and the operation it decodes to are well formed for the same chips. -/
theorem wellFormedFor_of_decode {tr : Transaction} {i : Instr} (h : decode tr = .ok i) (v : Variant) (n : Nat) :
    i.wellFormedFor v n = tr.wellFormedFor v n := by
  rw [Instr.wellFormedFor, Transaction.wellFormedFor, Instr.variant, format_of_decode h, inRomWindow_of_decode h]

/-- R141: a transaction that is well formed for the chip completes. -/
theorem deliver_bus_completes (tr : Transaction) (s : State)
    (h : tr.wellFormedFor s.variant s.params.romSize = true) : ∃ t, deliver (.bus tr) s = .next t := by
  obtain ⟨i, hi, _⟩ := decode_total tr
  rw [deliver_bus_eq_exec tr i s hi]
  exact ⟨_, exec_eq_next i s ((wellFormedFor_of_decode hi _ _).trans h)⟩

/-! ## The two requests -/

theorem timerRequest_iff (t : Timer) : timerRequest t = true ↔ t.flag = true ∧ t.ie = true := Bool.and_eq_true_iff

/-- R144: a MIOT makes no edge request, and a RIOT's is its flag masked by its enable. -/
theorem edgeRequest_iff (c : Chip) : edgeRequest c = true ↔ ∃ e, c = .riot e ∧ e.flag = true ∧ e.ie = true := by
  cases c <;> simp [edgeRequest]

theorem irq_iff (s : State) : irq s = true ↔ timerRequest s.timer = true ∨ edgeRequest s.chip = true := Bool.or_eq_true_iff

theorem irq_eq_false_iff (s : State) : irq s = false ↔ timerRequest s.timer = false ∧ edgeRequest s.chip = false :=
  Bool.or_eq_false_iff

/-- R159: where PB7 is an ordinary bit, the dedicated line carries IRQ. -/
theorem irqLine_of_pb7Ordinary {s : State} (h : Pb7Ordinary s) : irqLine s = irq s := by
  unfold irqLine
  split
  case h_1 rule hchip hmode =>
    rcases h with hv | hm
    · simp [State.variant_eq, hchip] at hv
    · simp [hmode] at hm
  case h_2 => rfl

/-! ## Events that run an operation of a kind -/

/-- An event that runs an operation of a kind has the effect of one. -/
theorem deliver_runsOperation {p : Instr → Bool} {e : Event} {s t : State} (h : deliver e s = .next t)
    (hp : runsOperation p e = true) : ∃ i, p i = true ∧ t = effectOf i s := by
  rcases deliver_cases e s t h with ⟨tr, i, rfl, hd, _, rfl⟩ | ⟨rfl, _⟩ | ⟨_, _, _, rfl, _⟩ | ⟨_, _, rfl, _⟩ | ⟨rfl, _⟩ |
    ⟨_, rfl, _⟩ | ⟨_, _, rfl, _⟩
  · rw [runsOperation_bus _ _ _ hd] at hp
    exact ⟨i, hp, rfl⟩
  all_goals cases hp

section
variable {e : Event} {s t : State} (h : deliver e s = .next t)
include h

theorem deliver_of_loadsTimer (hl : loadsTimer e = true) : ∃ sel ie d, t = loadTimer sel ie d s := by
  obtain ⟨i, hi, rfl⟩ := deliver_runsOperation h hl
  rcases effectOf_timer_cases i s with ⟨sel, ie, d, _, heff⟩ | ⟨hno, _⟩ | ⟨hno, _⟩
  · exact ⟨sel, ie, d, heff⟩
  all_goals
    rw [hno] at hi
    cases hi

theorem deliver_of_readsIfr (hi : readsIfr e = true) : t = readIfr s := by
  obtain ⟨i, hi, rfl⟩ := deliver_runsOperation h hi
  rcases (isIfrRead_iff i).1 hi with rfl | rfl <;> rfl

theorem deliver_of_configuresEdge (hc : configuresEdge e = true) :
    ∃ pol ie, t = silent (configureEdge pol ie s) := by
  obtain ⟨i, hi, rfl⟩ := deliver_runsOperation h hc
  simp only [isEdgeWrite, Bool.or_eq_true, decide_eq_true_eq] at hi
  rcases hi with ((rfl | rfl) | rfl) | rfl <;> exact ⟨_, _, rfl⟩

end

/-! ## What holds a request -/

/-- R108, R146: a tick leaves what the load has written. -/
theorem tickTimer_frame (now : Nat) (t : Timer) :
    (tickTimer now t).ie = t.ie ∧ (tickTimer now t).value = t.value ∧ (tickTimer now t).prescale = t.prescale ∧
    (tickTimer now t).tLoad = t.tLoad := by
  rcases tickTimer_cases now t with ⟨_, _, h⟩ | ⟨_, h⟩ <;> rw [h] <;> exact ⟨rfl, rfl, rfl, rfl⟩

/-- R109, R144: after the zero crossing the timer requests an interrupt exactly if its load enabled it. -/
theorem timerRequest_expire (t : Timer) : timerRequest (expire t) = t.ie := by
  rw [expire_eq, timerRequest]
  cases t.ie <;> simp

/-- R147: a tick acknowledges no request. -/
theorem timerRequest_tickTimer {t : Timer} (now : Nat) (h : timerRequest t = true) :
    timerRequest (tickTimer now t) = true := by
  rcases tickTimer_cases now t with ⟨_, _, ht⟩ | ⟨_, ht⟩
  · rw [ht, timerRequest_expire]
    exact ((timerRequest_iff t).1 h).2
  · rwa [ht]

/-- R120, R147: an edge comparison never clears the edge flag, so it acknowledges no request. -/
theorem edgeRequest_observedChip {c : Chip} (level : Bool) (h : edgeRequest c = true) :
    edgeRequest (observedChip level c) = true := by
  obtain ⟨e, rfl, hf, hie⟩ := (edgeRequest_iff c).1 h
  rw [observedChip_riot]
  exact (edgeRequest_iff _).2 ⟨_, rfl, (compareEdge_flag_iff level e).2 (.inl hf), hie⟩

/-! ## What raises a request -/

/-- R107, R109: a load raises the timer's request only with the count 0 and the interrupt enabled. -/
theorem timerRequest_loadTimer {sel : BitVec 2} {ie : Bool} {d : Byte} {s : State}
    (h : timerRequest (loadTimer sel ie d s).timer = true) :
    (loadTimer sel ie d s).timer.value = 0x00 ∧ (loadTimer sel ie d s).timer.ie = true := by
  obtain ⟨hf, hie⟩ := (timerRequest_iff _).1 h
  obtain ⟨hvalue, _, _, _, hcount, _⟩ := loadEffect_loadTimer s sel ie d
  refine ⟨hvalue.trans ?_, hie⟩
  by_contra hd
  obtain ⟨_, hno⟩ := hcount hd
  rw [hno] at hf
  cases hf

/-- R109, R143: a tick raises the timer's request only at the crossing of an enabled COUNTING timer. -/
theorem timerRequest_tickTimer_rises {t : Timer} {now : Nat} (h0 : timerRequest t = false)
    (h1 : timerRequest (tickTimer now t) = true) : t.state = .counting ∧ t.ie = true ∧ now = timerExpiry t := by
  rcases tickTimer_cases now t with ⟨hc, hexp, ht⟩ | ⟨_, ht⟩ <;> rw [ht] at h1
  · rw [timerRequest_expire] at h1
    exact ⟨hc, h1, hexp⟩
  · simp [h0] at h1

/-- R130: a comparison raises the edge request only by latching the flag of an enabled edge detector. -/
theorem edgeRequest_observedChip_rises {level : Bool} {c : Chip} (h0 : edgeRequest c = false)
    (h1 : edgeRequest (observedChip level c) = true) :
    ∃ e0 e1, c = .riot e0 ∧ observedChip level c = .riot e1 ∧ e0.ie = true ∧ e0.flag = false ∧ e1.flag = true := by
  cases c with
  | miot => cases h1
  | riot e =>
    rw [observedChip_riot] at h1 ⊢
    obtain ⟨hf, hie⟩ := Bool.and_eq_true_iff.1 h1
    have henabled : e.ie = true := hie
    exact ⟨e, _, rfl, rfl, henabled, by simpa [edgeRequest, henabled] using h0, hf⟩

/-- R130: an edge-control write raises the edge request only with the flag latched before. -/
theorem edgeFlag_of_edgeRequest_configureEdge {pol : Polarity} {ie : Bool} {s : State}
    (h : edgeRequest (silent (configureEdge pol ie s)).chip = true) : edgeFlag s.chip = true := by
  obtain ⟨_, he, hf, _⟩ := (edgeRequest_iff _).1 h
  obtain ⟨e0, hc, rfl⟩ := mapChip_eq_riot he
  rw [hc]
  exact hf

/-- R161: RESET leaves no edge request. -/
@[simp] theorem edgeRequest_resetChip (s : State) : edgeRequest (resetChip s).chip = false := by
  rw [resetChip_eq]
  cases s.chip <;> rfl

section
variable {e : Event} {s t : State} (h : deliver e s = .next t) (hs : restores e = false)
include h hs

/-- R143: the sources of the timer's request. -/
theorem timerRequest_rises (h0 : timerRequest s.timer = false) (h1 : timerRequest t.timer = true) :
    (e = .tick ∧ s.timer.state = .counting ∧ s.timer.ie = true ∧ t.now = timerExpiry s.timer) ∨
    (loadsTimer e = true ∧ t.timer.value = 0x00 ∧ t.timer.ie = true) := by
  cases hl : loadsTimer e with
  | true =>
    obtain ⟨sel, ie, d, rfl⟩ := deliver_of_loadsTimer h hl
    exact .inr ⟨rfl, timerRequest_loadTimer h1⟩
  | false =>
    rcases eq_or_ne e .reset with rfl | hr
    · injection h with h
      subst h
      cases h1
    · rcases deliver_timer_cases e s t h hl hr hs with ⟨he, rfl⟩ | ⟨_, rfl⟩ | ⟨_, _, ht⟩
      · exact .inl ⟨he, timerRequest_tickTimer_rises h0 h1⟩
      · cases h1
      · rw [ht, h0] at h1
        cases h1

/-- R130, R143: the sources of the edge request. -/
theorem edgeRequest_rises (h0 : edgeRequest s.chip = false) (h1 : edgeRequest t.chip = true) :
    (∃ e0 e1, s.chip = .riot e0 ∧ t.chip = .riot e1 ∧ e0.ie = true ∧ e0.flag = false ∧ e1.flag = true) ∨
    (configuresEdge e = true ∧ edgeFlag s.chip = true) := by
  cases hc : configuresEdge e with
  | true =>
    obtain ⟨pol, ie, rfl⟩ := deliver_of_configuresEdge h hc
    exact .inr ⟨rfl, edgeFlag_of_edgeRequest_configureEdge h1⟩
  | false =>
    cases hi : readsIfr e with
    | true => simp [deliver_of_readsIfr h hi, readIfr_eq] at h1
    | false =>
      rcases eq_or_ne e .reset with rfl | hr
      · injection h with h
        simp [← h] at h1
      · rcases deliver_chip_cases e s t h hi hc hr hs with hobs | ⟨hchip, _⟩
        · rw [hobs] at h1 ⊢
          exact .inl (edgeRequest_observedChip_rises h0 h1)
        · rw [hchip, h0] at h1
          cases h1

end

/-! ## The statements -/

/-- Settles O7: a well-formed operation answers its effect, and a transaction is well formed exactly if what it decodes to is. -/
theorem everyAccessAndEventCompletes : Obligations.EveryAccessAndEventCompletes :=
  fun s => ⟨fun tr => deliver_bus_completes tr s, fun i h => ⟨_, exec_eq_next i s h⟩, ⟨_, rfl⟩, fun _ _ _ => ⟨_, rfl⟩,
    fun _ _ => ⟨_, rfl⟩, ⟨_, rfl⟩⟩

/-- Settles O47: no tick and no edge comparison clears the request that asserts IRQ, and nothing else reaches it. -/
theorem irqIsHeldUntilItIsCleared : Obligations.IrqIsHeldUntilItIsCleared := by
  intro e s t h hirq hifr hload hcfg hreset hrestore
  refine (irq_iff t).2 (((irq_iff s).1 hirq).imp (fun htimer => ?_) (fun hedge => ?_))
  · rcases deliver_timer_cases e s t h hload hreset hrestore with ⟨_, rfl⟩ | ⟨hi, _⟩ | ⟨_, _, ht⟩
    · exact timerRequest_tickTimer _ htimer
    · rw [hifr] at hi
      cases hi
    · rwa [ht]
  · rcases deliver_chip_cases e s t h hifr hcfg hreset hrestore with hobs | ⟨hchip, _⟩
    · rw [hobs]
      exact edgeRequest_observedChip _ hedge
    · rwa [hchip]

/-- Settles O48: IRQ rises when one of its two requests does, and each has its own sources. -/
theorem irqRisesOnlyFromItsSources : Obligations.IrqRisesOnlyFromItsSources := by
  intro e s t h h0 h1
  cases hs : restores e with
  | true => exact .inr (.inr (.inr (.inr rfl)))
  | false =>
    obtain ⟨htimer, hedge⟩ := (irq_eq_false_iff s).1 h0
    rcases (irq_iff t).1 h1 with ht | hc
    · exact (timerRequest_rises h hs htimer ht).imp_right .inl
    · exact .inr (.inr ((edgeRequest_rises h hs hedge hc).imp_right .inl))

/-- Settles O49: a tick leaves what the load has written, an IFR read clears the flag alone, and nothing else reaches the
timer. -/
theorem timerEnableChangesOnlyAtALoad : Obligations.TimerEnableChangesOnlyAtALoad := by
  intro e s t h hl hr hs
  rcases deliver_timer_cases e s t h hl hr hs with ⟨_, rfl⟩ | ⟨_, rfl⟩ | ⟨_, _, ht⟩
  · exact tickTimer_frame _ _
  · exact ⟨rfl, rfl, rfl, rfl⟩
  · rw [ht]
    exact ⟨rfl, rfl, rfl, rfl⟩

/-- Settles O46: the two requests, and the line where PB7_IRQ_MODE leaves it. -/
theorem interruptLineIsTheMaskedOr : Obligations.InterruptLineIsTheMaskedOr :=
  fun s => ⟨by rw [irq_iff, timerRequest_iff, edgeRequest_iff], irqLine_of_pb7Ordinary⟩

end Sys2Proof.Machine
end

section
/-! PROOFS. The statements of 70_reset_and_hazards.md: what a RESET leaves (O50, O51), the state after reset (O52), and the timer
that RESET has cancelled (O32). -/

namespace Sys2Proof.Machine

/-! ## The RESET event -/

/-- R161: the step that delivers RESET. -/
theorem stepsTo_reset (s : State) : StepsTo .reset s (resetChip s) := stepsTo_of_deliver fun _ => rfl

/-- R164: a second RESET gives the same state. -/
theorem resetChip_resetChip (s : State) : resetChip (resetChip s) = resetChip s := by
  simp only [resetChip_eq]
  cases s.chip <;> rfl

/-- R164: after RESET nothing asserts IRQ. -/
theorem irq_resetChip (s : State) : irq (resetChip s) = false :=
  (irq_eq_false_iff _).2 ⟨rfl, edgeRequest_resetChip s⟩

/-- R164: after RESET the chip drives no pin of a port, PB7 where it is an ordinary bit among them. -/
theorem portOE_resetChip (p : PortName) (s : State) (h : p = .b → Pb7Ordinary (resetChip s)) :
    portOE p (resetChip s) = 0x00 := by
  refine byte_ext _ _ fun i => (bitOf_portOE _ p i fun hp _ => h hp).trans ?_
  cases p <;> rfl

/-! ## The state after reset -/

/-- R38, R165: the state after reset is one that a RESET leaves. -/
theorem resetChip_resetOf (v : Variant) : resetChip (State.resetOf v) = State.resetOf v := by
  rw [resetChip_eq]
  cases v <;> rfl

/-- R165: the state after reset meets the invariant: nothing is pending, RESET has observed PA7, and nothing is stored. -/
theorem chipInv_resetOf (v : Variant) : ChipInv (State.resetOf v) := by
  have hedge : EdgeInv (State.resetOf v) := by
    rw [← resetChip_resetOf]
    exact edgeInv_resetChip _
  exact ⟨⟨fun _ => ⟨rfl, rfl⟩, nofun, nofun⟩, hedge, Memory.wf_reset v, nofun⟩

/-! ## An IDLE timer stays IDLE -/

/-- R162: what holds from a RESET to the next load: a chip of this variant, its timer IDLE with the flag 0. -/
structure TimerIdle (v : Variant) (s : State) : Prop where
  variant : s.variant = v
  state : s.timer.state = .idle
  flag : s.timer.flag = false

/-- R161: RESET leaves an IDLE timer. -/
theorem timerIdle_resetChip (s : State) : TimerIdle s.variant (resetChip s) :=
  ⟨deliver_variant .reset s _ rfl, rfl, rfl⟩

/-- R105, R106: a timer read of an IDLE timer completes and answers TIMER_IDLE_VALUE. -/
theorem TimerIdle.read {v : Variant} {s : State} (h : TimerIdle v s) :
    ∃ u, exec (timerRead v) s = .next u ∧ u.dataOut = some Config.timerIdleValue := by
  refine ⟨_, exec_timerRead s v h.variant, ?_⟩
  simp only [readTimer_eq, timerValue, h.state]

/-- R108: ticks leave an IDLE timer as it is. -/
theorem TimerIdle.afterTicks_timer {v : Variant} {s : State} (h : TimerIdle v s) (n : Nat) :
    (afterTicks n s).timer = s.timer :=
  afterTicks_not_counting n s (by simp [h.state])

/-- R108, R162: after any ticks an IDLE timer is IDLE. -/
theorem TimerIdle.afterTicks {v : Variant} {s : State} (h : TimerIdle v s) (n : Nat) : TimerIdle v (afterTicks n s) := by
  obtain ⟨_, _, hv⟩ := afterTicks_frame n s
  have ht := h.afterTicks_timer n
  exact ⟨hv.trans h.variant, by rw [ht, h.state], by rw [ht, h.flag]⟩

/-- R162: no event but a load or a restore takes the timer out of IDLE. -/
theorem TimerIdle.deliver {v : Variant} {e : Event} {s t : State} (h : TimerIdle v s) (hd : deliver e s = .next t)
    (hl : loadsTimer e = false) (hs : restores e = false) : TimerIdle v t := by
  have hv : t.variant = v := (deliver_variant e s t hd).trans h.variant
  rcases eq_or_ne e .reset with rfl | hr
  · injection hd with hd
    subst hd
    exact ⟨hv, rfl, rfl⟩
  · rcases deliver_timer_cases e s t hd hl hr hs with ⟨_, rfl⟩ | ⟨_, rfl⟩ | ⟨_, _, ht⟩
    · exact h.afterTicks 1
    · exact ⟨hv, h.state, rfl⟩
    · exact ⟨hv, by rw [ht, h.state], by rw [ht, h.flag]⟩

/-- R162: no schedule without a load and a restore takes the timer out of IDLE. -/
theorem TimerIdle.run {v : Variant} {es : List Event} {s t : State} (h : TimerIdle v s)
    (hes : ∀ e ∈ es, loadsTimer e = false ∧ restores e = false) (hsch : s.schedule = es)
    (hrun : Host.Core.run core es.length s = .next t) : TimerIdle v t := by
  induction es generalizing s with
  | nil =>
    injection hrun with hrun
    rwa [← hrun]
  | cons e rest ih =>
    obtain ⟨⟨hl, hs⟩, hrest⟩ := List.forall_mem_cons.1 hes
    obtain ⟨u, hstep, hrun⟩ := step_of_run_succ hrun
    rw [step_cons s e rest hsch] at hstep
    have hidle : TimerIdle v (s.setSchedule rest) := ⟨h.variant, h.state, h.flag⟩
    exact ih (hidle.deliver hstep hl hs) hrest (deliver_schedule e _ u hstep) hrun

/-! ## The statements -/

/-- Settles O32: RESET leaves the timer IDLE, and neither ticks nor a schedule without a load and a restore take it out. -/
theorem resetCancelsTheExpiry : Obligations.ResetCancelsTheExpiry := by
  intro s
  have hidle := timerIdle_resetChip s
  refine ⟨resetChip s, stepsTo_reset s, hidle.state, hidle.flag,
    fun n => ⟨hidle.afterTicks_timer n, (hidle.afterTicks n).read⟩, fun es v hes h => ?_⟩
  have hstart : TimerIdle s.variant ((resetChip s).setSchedule es) := ⟨hidle.variant, hidle.state, hidle.flag⟩
  have hend := hstart.run hes rfl h
  exact ⟨hend.state, hend.flag, hend.read⟩

/-- Settles O51: IRQ and the pins after RESET, and RESET after RESET. -/
theorem resetIsIdempotentAndQuiet : Obligations.ResetIsIdempotentAndQuiet := by
  intro s t h
  injection h with h
  subst h
  exact ⟨irq_resetChip s, portOE_resetChip .a s nofun, fun h7 => portOE_resetChip .b s fun _ => h7,
    congrArg Host.Outcome.next (resetChip_resetChip s)⟩

/-- Settles O50: the whole effect of a RESET, field by field. -/
theorem resetEventSetsTheResetValues : Obligations.ResetEventSetsTheResetValues := by
  intro s
  refine ⟨resetChip s, stepsTo_reset s, ?_⟩
  rw [resetChip_eq]
  exact ⟨rfl, rfl, rfl, rfl, rfl, fun e hc => by rw [hc]; rfl, fun hc => by rw [hc]; rfl, rfl, rfl, rfl, rfl, rfl⟩

/-- Settles O52: the state after reset is a RESET of itself, so IRQ is 0 as after every RESET. -/
theorem theResetStateMeetsTheInvariant : Obligations.TheResetStateMeetsTheInvariant := by
  intro v
  have hirq := irq_resetChip (State.resetOf v)
  rw [resetChip_resetOf] at hirq
  exact ⟨chipInv_resetOf v, State.resetOf_variant v, hirq, congrArg Host.Outcome.next (resetChip_resetOf v), rfl⟩

end Sys2Proof.Machine
end
